-- ==== Sys2Proof/Word.lean ====
section
/-! DEFINITION. The plain words of SMSA CORE. Every value is unsigned, of a stated width, bit 0 the least
significant (00_scope.md R8); the widths are the fixed parameters of R5. -/

namespace Sys2Proof

/-- One byte: the unit of the virtual byte space, of the caller's buffers and of the transfer buffer (R40). -/
abbrev Byte := BitVec 8

/-- A 32-bit value: a virtual address (`ADDR_W`), a length (`LEN_W`), a byte count, or an operation word
(`WORD_W`) (R5). -/
abbrev Word := BitVec 32

/-- A host command packet, format HC, 66 bits (R60, R66). -/
abbrev Packet := BitVec 66

/-- The contents of one block, or of the transfer buffer: exactly 256 bytes, indexed 0..255 (R5, R27). -/
abbrev Block := Vector Byte 256

end Sys2Proof
end

