-- ==== Sys2Proof/Config.lean ====
section
/-! DEFINITION. What is fixed for a machine: the capacity constants (R5), the parameters the source leaves to
the environment (R6), and the free values, one opaque constant for each thing the spec leaves open. -/

namespace Sys2Proof

/-- `MAX_DRUM`, the largest valid drum id (R5). -/
def Config.maxDrum : Nat := 15

/-- `BLOCK_SIZE`: bytes in a block (R5). -/
def Config.blockSize : Nat := 256

/-- `CAPACITY`, 2^20 bytes of virtual address space (R5, R46). -/
def Config.capacity : Nat := 1048576

/-- The parameters of R6: the six opcode numbers ("an external contract, not defined by this core") and the
width of the device status. They are fixed at build time (R39): no step changes them. State carries them so
that a statement about every state is a statement about every choice of them (92_eei_decisions.md D1; log entry 4). -/
structure Config.Params where
  opcMount : BitVec 6
  opcUnmount : BitVec 6
  opcSeekDrum : BitVec 6
  opcSeekBlock : BitVec 6
  opcReadBlock : BitVec 6
  opcWriteBlock : BitVec 6
  statusW : Nat
deriving DecidableEq, Repr

/-- The defaults of R6 (D1, D5): opcodes 0 to 5 in the source's listing order, a 32-bit status. The opcode
table prints its words for these. -/
def Config.Params.default : Config.Params where
  opcMount := 0
  opcUnmount := 1
  opcSeekDrum := 2
  opcSeekBlock := 3
  opcReadBlock := 4
  opcWriteBlock := 5
  statusW := 32

/-! Free values. Each has no body: nothing can be proved of what it is. The first argument is the State's draw
counter, so that every draw is a fresh value (log entry 3). -/

/-- `cmd` outside a command (R37, U7). -/
opaque Config.freeCmd : Nat → BitVec 2

/-- `len` outside a command (R37, U7). -/
opaque Config.freeLen : Nat → BitVec 32

/-- `drum` outside a command (R37, U7). -/
opaque Config.freeDrum : Nat → BitVec 4

/-- `block` outside a command (R37, U7). -/
opaque Config.freeBlock : Nat → BitVec 8

/-- `idx` outside a command (R37, U7), within its range 0..256 (R23). -/
opaque Config.freeIdx : Nat → Fin 257

/-- `count` outside a command (R37, U7). -/
opaque Config.freeCount : Nat → BitVec 32

/-- Byte `i` of `buf` outside a command (R37, U7), and after a READ_BLOCK that failed (R101, U4). -/
opaque Config.freeBufByte : Nat → Nat → BitVec 8

/-- The device's current block after SEEK_DRUM, READ_BLOCK, WRITE_BLOCK, or a failed operation (R47, R103, U3). -/
opaque Config.freeHeadBlock : Nat → BitVec 8

/-- The device's current drum after a failed operation (U5: "device state after any failed operation"). -/
opaque Config.freeHeadDrum : Nat → BitVec 4

/-- Whether the device is mounted after a MOUNT or UNMOUNT that failed (U5, U11). -/
opaque Config.freeMounted : Nat → Bool

/-- Byte `o` of the target block after a WRITE_BLOCK that failed (R98, R153, U5). -/
opaque Config.freeStoredByte : Nat → Nat → BitVec 8

/-- The byte the host answers for an index of `in` beyond the bytes the caller supplied (R198, U6). -/
opaque Config.freeInByte : Nat → Nat → BitVec 8

/-- At a reset in an issuing state: whether the device operation had been issued already (R191, U13). -/
opaque Config.resetWasIssued : Nat → Bool

/-- At a reset with an operation in flight: whether the device carried it out as a success (R191, U13). -/
opaque Config.resetWasDone : Nat → Bool

end Sys2Proof
end

