-- ==== Sys2Proof/Machine/State.lean ====
section
/-! DEFINITION. The state of the machine: the block's registers (10_state.md R20), its build-time parameters
(R6, R39), the device and the host as far as the block meets them (R11, R33, R34, R35), and the model's own
record. Then the reasons a step stops, and the state after reset. -/

namespace Sys2Proof.Machine

/-- The FSM state register `st`, nine values; their binary encoding is not specified and not observable (R28). -/
inductive Fsm where
  | idle | mnt | seekD | seekB | rdblk | copy | seekB2 | wrblk | adv
deriving DecidableEq, Repr

/-- The command register `cmd`; its 2-bit codes are R26's (`Cmd.code`). -/
inductive Cmd where
  | mount | unmount | read | write
deriving DecidableEq, Repr

/-- The values of `status`; their 2-bit codes are R29's (`Status.code`). -/
inductive Status where
  | ok | invalidDrum | deviceFailure | outOfRange
deriving DecidableEq, Repr

/-- The three error kinds that `raise` takes (R160). -/
inductive ErrorKind where
  | invalidDrum | deviceFailure | outOfRange
deriving DecidableEq, Repr

/-- `dev_buf_kind`: what the buffer argument of a device operation is for (R35, R101). -/
inductive BufKind where
  /-- No buffer. -/
  | noBuf
  /-- The device is to fill the buffer. -/
  | fill
  /-- The device is to take the buffer. -/
  | drain
deriving DecidableEq, Repr

/-- Memory as data: (address, byte) pairs, addresses strictly rising. -/
abbrev Memory := List Host.Cell

/-- What a store address with no entry reads as. DESIGN CHOICE (log entry 5): the spec gives the device store no
reset contents. Every store can be written down with it; only the reset store depends on it. -/
def Memory.unlisted : Byte := 0

/-- The canonical form of the device store: addresses strictly rising and inside the array (R46), no entry equal
to what an unlisted address reads as. -/
abbrev Memory.wf (m : Memory) : Prop :=
  m.Pairwise (fun a b => a.1 < b.1) ∧ ∀ c ∈ m, c.1 < Config.capacity ∧ c.2 ≠ Memory.unlisted

/-- One `out` buffer of the host as the block sees it: the bytes written to it by index; an index with no entry is
untouched (R34, R135). -/
abbrev OutBuf := List Host.Cell

/-- The canonical form of an `out` buffer: indices strictly rising and within 32 bits (R40). -/
abbrev OutBuf.wf (m : OutBuf) : Prop :=
  m.Pairwise (fun a b => a.1 < b.1) ∧ ∀ c ∈ m, c.1 < 2 ^ 32

/-- The host's `out` buffers by name: "`out` names the buffer that receives the bytes" (R73). A name with no entry is
a buffer nothing has been written to. -/
abbrev OutBuffers := List (Nat × OutBuf)

/-- The canonical form of the `out` buffers: names strictly rising, no untouched buffer listed, each in its own
canonical form. -/
abbrev OutBuffers.wf (bs : OutBuffers) : Prop :=
  bs.Pairwise (fun a b => a.1 < b.1) ∧ ∀ b ∈ bs, b.2 ≠ [] ∧ b.2.wf

/-- What the device will do with one operation it is given: the environment's choice, an input (R91, U9, U11). -/
inductive Answer where
  /-- It answers with this status; the port carries its low `STATUS_W` bits. -/
  | reply (status : Nat)
  /-- It never answers; the block waits for ever (R133, R203, U9). -/
  | never
deriving DecidableEq, Repr

/-- The device behind the gateway (R33, R47): external to the block, seen only through `DevOp`. -/
structure Device where
  /-- Whether it is mounted (R33). The block reads it nowhere (R32, R112). -/
  mounted : Bool
  /-- The device cursor's drum, `cd` (R33). -/
  drum : BitVec 4
  /-- The device cursor's block, `cb` (R33). -/
  block : BitVec 8
  /-- The device store, by linear address `drum * 65536 + block * 256 + offset` (R33, R41). -/
  store : Memory
  /-- The answers to the operations to come, in order; when none is listed the device answers 0, as the ideal
  device always does (R47). -/
  answers : List Answer
deriving DecidableEq, Repr

/-- One call of the host: the packet, the byte string `in`, and the buffer that `out` names (R34, R66, R73). A
write has no `out`, a read no `in`, a mount or unmount neither: the operand a call lacks is never used. -/
structure Call where
  packet : Packet
  /-- `in = b0 b1 b2 ...` (R73). -/
  inBuf : List Byte
  /-- The name of the buffer that receives the bytes of a read (R73; log entry 14). -/
  out : Nat
deriving DecidableEq, Repr

/-- The host (R11): the calls it has still to make, in order, the operands of the running call, and its
buffers. -/
structure HostSide where
  /-- The calls not yet accepted; the first stands at the command port (R73, R196, R205). -/
  calls : List Call
  /-- The `in` buffer of the running command (R34). -/
  inBuf : List Byte
  /-- The name of the running command's `out` buffer (R34, R73). -/
  outName : Nat
  /-- All `out` buffers, each under its name (R34, R73; log entry 14). -/
  outs : OutBuffers
deriving DecidableEq, Repr

/-- One transaction at the block's two interfaces (R34, R35), and the reset line's marker (R191). -/
inductive Event where
  /-- `Command(c, a, l)`, accepted. -/
  | command (op : Cmd) (addr len : Word)
  /-- `DevOp(word, b)`, answered: `dev_word`, `dev_buf_kind`, `dev_wdata` when drained, `dev_status`. -/
  | devOp (word : Word) (kind : BufKind) (wdata : Option Block) (status : Nat)
  /-- `InByte(i) -> v`. -/
  | inByte (index : Word) (value : Byte)
  /-- `OutByte(i, v)`. -/
  | outByte (index : Word) (value : Byte)
  /-- `Completion(code)`. -/
  | completion (code : Status)
  /-- The reset line was taken; no transaction of the block. -/
  | reset
deriving DecidableEq, Repr

/-- The machine's state. -/
structure State where
  /-- FSM state (R28). -/
  st : Fsm
  /-- The command being run (R26). -/
  cmd : Cmd
  /-- The requested length (R25). -/
  len : BitVec 32
  /-- Block cursor: drum (R21). -/
  drum : BitVec 4
  /-- Block cursor: block (R22). -/
  block : BitVec 8
  /-- Block cursor: bytes transferred so far (R24). -/
  count : BitVec 32
  /-- Block cursor: copy index within the buffer, 0..256 (R23). -/
  idx : BitVec 9
  /-- The transfer buffer (R27). -/
  buf : Block
  /-- Result code of the last completed command (R29). -/
  status : Status
  /-- The build-time parameters (R6, R39). -/
  params : Config.Params
  /-- The device (R33). -/
  dev : Device
  /-- The host (R34). -/
  host : HostSide
  /-- The reset input: asserted, it is taken before anything else (R191; log entry 15). -/
  resetLine : Bool
  /-- The model's own: the transactions so far, oldest first (log entry 16). -/
  trace : List Event
  /-- The model's own: how many free values have been drawn (log entry 3). -/
  draws : Nat
deriving DecidableEq, Repr

/-- Why a step stops with a fault. No state that keeps the FSM's invariants (R38) reaches either. -/
inductive Fault where
  /-- Raised by `COPY` when `cmd` is neither CMD_READ nor CMD_WRITE: the transition table R31 has no such row.
  Safe: the machine stops where the spec gives no behaviour (log entry 19). -/
  | noTransition
  /-- Raised by `COPY` when `idx` is above 256 or `count` above `len`: R86 forms `256 - idx` and `len - count`
  only where they do not borrow. Safe: as above (log entry 19). -/
  | cursorOutOfBounds
deriving DecidableEq, Repr

/-- Why an instruction is refused. -/
inductive Refusal where
  /-- Raised by an arm of exec whose instruction has no meaning yet. Safe. -/
  | notModelled (mnemonic : String)
  /-- Raised by an operation word run in an FSM state that does not issue it: "emits one only from the FSM state
  that the table of R31 gives it" (R102; log entry 8). Safe: `step` never does it. -/
  | notIssued
  /-- Raised at the gateway for a word with none of the six opcodes: outside this hardware (R70, U10; log entry 9). Safe:
  no instruction presents one. -/
  | foreignWord
deriving DecidableEq, Repr

/-- The machine right after power-on reset (R36, R190). `st` and `status` are the spec's. The other registers of
the block are unspecified by it: zero is a DESIGN CHOICE (log entry 1). The device's cursor, mount state and
store (log entry 5), the host's calls and the parameters' defaults (log entry 4) are not the block's to reset. -/
def State.reset : State where
  st := .idle
  cmd := .mount
  len := 0
  drum := 0
  block := 0
  count := 0
  idx := 0
  buf := Vector.replicate 256 0
  status := .ok
  params := Config.Params.default
  dev := { mounted := false, drum := 0, block := 0, store := [], answers := [] }
  host := { calls := [], inBuf := [], outName := 0, outs := [] }
  resetLine := false
  trace := []
  draws := 0

end Sys2Proof.Machine
end

