-- ==== Sys2Proof/Machine/Flags.lean ====
section
/-! DEFINITION. The only flags of the block: the 2-bit `status` and the derived `busy` (R29, R30). There is no
carry, zero flag, sticky bit or condition code (R29). -/

namespace Sys2Proof.Machine

/-- The codes of `status`: 0 OK, 1 InvalidDrum, 2 DeviceFailure, 3 OutOfRange (R29, R160). -/
def Status.code : Status → BitVec 2
  | .ok => 0
  | .invalidDrum => 1
  | .deviceFailure => 2
  | .outOfRange => 3

/-- The status that reports an error kind, `code(E)` of R166. -/
def ErrorKind.status : ErrorKind → Status
  | .invalidDrum => .invalidDrum
  | .deviceFailure => .deviceFailure
  | .outOfRange => .outOfRange

/-- `busy` is "not a register; it is the value `st != IDLE`" (R30). -/
def State.busy (s : State) : Bool := decide (s.st ≠ .idle)

end Sys2Proof.Machine
end

