-- ==== Sys2Proof/Syntax.lean ====
section
/-! DEFINITION. The ten rows of spec/opcode_table.json: the four host commands (format HC, R66, R67) and the six
device operation words (format OW, R62, R65). A field is as wide as the format's field, so no ill-sized operand
can be written: the encoder's input ports have exactly these widths (R63, R84). -/

namespace Sys2Proof

/-- One constructor per row of the opcode table. -/
inductive Instr where
  /-- CMD_MOUNT (R110). The packet's two fields are ignored (R113). -/
  | cmdMount (addr len : BitVec 32)
  /-- CMD_UNMOUNT (R111). The packet's two fields are ignored (R113). -/
  | cmdUnmount (addr len : BitVec 32)
  /-- CMD_READ (R120). -/
  | cmdRead (addr len : BitVec 32)
  /-- CMD_WRITE (R140). -/
  | cmdWrite (addr len : BitVec 32)
  /-- MOUNT (R93): drum and block fields are zero. -/
  | mount
  /-- UNMOUNT (R94): drum and block fields are zero. -/
  | unmount
  /-- SEEK_DRUM (R95). -/
  | seekDrum (drum : BitVec 4) (block : BitVec 8)
  /-- SEEK_BLOCK (R96). -/
  | seekBlock (drum : BitVec 4) (block : BitVec 8)
  /-- READ_BLOCK (R97). -/
  | readBlock (drum : BitVec 4) (block : BitVec 8)
  /-- WRITE_BLOCK (R98). -/
  | writeBlock (drum : BitVec 4) (block : BitVec 8)
deriving DecidableEq, Repr

/-- What carries an instruction: a 66-bit packet at the host's command port, or a 32-bit word at the device
gateway. Both are passed in parallel as one value; neither has a byte order (R42, R60). -/
inductive Frame where
  /-- Format HC, host to block (R66). -/
  | packet (p : Packet)
  /-- Format OW, block to device (R62). -/
  | word (w : Word)
deriving DecidableEq, Repr

end Sys2Proof
end

