-- ==== Sys2Proof/WellFormed.lean ====
section
/-! DEFINITION. The checks that the types leave over. The operands of `Instr` cannot be ill-sized; what can be
wrong is a choice of parameters (R6), and with it an operation word whose opcode another operation shares. -/

namespace Sys2Proof

/-- The six opcode numbers, in the order of R6. -/
def Config.Params.opcodes (p : Config.Params) : List (BitVec 6) :=
  [p.opcMount, p.opcUnmount, p.opcSeekDrum, p.opcSeekBlock, p.opcReadBlock, p.opcWriteBlock]

/-- R6: "six pairwise distinct values, each in 0..63" (the range is the type's). -/
def Config.Params.opcodesDistinct (p : Config.Params) : Bool := decide p.opcodes.Nodup

/-- R6 whole: the opcodes are distinct and `STATUS_W` is at least 1. -/
def Config.Params.wf (p : Config.Params) : Bool := p.opcodesDistinct && decide (1 ≤ p.statusW)

/-- Well-formedness of an instruction under the parameters. Every host command is legal (R71); an operation word
means one operation only when the opcodes are distinct (R6, R70). -/
def Instr.wellFormed (p : Config.Params) : Instr → Bool
  | .cmdMount _ _ | .cmdUnmount _ _ | .cmdRead _ _ | .cmdWrite _ _ => true
  | .mount | .unmount | .seekDrum _ _ | .seekBlock _ _ | .readBlock _ _ | .writeBlock _ _ => p.opcodesDistinct

end Sys2Proof
end

