-- ==== Sys2Proof/Decode.lean ====
section
/-! DEFINITION. The decoder of both formats, total, refusing by name, and after it the encoder (30_encoding.md;
R84 for the operation word). -/

namespace Sys2Proof

/-- Why a frame is no instruction. -/
inductive Reject where
  /-- Bits 21..8 of an operation word are not all zero (R62, R70). Safe: the block emits no such word. -/
  | reservedBits (w : Word)
  /-- A MOUNT or UNMOUNT opcode with a nonzero drum or block field (R70, R99). Safe: as above. -/
  | mountFields (w : Word)
  /-- An opcode that is none of the six parameters (R65, R70). Safe: as above. -/
  | unusedOpcode (w : Word)
  /-- A width that is neither the word's nor the packet's, or bits beyond it (R60, R72). Safe. -/
  | noFormat (nbits : Nat)
deriving DecidableEq, Repr

/-- Format HC, field `cmd_op`, bits 65..64 (R66). -/
def packetOp (p : Packet) : BitVec 2 := p.extractLsb' 64 2

/-- Format HC, field `cmd_addr`, bits 63..32 (R66). -/
def packetAddr (p : Packet) : Word := p.extractLsb' 32 32

/-- Format HC, field `cmd_len`, bits 31..0 (R66). -/
def packetLen (p : Packet) : Word := p.extractLsb' 0 32

/-- Format OW, field `opcode`, bits 31..26 (R62). -/
def wordOpcode (w : Word) : BitVec 6 := w.extractLsb' 26 6

/-- Format OW, field `drumId`, bits 25..22 (R62). -/
def wordDrum (w : Word) : BitVec 4 := w.extractLsb' 22 4

/-- Format OW, bits 21..8, "always zero in every word the block emits" (R62). -/
def wordReserved (w : Word) : BitVec 14 := w.extractLsb' 8 14

/-- Format OW, field `blockId`, bits 7..0 (R62). -/
def wordBlock (w : Word) : BitVec 8 := w.extractLsb' 0 8

/-- The command of a packet. All four values of `cmd_op` are defined, so no packet is illegal (R67, R71). -/
def decodePacket (p : Packet) : Instr :=
  if packetOp p = 0 then .cmdMount (packetAddr p) (packetLen p)
  else if packetOp p = 1 then .cmdUnmount (packetAddr p) (packetLen p)
  else if packetOp p = 2 then .cmdRead (packetAddr p) (packetLen p)
  else .cmdWrite (packetAddr p) (packetLen p)

/-- The operation of a word, under the opcode parameters `c` (R65, R70). -/
def decodeWord (c : Config.Params) (w : Word) : Except Reject Instr :=
  if wordReserved w ≠ 0 then .error (.reservedBits w)
  else if wordOpcode w = c.opcMount then
    if wordDrum w = 0 ∧ wordBlock w = 0 then .ok .mount else .error (.mountFields w)
  else if wordOpcode w = c.opcUnmount then
    if wordDrum w = 0 ∧ wordBlock w = 0 then .ok .unmount else .error (.mountFields w)
  else if wordOpcode w = c.opcSeekDrum then .ok (.seekDrum (wordDrum w) (wordBlock w))
  else if wordOpcode w = c.opcSeekBlock then .ok (.seekBlock (wordDrum w) (wordBlock w))
  else if wordOpcode w = c.opcReadBlock then .ok (.readBlock (wordDrum w) (wordBlock w))
  else if wordOpcode w = c.opcWriteBlock then .ok (.writeBlock (wordDrum w) (wordBlock w))
  else .error (.unusedOpcode w)

/-- The decoder of either frame. -/
def decode (c : Config.Params) : Frame → Except Reject Instr
  | .packet p => .ok (decodePacket p)
  | .word w => decodeWord c w

/-- The frame whose bits are `w`, for a row of `nbits` bits in whole bytes: 32 bits are an operation word, 66
(72 in whole bytes) a command packet. There is no other format (R60, R72). -/
def frameOfBits (nbits w : Nat) : Except Reject Frame :=
  if nbits = 32 ∧ w < 2 ^ 32 then .ok (.word (BitVec.ofNat 32 w))
  else if (nbits = 66 ∨ nbits = 72) ∧ w < 2 ^ 66 then .ok (.packet (BitVec.ofNat 66 w))
  else .error (.noFormat nbits)

/-- The decoder on the opcode table's own numbering of bits, under the default opcode numbers for which the
table's words are printed (D1). -/
def decodeTableWord (nbits w : Nat) : Option Instr :=
  match frameOfBits nbits w with
  | .ok f => (decode Config.Params.default f).toOption
  | .error _ => none

/-- `encodeOperation(opcode, drumId, blockId)`, written `Enc` in the spec: `(opcode << 26) | (drumId << 22) |
blockId` (R63, R84). -/
def encodeOperation (opcode : BitVec 6) (drum : BitVec 4) (block : BitVec 8) : Word :=
  (opcode.zeroExtend 32 <<< 26) ||| (drum.zeroExtend 32 <<< 22) ||| block.zeroExtend 32

/-- Format HC assembled: `cmd_op ++ cmd_addr ++ cmd_len` (R66). -/
def encodePacket (op : BitVec 2) (addr len : Word) : Packet := (op ++ addr ++ len : BitVec (2 + 32 + 32))

/-- The encoder: the packet of a host command (R67), the word of a device operation (R65, R99). -/
def encode (c : Config.Params) : Instr → Frame
  | .cmdMount addr len => .packet (encodePacket 0 addr len)
  | .cmdUnmount addr len => .packet (encodePacket 1 addr len)
  | .cmdRead addr len => .packet (encodePacket 2 addr len)
  | .cmdWrite addr len => .packet (encodePacket 3 addr len)
  | .mount => .word (encodeOperation c.opcMount 0 0)
  | .unmount => .word (encodeOperation c.opcUnmount 0 0)
  | .seekDrum drum block => .word (encodeOperation c.opcSeekDrum drum block)
  | .seekBlock drum block => .word (encodeOperation c.opcSeekBlock drum block)
  | .readBlock drum block => .word (encodeOperation c.opcReadBlock drum block)
  | .writeBlock drum block => .word (encodeOperation c.opcWriteBlock drum block)

end Sys2Proof
end

