-- ==== Sys2Proof/Machine/Operands.lean ====
section
/-! DEFINITION. The operand forms: the address decoder of 40_address_codec.md (format VA) and the command codes.
There are no immediates, no sign extension and no scaling anywhere (R68). -/

namespace Sys2Proof.Machine

/-- `decomposeOffset(addr)`: bits 7..0. Always succeeds (R80). -/
def decomposeOffset (addr : Word) : BitVec 8 := addr.extractLsb' 0 8

/-- `decomposeBlock(addr)`: bits 15..8. Always succeeds (R81). -/
def decomposeBlock (addr : Word) : BitVec 8 := addr.extractLsb' 8 8

/-- The raw drum field `addr >> 16`, bits 31..16 (R61, R82). -/
def rawDrum (addr : Word) : BitVec 16 := addr.extractLsb' 16 16

/-- `decomposeDrum(addr)`: the drum id, or none, `InvalidDrum`, when the raw field is above `MAX_DRUM` (R82). -/
def decomposeDrum (addr : Word) : Option (BitVec 4) :=
  if (rawDrum addr).toNat ≤ Config.maxDrum then some ((rawDrum addr).extractLsb' 0 4) else none

/-- `Decode(addr)`: the three functions together; none is `InvalidDrum` (R83). -/
def decodeAddress (addr : Word) : Option (BitVec 4 × BitVec 8 × BitVec 8) :=
  (decomposeDrum addr).map fun drum => (drum, decomposeBlock addr, decomposeOffset addr)

/-- The linear address of byte `offset` of a block: `drum * 65536 + block * 256 + offset` (R41, R46). -/
def linearAddress (drum : BitVec 4) (block : BitVec 8) (offset : Nat) : Nat :=
  drum.toNat * 65536 + block.toNat * 256 + offset

/-- The codes of `cmd` (R26, R67). -/
def Cmd.code : Cmd → BitVec 2
  | .mount => 0
  | .unmount => 1
  | .read => 2
  | .write => 3

/-- The command of a 2-bit code; all four are defined (R71). -/
def Cmd.ofCode (c : BitVec 2) : Cmd :=
  if c = 0 then .mount else if c = 1 then .unmount else if c = 2 then .read else .write

/-- Byte `i` of a buffer, `buf[i]` of R9 (used only with `i` in 0..255). -/
def byteAt (b : Block) (i : Nat) : Byte := b[i]?.getD 0

/-- `HostIn(i)`: the caller's byte at index `i` (R9, R34). Beyond the bytes the caller supplied it is a free
value: the caller has broken R198 and the block cannot know (U6; log entry 13). -/
def State.hostIn (s : State) (i : Nat) : Byte := s.host.inBuf[i]?.getD (Config.freeInByte s.draws i)

end Sys2Proof.Machine
end

