-- ==== Sys2Proof/Machine/Ops.lean ====
section
/-! DEFINITION. The named operations every meaning is built from: the device store and the `out` buffers, the end
of a command (completion and error entry), the device's side of an operation, and the gateway. -/

namespace Sys2Proof.Machine

/-! ## The device store and the caller's `out` buffers -/

/-- The entry at an address, if one is listed. -/
def lookupCell {α : Type} : List (Nat × α) → Nat → Option α
  | [], _ => none
  | (k, v) :: rest, a => if k = a then some v else lookupCell rest a

/-- One byte of the device store, `M[d][b][o]` by linear address (R41, R47). -/
def Memory.read (m : Memory) (a : Nat) : Byte := (lookupCell m a).getD Memory.unlisted

/-- The entries that hold bytes `data` from address `base` on: none for a byte an unlisted address reads as. -/
def Memory.cells (base : Nat) : List Byte → Memory
  | [] => []
  | v :: rest =>
    if v = Memory.unlisted then Memory.cells (base + 1) rest else (base, v) :: Memory.cells (base + 1) rest

/-- The store with the 256 bytes from `base` on replaced; "a block write always writes all 256 bytes" (R47, R98). -/
def Memory.writeBlock (m : Memory) (base : Nat) (data : Block) : Memory :=
  m.filter (fun c => c.1 < base) ++ Memory.cells base data.toList ++
    m.filter (fun c => base + Config.blockSize ≤ c.1)

/-- The 256 bytes from `base` on, offset 0 first (R44, R92 c). -/
def Memory.readBlock (m : Memory) (base : Nat) : Block := Vector.ofFn fun i => m.read (base + i.val)

/-- `HostOut(i) <- v`: one byte of an `out` buffer written (R9, R34). -/
def OutBuf.put : OutBuf → Nat → Byte → OutBuf
  | [], i, v => [(i, v)]
  | (k, u) :: rest, i, v =>
    if i < k then (i, v) :: (k, u) :: rest
    else if i = k then (i, v) :: rest
    else (k, u) :: OutBuf.put rest i v

/-- The byte delivered at an index of an `out` buffer; none is an untouched index. -/
def OutBuf.get (m : OutBuf) (i : Nat) : Option Byte := lookupCell m i

/-- Bytes delivered one by one at ascending indices from `i` on (R55, R127). -/
def OutBuf.deliver : List Byte → Nat → OutBuf → OutBuf
  | [], _, m => m
  | v :: rest, i, m => OutBuf.deliver rest (i + 1) (m.put i v)

/-- The `out` buffer of a name (R73). -/
def OutBuffers.find (bs : OutBuffers) (name : Nat) : OutBuf := (lookupCell bs name).getD []

/-- The `out` buffer of a name replaced; an untouched buffer is not listed. -/
def OutBuffers.set (bs : OutBuffers) (name : Nat) (m : OutBuf) : OutBuffers :=
  bs.filter (fun b => b.1 < name) ++ (if m = [] then [] else [(name, m)]) ++ bs.filter (fun b => name < b.1)

/-- The byte delivered at an index of the buffer of a name; none is an untouched index. -/
def OutBuffers.get (bs : OutBuffers) (name i : Nat) : Option Byte := (bs.find name).get i

/-- Bytes delivered to the buffer of a name, at ascending indices from `i` on; every other buffer stays (R55, R73,
R127). -/
def OutBuffers.deliver (bs : OutBuffers) (name : Nat) (bytes : List Byte) (i : Nat) : OutBuffers :=
  bs.set name ((bs.find name).deliver bytes i)

/-! ## Ending a command -/

/-- Every register but `st` and `status` unspecified (R37, R190): each takes a free value, and the draw is
counted. -/
def State.discardRegisters (s : State) : State :=
  { s with
    cmd := Cmd.ofCode (Config.freeCmd s.draws)
    len := Config.freeLen s.draws
    drum := Config.freeDrum s.draws
    block := Config.freeBlock s.draws
    count := Config.freeCount s.draws
    idx := BitVec.ofNat 9 (Config.freeIdx s.draws).val
    buf := Vector.ofFn fun i => Config.freeBufByte s.draws i.val
    draws := s.draws + 1 }

/-- The end of a command with a status: `status` written, `st <- IDLE`, `Completion` delivered (R165, R166), and
every other register of the block is unspecified from here on, after every command (R37, D16, U7; log entry 2). -/
def State.finish (s : State) (code : Status) : State :=
  { s.discardRegisters with status := code, st := .idle, trace := s.trace ++ [.completion code] }

/-- `complete OK` (R165). -/
def State.completeOk (s : State) : State := s.finish .ok

/-- `raise E`, the block's one trap entry (R166): nothing is saved, no mode changes, no vector is fetched, nothing
done before is undone. There is no return from it: the block is idle and the next command starts clean (R169). -/
def State.raise (s : State) (e : ErrorKind) : State := s.finish e.status

/-! ## The device -/

/-- The six operations a device knows (R65). -/
inductive DeviceOp where
  | mount | unmount | seekDrum | seekBlock | readBlock | writeBlock
deriving DecidableEq, Repr

/-- The operation a word asks for: the device looks at the opcode field alone (R47). None is a word the block
never emits (R70, U10). -/
def deviceOp (c : Config.Params) (w : Word) : Option DeviceOp :=
  if wordOpcode w = c.opcMount then some .mount
  else if wordOpcode w = c.opcUnmount then some .unmount
  else if wordOpcode w = c.opcSeekDrum then some .seekDrum
  else if wordOpcode w = c.opcSeekBlock then some .seekBlock
  else if wordOpcode w = c.opcReadBlock then some .readBlock
  else if wordOpcode w = c.opcWriteBlock then some .writeBlock
  else none

/-- The linear address of the block under the device cursor. -/
def Device.position (dev : Device) : Nat := linearAddress dev.drum dev.block 0

/-- What a successful operation does to the device (R47, R92): the drum comes from SEEK_DRUM words only, the block
from SEEK_BLOCK words only, and where R47 says "any value" the block position is drawn (R103, D18). The mount flag is the model's
reading of "mounted" (log entry 6). -/
def Device.succeed (dev : Device) (op : DeviceOp) (w : Word) (wdata : Block) (draw : Nat) : Device :=
  match op with
  | .mount => { dev with mounted := true }
  | .unmount => { dev with mounted := false }
  | .seekDrum => { dev with drum := wordDrum w, block := Config.freeHeadBlock draw }
  | .seekBlock => { dev with block := wordBlock w }
  | .readBlock => { dev with block := Config.freeHeadBlock draw }
  | .writeBlock =>
    { dev with store := dev.store.writeBlock dev.position wdata, block := Config.freeHeadBlock draw }

/-- What a failed operation does to the device (R153, U5): the block under a failed WRITE_BLOCK holds free bytes,
no other stored byte changes (R92 e), and the cursor, and the mount state where it was asked for, are free (log
entry 10). -/
def Device.fail (dev : Device) (op : DeviceOp) (draw : Nat) : Device :=
  let moved := { dev with drum := Config.freeHeadDrum draw, block := Config.freeHeadBlock draw }
  match op with
  | .mount | .unmount => { moved with mounted := Config.freeMounted draw }
  | .seekDrum | .seekBlock | .readBlock => moved
  | .writeBlock =>
    { moved with
      store := dev.store.writeBlock dev.position (Vector.ofFn fun i => Config.freeStoredByte draw i.val) }

/-- The status of the next operation and the answers after it; none when the device never answers (U9). With no
answer listed the device is the ideal one and answers 0 (R47; log entry 11). -/
def Device.nextAnswer (dev : Device) : Option (Nat × List Answer) :=
  match dev.answers with
  | [] => some (0, [])
  | .reply status :: rest => some (status, rest)
  | .never :: _ => none

/-! ## The gateway -/

/-- What comes of presenting a word at the gateway. -/
inductive Reply where
  /-- The device never answers. -/
  | silent
  /-- The word is none of the six operations. -/
  | foreign
  /-- Answered: whether the status was nonzero, `dev_rdata`, and the state with the device's part done. -/
  | answered (failed : Bool) (data : Block) (s : State)

/-- `dev_status` as the port carries it: `STATUS_W` bits, of which the block tests only `== 0` (R35, R91, D5). -/
def statusFailed (c : Config.Params) (status : Nat) : Bool := decide (BitVec.ofNat c.statusW status ≠ 0)

/-- The state after an answered operation: the device's part done, the transaction recorded (R35). The operation
itself leaves every register of the block alone (R101). -/
def State.operated (s : State) (w : Word) (kind : BufKind) (op : DeviceOp) (status : Nat) (rest : List Answer) :
    State :=
  { s with
    dev :=
      { (if statusFailed s.params status then s.dev.fail op s.draws else s.dev.succeed op w s.buf s.draws) with
        answers := rest }
    trace := s.trace ++ [.devOp w kind (if kind = .drain then some s.buf else none) status]
    draws := s.draws + 1 }

/-- `DevOp(word, b)` (R90): one blocking operation at the gateway. `data` is the block under the device cursor
(R92 c), meaningful only for READ_BLOCK answered with 0 (R35). -/
def State.devOp (s : State) (w : Word) (kind : BufKind) : Reply :=
  match deviceOp s.params w with
  | none => .foreign
  | some op =>
    match s.dev.nextAnswer with
    | none => .silent
    | some (status, rest) =>
      .answered (statusFailed s.params status) (s.dev.store.readBlock s.dev.position)
        (s.operated w kind op status rest)

/-- A step that issues a device operation: no answer leaves the block in the issuing state (U9; log entry 12); a nonzero status
raises `DeviceFailure` before anything else of the step is done (R31 `fail(s)`, R162); otherwise the step goes
on with the data read. A READ_BLOCK that failed leaves `buf` unspecified (R101), as the raise does. -/
def State.issue (s : State) (w : Word) (kind : BufKind) (go : Block → State → State) :
    Host.Outcome State Fault Refusal :=
  match s.devOp w kind with
  | .silent => .next s
  | .foreign => .refused .foreignWord
  | .answered true _ s' => .next (s'.raise .deviceFailure)
  | .answered false data s' => .next (go data s')

end Sys2Proof.Machine
end

