-- ==== Sys2Proof/Machine/Gateway.lean ====
section
/-! DEFINITION. The six device operation words (41_device_gateway.md). Each is issued from the FSM state that the
table R31 gives it and from no other (R102); its meaning is the row of R31 for that state. -/

namespace Sys2Proof.Machine

/-- MOUNT (R93), state `MNT`: word `Enc(OPC_MOUNT, 0, 0)`, no buffer; on success `complete OK`. -/
def execMount (s : State) : Host.Outcome State Fault Refusal :=
  match s.st with
  | .mnt => s.issue (encodeOperation s.params.opcMount 0 0) .noBuf fun _ t => t.completeOk
  | _ => .refused .notIssued

/-- UNMOUNT (R94), state `MNT`: word `Enc(OPC_UNMOUNT, 0, 0)`, no buffer; on success `complete OK`. -/
def execUnmount (s : State) : Host.Outcome State Fault Refusal :=
  match s.st with
  | .mnt => s.issue (encodeOperation s.params.opcUnmount 0 0) .noBuf fun _ t => t.completeOk
  | _ => .refused .notIssued

/-- SEEK_DRUM (R95), state `SEEKD`: no buffer; on success `st <- SEEKB`. -/
def execSeekDrum (drum : BitVec 4) (block : BitVec 8) (s : State) : Host.Outcome State Fault Refusal :=
  match s.st with
  | .seekD =>
    s.issue (encodeOperation s.params.opcSeekDrum drum block) .noBuf fun _ t => { t with st := .seekB }
  | _ => .refused .notIssued

/-- SEEK_BLOCK (R96), states `SEEKB` (then `RDBLK`) and `SEEKB2` (then `WRBLK`): no buffer. -/
def execSeekBlock (drum : BitVec 4) (block : BitVec 8) (s : State) : Host.Outcome State Fault Refusal :=
  match s.st with
  | .seekB =>
    s.issue (encodeOperation s.params.opcSeekBlock drum block) .noBuf fun _ t => { t with st := .rdblk }
  | .seekB2 =>
    s.issue (encodeOperation s.params.opcSeekBlock drum block) .noBuf fun _ t => { t with st := .wrblk }
  | _ => .refused .notIssued

/-- READ_BLOCK (R97), state `RDBLK`: the device fills the buffer, all 256 bytes; on success `st <- COPY`. -/
def execReadBlock (drum : BitVec 4) (block : BitVec 8) (s : State) : Host.Outcome State Fault Refusal :=
  match s.st with
  | .rdblk =>
    s.issue (encodeOperation s.params.opcReadBlock drum block) .fill fun data t =>
      { t with buf := data, st := .copy }
  | _ => .refused .notIssued

/-- WRITE_BLOCK (R98), state `WRBLK`: the device takes the buffer; on success `complete OK` if `count == len`,
else `st <- ADV` (R147). -/
def execWriteBlock (drum : BitVec 4) (block : BitVec 8) (s : State) : Host.Outcome State Fault Refusal :=
  match s.st with
  | .wrblk =>
    s.issue (encodeOperation s.params.opcWriteBlock drum block) .drain fun _ t =>
      if t.count = t.len then t.completeOk else { t with st := .adv }
  | _ => .refused .notIssued

end Sys2Proof.Machine
end

