-- ==== Sys2Proof/Machine/MountUnmount.lean ====
section
/-! DEFINITION. The host commands CMD_MOUNT and CMD_UNMOUNT (42_mount_unmount.md): their accept step, the first
row of R31. The one device operation that follows is MOUNT or UNMOUNT, issued from `MNT`. -/

namespace Sys2Proof.Machine

/-- The accept step of a mount or unmount: `cmd <- c`, `st <- MNT` (R31). The packet's address and length are not
examined (R113). -/
def State.acceptMount (s : State) (c : Cmd) (addr len : Word) : State :=
  { s with cmd := c, st := .mnt, trace := s.trace ++ [Event.command c addr len] }

/-- CMD_MOUNT (R110). Presented while busy it is not accepted and has no effect (R205). -/
def execCmdMount (addr len : Word) (s : State) : Host.Outcome State Fault Refusal :=
  if s.busy then .next s else .next (s.acceptMount .mount addr len)

/-- CMD_UNMOUNT (R111). Presented while busy it is not accepted and has no effect (R205). -/
def execCmdUnmount (addr len : Word) (s : State) : Host.Outcome State Fault Refusal :=
  if s.busy then .next s else .next (s.acceptMount .unmount addr len)

end Sys2Proof.Machine
end

