-- ==== Sys2Proof/Machine/RangeCommands.lean ====
section
/-! DEFINITION. The host commands CMD_READ and CMD_WRITE (43_range_read.md, 44_range_write.md): their accept step,
the `IDLE` rows of R31. What follows is the device operations of Gateway.lean and the internal steps of
Sequencer.lean; BigStep.lean has each command in one piece. -/

namespace Sys2Proof.Machine

/-- The cursor load of an accepted range (R123): `len`, `drum`, `block`, `idx <- zext_9(offset)`, `count <- 0`. -/
def State.loadCursor (s : State) (drum : BitVec 4) (block offset : BitVec 8) (len : Word) : State :=
  { s with
    len := len
    drum := drum
    block := block
    idx := offset.zeroExtend 9
    count := 0 }

/-- The accept step of a range command, its tests in R167's order: length zero is `OK` at once, whatever the
address (R121, R141, D11); an address above the array is `InvalidDrum` (R122, R142); otherwise the cursor is
loaded and the drum seek comes next (R123, R143). -/
def State.acceptRange (s : State) (c : Cmd) (addr len : Word) : State :=
  let s := { s with cmd := c, trace := s.trace ++ [Event.command c addr len] }
  if len = 0 then s.completeOk
  else
    match decodeAddress addr with
    | none => s.raise .invalidDrum
    | some (drum, block, offset) => { s.loadCursor drum block offset len with st := .seekD }

/-- CMD_READ (R120). Presented while busy it is not accepted and has no effect (R205). -/
def execCmdRead (addr len : Word) (s : State) : Host.Outcome State Fault Refusal :=
  if s.busy then .next s else .next (s.acceptRange .read addr len)

/-- CMD_WRITE (R140). Presented while busy it is not accepted and has no effect (R205). -/
def execCmdWrite (addr len : Word) (s : State) : Host.Outcome State Fault Refusal :=
  if s.busy then .next s else .next (s.acceptRange .write addr len)

end Sys2Proof.Machine
end

