-- ==== Sys2Proof/Machine/Dispatch.lean ====
section
/-! DEFINITION. The meaning of each instruction: one arm per row of spec/opcode_table.json. -/

namespace Sys2Proof.Machine

def exec (i : Instr) (s : State) : Host.Outcome State Fault Refusal :=
  match i with
  | .cmdMount addr len => Sys2Proof.Machine.execCmdMount addr len s
  | .cmdUnmount addr len => Sys2Proof.Machine.execCmdUnmount addr len s
  | .cmdRead addr len => Sys2Proof.Machine.execCmdRead addr len s
  | .cmdWrite addr len => Sys2Proof.Machine.execCmdWrite addr len s
  | .mount => Sys2Proof.Machine.execMount s
  | .unmount => Sys2Proof.Machine.execUnmount s
  | .seekDrum drum block => Sys2Proof.Machine.execSeekDrum drum block s
  | .seekBlock drum block => Sys2Proof.Machine.execSeekBlock drum block s
  | .readBlock drum block => Sys2Proof.Machine.execReadBlock drum block s
  | .writeBlock drum block => Sys2Proof.Machine.execWriteBlock drum block s

end Sys2Proof.Machine
end

