-- ==== Sys2Proof/Machine/Placing.lean ====
section
/-! DEFINITION. Placing an instruction so that the next step runs it. The block fetches nothing (R28): a command
comes from the host, an operation word is assembled in the FSM state that issues it, so placing one means
bringing the machine to that point (log entry 7). -/

namespace Sys2Proof.Machine

/-- A packet as the host's first call, with the block idle so that it is accepted (R196). -/
def State.placePacket (s : State) (p : Packet) : State :=
  { s with
    resetLine := false
    st := .idle
    host := { s.host with calls := ⟨p, s.host.inBuf, s.host.outName⟩ :: s.host.calls.tail } }

/-- The command register for a state of a range command: kept if it holds one, else CMD_READ. -/
def Cmd.forRange : Cmd → Cmd
  | .write => .write
  | .read | .mount | .unmount => .read

/-- The FSM state that issues an operation, with the cursor its word carries (R99, R102). A host command is
issued by no state. -/
def State.placeOperation (s : State) (i : Instr) : State :=
  match i with
  | .mount => { s with resetLine := false, st := .mnt, cmd := .mount }
  | .unmount => { s with resetLine := false, st := .mnt, cmd := .unmount }
  | .seekDrum drum block =>
    { s with resetLine := false, st := .seekD, cmd := s.cmd.forRange, drum := drum, block := block }
  | .seekBlock drum block =>
    { s with
      resetLine := false
      st := if s.st = .seekB2 then .seekB2 else .seekB
      cmd := if s.st = .seekB2 then .write else s.cmd.forRange
      drum := drum
      block := block }
  | .readBlock drum block =>
    { s with resetLine := false, st := .rdblk, cmd := s.cmd.forRange, drum := drum, block := block }
  | .writeBlock drum block =>
    { s with resetLine := false, st := .wrblk, cmd := .write, drum := drum, block := block }
  | .cmdMount _ _ | .cmdUnmount _ _ | .cmdRead _ _ | .cmdWrite _ _ => s

/-- The instruction of bits `w` of a table row placed for the next step; bits that are no instruction are not. -/
def State.place (s : State) (nbits w : Nat) : State :=
  match frameOfBits nbits w with
  | .ok (.packet p) => s.placePacket p
  | .ok (.word w) =>
    match decodeWord s.params w with
    | .ok i => s.placeOperation i
    | .error _ => s
  | .error _ => s

end Sys2Proof.Machine
end

