-- ==== Sys2Proof/Machine/Sequencer.lean ====
section
/-! DEFINITION. The block-sequence FSM beside its device operations (10_state.md R31): which operation a state
issues, the internal states `COPY` and `ADV`, the host's next call, and reset. -/

namespace Sys2Proof.Machine

/-! ## COPY -/

/-- `n = min(256 - idx, len - count)` (R127, R145). -/
def State.copyLength (s : State) : Nat :=
  min (Config.blockSize - s.idx.toNat) (s.len.toNat - s.count.toNat)

/-- `idx <- idx + n`; `count <- count + n`, the end of either copy. -/
def State.bumpCursor (s : State) : State :=
  { s with idx := s.idx + BitVec.ofNat 9 s.copyLength, count := s.count + BitVec.ofNat 32 s.copyLength }

/-- The bytes a read copies: `buf[idx + k]` for `k` = 0 .. n-1 (R127). -/
def State.outgoing (s : State) : List Byte :=
  (List.range s.copyLength).map fun k => byteAt s.buf (s.idx.toNat + k)

/-- The bytes a write copies: `HostIn(count + k)` for `k` = 0 .. n-1 (R145). -/
def State.incoming (s : State) : List Byte :=
  (List.range s.copyLength).map fun k => s.hostIn (s.count.toNat + k)

/-- Transactions at the caller's buffer, one per byte, at ascending indices from `count` on (R55). -/
def hostEvents (event : Word → Byte → Event) (count : Word) (bytes : List Byte) : List Event :=
  bytes.mapIdx fun k v => event (count + BitVec.ofNat 32 k) v

/-- The copy of a read (R127): `HostOut(count + k) <- buf[idx + k]`, in the buffer the call named (R73). -/
def State.copyOut (s : State) : State :=
  { s.bumpCursor with
    host := { s.host with outs := s.host.outs.deliver s.host.outName s.outgoing s.count.toNat }
    trace := s.trace ++ hostEvents .outByte s.count s.outgoing }

/-- The copy of a write (R145): `buf[idx + k] <- HostIn(count + k)`; every other byte of `buf` stays. -/
def State.copyIn (s : State) : State :=
  { s.bumpCursor with
    buf := Vector.ofFn fun i =>
      if s.idx.toNat ≤ i.val then (s.incoming[i.val - s.idx.toNat]?).getD s.buf[i] else s.buf[i]
    trace := s.trace ++ hostEvents .inByte s.count s.incoming }

/-- State `COPY` (R31). A read that is done completes with `OK` and does not advance (R128); a write goes on to
its write-back. -/
def State.copyStep (s : State) : Host.Outcome State Fault Refusal :=
  if Config.blockSize < s.idx.toNat ∨ s.len.toNat < s.count.toNat then .fault .cursorOutOfBounds
  else
    match s.cmd with
    | .read =>
      .next (if s.copyOut.count = s.copyOut.len then s.copyOut.completeOk else { s.copyOut with st := .adv })
    | .write => .next { s.copyIn with st := .seekB2 }
    | .mount | .unmount => .fault .noTransition

/-! ## ADV -/

/-- State `ADV`, the cursor advance shared by both range commands (R129): the next block, or block 0 of the next
drum, or `OutOfRange` past drum 15. -/
def State.advStep (s : State) : State :=
  if s.block ≠ 255 then { s with block := s.block + 1, idx := 0, st := .seekB }
  else if s.drum ≠ 15 then { s with block := 0, drum := s.drum + 1, idx := 0, st := .seekD }
  else s.raise .outOfRange

/-- The states that issue no device operation: with no command presented `IDLE` does nothing (R31). -/
def State.internalStep (s : State) : Host.Outcome State Fault Refusal :=
  match s.st with
  | .copy => s.copyStep
  | .adv => .next s.advStep
  | .idle | .mnt | .seekD | .seekB | .rdblk | .seekB2 | .wrblk => .next s

/-! ## What comes next -/

/-- The operation an FSM state issues: `MNT` by `cmd`, the others with the block cursor in both fields at the
moment of issue (R31, R99, R102). -/
def State.issued (s : State) : Option Instr :=
  match s.st with
  | .mnt => some (if s.cmd = .mount then .mount else .unmount)
  | .seekD => some (.seekDrum s.drum s.block)
  | .seekB | .seekB2 => some (.seekBlock s.drum s.block)
  | .rdblk => some (.readBlock s.drum s.block)
  | .wrblk => some (.writeBlock s.drum s.block)
  | .idle | .copy | .adv => none

/-- The host's call taken from the port (log entry 13): its operands `in` and `out` are the running ones and the next
call stands behind it (R34, R73). -/
def State.takeCall (s : State) (c : Call) (rest : List Call) : State :=
  { s with host := { s.host with calls := rest, inBuf := c.inBuf, outName := c.out } }

/-- The instruction of the coming step and the state it runs in: in `IDLE` the host's next call (a command is
accepted only there, R196, R205), in an issuing state the operation of R31; none where the step is internal. -/
def State.fetch (s : State) : Option (Instr × State) :=
  match s.st with
  | .idle =>
    match s.host.calls with
    | [] => none
    | c :: rest => some (decodePacket c.packet, s.takeCall c rest)
  | .copy | .adv => none
  | .mnt | .seekD | .seekB | .rdblk | .seekB2 | .wrblk => s.issued.map fun i => (i, s)

/-! ## Reset -/

/-- The device after a reset of the block with an operation in flight: it may or may not have been issued, and may
or may not have taken effect (R191, U13; log entry 15). Reset itself does not touch the device (R36). -/
def State.deviceAfterReset (s : State) : Device :=
  match s.issued.map (encode s.params) with
  | some (.word w) =>
    match deviceOp s.params w with
    | some op =>
      if Config.resetWasIssued s.draws then
        { (if Config.resetWasDone s.draws then s.dev.succeed op w s.buf s.draws else s.dev.fail op s.draws) with
          answers := s.dev.answers.tail }
      else s.dev
    | none => s.dev
  | _ => s.dev

/-- Reset (R190, R191): `st <- IDLE`, `status <- 0`, everything else in the block unspecified, a running command
abandoned without `Completion`; the line is released. -/
def State.takeReset (s : State) : State :=
  { s.discardRegisters with
    status := .ok
    st := .idle
    dev := s.deviceAfterReset
    trace := s.trace ++ [.reset]
    resetLine := false }

end Sys2Proof.Machine
end

