-- ==== Sys2Proof/Machine/Step.lean ====
section
/-! DEFINITION. One step of the machine, one row of R31, and how an instruction is put where the next step takes
it from. -/

namespace Sys2Proof.Machine

/-- One step: reset if its line is asserted (R191); else the instruction that the FSM state takes (R31), or the
state's internal step. -/
def step (s : State) : Host.Outcome State Fault Refusal :=
  if s.resetLine then .next s.takeReset
  else
    match s.fetch with
    | some (i, t) => exec i t
    | none => s.internalStep

/-- `s` with the instruction of bits `w` where the next step takes it from (log entry 7): a packet as the host's
first call, with the block idle; an operation word as the one its FSM state issues, with the cursor its fields
carry. Bits that are no instruction are placed nowhere. -/
def State.withFetchWord (s : State) (nbits w : Nat) : State := s.place nbits w

end Sys2Proof.Machine
end

