-- ==== Sys2Proof/Machine/BigStep.lean ====
section
/-! DEFINITION. Each command in one piece: the big-step rules R110, R111, R130 and R148. The machine runs the FSM
(R31); R10 says that the two are the same behaviour, and the statements say so of these definitions. -/

namespace Sys2Proof.Machine

/-- How far a command in one piece has come. -/
inductive Run where
  /-- It ended, with `complete OK` or `raise`, in this state. -/
  | ended (s : State)
  /-- It goes on. -/
  | going (s : State)
  /-- The device does not answer: it never ends (U9). -/
  | hung (s : State)
deriving DecidableEq, Repr

/-- What follows, if the command goes on: "`raise` and `complete` end the command where they stand" (R130). -/
def Run.andThen (r : Run) (go : State → Run) : Run :=
  match r with
  | .ended s => .ended s
  | .going s => go s
  | .hung s => .hung s

/-- `(s, data) = DevOp(...)`; `if s != 0 then raise DeviceFailure`; and `buf <- data` when the buffer was filled. -/
def State.operate (s : State) (w : Word) (kind : BufKind) : Run :=
  match s.devOp w kind with
  | .silent => .hung s
  | .foreign => .hung s
  | .answered true _ t => .ended (t.raise .deviceFailure)
  | .answered false data t => .going (if kind = .fill then { t with buf := data } else t)

/-- SEEK_DRUM with the cursor. -/
def State.operateSeekDrum (s : State) : Run :=
  s.operate (encodeOperation s.params.opcSeekDrum s.drum s.block) .noBuf

/-- SEEK_BLOCK with the cursor. -/
def State.operateSeekBlock (s : State) : Run :=
  s.operate (encodeOperation s.params.opcSeekBlock s.drum s.block) .noBuf

/-- READ_BLOCK with the cursor. -/
def State.operateReadBlock (s : State) : Run :=
  s.operate (encodeOperation s.params.opcReadBlock s.drum s.block) .fill

/-- WRITE_BLOCK with the cursor. -/
def State.operateWriteBlock (s : State) : Run :=
  s.operate (encodeOperation s.params.opcWriteBlock s.drum s.block) .drain

/-- The tail of either loop: the cursor to the next block, or to the next drum with a SEEK_DRUM, or `OutOfRange`
(R129, R130, R148); then `idx <- 0` and `again`. -/
def State.operateAdvance (s : State) (again : State → Run) : Run :=
  if s.block ≠ 255 then again { s with block := s.block + 1, idx := 0 }
  else if s.drum ≠ 15 then
    ({ s with block := 0, drum := s.drum + 1 } : State).operateSeekDrum.andThen fun t => again { t with idx := 0 }
  else .ended (s.raise .outOfRange)

/-- The loop of CMD_READ (R130), one block per turn; the array has 4096, so as much fuel is never used up. -/
def readLoop : Nat → State → Run
  | 0, s => .hung s
  | fuel + 1, s =>
    s.operateSeekBlock.andThen fun s =>
    s.operateReadBlock.andThen fun s =>
    if s.copyOut.count = s.copyOut.len then .ended s.copyOut.completeOk
    else s.copyOut.operateAdvance (readLoop fuel)

/-- The loop of CMD_WRITE (R148). -/
def writeLoop : Nat → State → Run
  | 0, s => .hung s
  | fuel + 1, s =>
    s.operateSeekBlock.andThen fun s =>
    s.operateReadBlock.andThen fun s =>
    s.copyIn.operateSeekBlock.andThen fun s =>
    s.operateWriteBlock.andThen fun s =>
    if s.count = s.len then .ended s.completeOk else s.operateAdvance (writeLoop fuel)

/-- A range command up to its loop: the zero-length and address tests, the cursor load and the first SEEK_DRUM. -/
def State.bigRange (s : State) (c : Cmd) (addr len : Word) (loop : State → Run) : Run :=
  let s := { s with cmd := c, trace := s.trace ++ [Event.command c addr len] }
  if len = 0 then .ended s.completeOk
  else
    match decodeAddress addr with
    | none => .ended (s.raise .invalidDrum)
    | some (drum, block, offset) =>
      ({ s.loadCursor drum block offset len with st := .seekD } : State).operateSeekDrum.andThen loop

/-- `READ(addr, length)` of R130. -/
def bigRead (addr len : Word) (s : State) : Run := s.bigRange .read addr len (readLoop 4096)

/-- `WRITE(addr, length)` of R148. -/
def bigWrite (addr len : Word) (s : State) : Run := s.bigRange .write addr len (writeLoop 4096)

/-- CMD_MOUNT of R110. -/
def bigMount (addr len : Word) (s : State) : Run :=
  ((s.acceptMount .mount addr len).operate (encodeOperation s.params.opcMount 0 0) .noBuf).andThen fun t =>
    .ended t.completeOk

/-- CMD_UNMOUNT of R111. -/
def bigUnmount (addr len : Word) (s : State) : Run :=
  ((s.acceptMount .unmount addr len).operate (encodeOperation s.params.opcUnmount 0 0) .noBuf).andThen fun t =>
    .ended t.completeOk

end Sys2Proof.Machine
end

