-- ==== Sys2Proof/Safety.lean ====
section
/-! DEFINITION. The terms statements are made in: runs, what an observer sees, the FSM's invariants (R38), the
seek discipline (R100), and the shape of a command's trace (R131, R149). -/

namespace Sys2Proof.Machine

/-! ## Runs -/

/-- `k` steps, stopping at the first fault or refusal. -/
def runSteps : Nat → State → Host.Outcome State Fault Refusal
  | 0, s => .next s
  | k + 1, s =>
    match step s with
    | .next t => runSteps k t
    | .fault f => .fault f
    | .refused r => .refused r

/-- Some number of steps leads from `s` to `t`. -/
def Reaches (s t : State) : Prop := ∃ k, runSteps k s = .next t

/-- The device answers every operation it is given from here on (R133: "provided the device answers each one"). -/
def State.responsive (s : State) : Prop := Answer.never ∉ s.dev.answers

/-- The device is the ideal one from here on: it answers 0 to everything (R47). -/
def State.ideal (s : State) : Prop := s.dev.answers = []

/-! ## What an observer sees -/

/-- The words of the device operations in a trace, in issue order. -/
def devWords (trace : List Event) : List Word :=
  trace.filterMap fun e => match e with | .devOp w _ _ _ => some w | _ => none

/-- The byte of the device store at a virtual address, `MemRead(va, 1)` (R48). -/
def State.storeByte (s : State) (va : Nat) : Byte := s.dev.store.read va

/-- The states agree in all but the registers that R37 says carry nothing from one command to the next. -/
def SameOutside (s t : State) : Prop :=
  s.st = t.st ∧ s.status = t.status ∧ s.params = t.params ∧ s.dev = t.dev ∧ s.host = t.host ∧
    s.resetLine = t.resetLine ∧ s.trace = t.trace ∧ s.draws = t.draws

/-- The state with the device's mount flag at a value (R32, R33). -/
def State.withMounted (s : State) (m : Bool) : State := { s with dev := { s.dev with mounted := m } }

/-- The outcomes are the same but for the device's mount flag. -/
def SameButMounted : Host.Outcome State Fault Refusal → Host.Outcome State Fault Refusal → Prop
  | .next s, .next t => ∃ m, t = s.withMounted m
  | .fault f, .fault g => f = g
  | .refused r, .refused q => r = q
  | .next _, .fault _ | .next _, .refused _ | .fault _, .next _ | .fault _, .refused _
  | .refused _, .next _ | .refused _, .fault _ => False

/-! ## The FSM's invariants -/

/-- `cmd` is a range command. -/
def State.isRange (s : State) : Prop := s.cmd = .read ∨ s.cmd = .write

/-- `pos + idx == a + count`, with `pos = drum * 65536 + block * 256` (R38 I1). -/
def CursorAt (a : Nat) (s : State) : Prop :=
  linearAddress s.drum s.block 0 + s.idx.toNat = a + s.count.toNat

/-- R38 for a running command accepted with start address `a`: (I1) in `SEEKD`, `SEEKB`, `RDBLK` and on entry to
`COPY`, (I2) on entry to `SEEKB2`, `WRBLK`, (I3) on entry to `ADV`. -/
def Running (a : Nat) (s : State) : Prop :=
  match s.st with
  | .idle => True
  | .mnt => s.cmd = .mount ∨ s.cmd = .unmount
  | .seekD | .seekB | .rdblk | .copy =>
    s.isRange ∧ s.count.toNat < s.len.toNat ∧ s.idx.toNat ≤ 255 ∧ CursorAt a s ∧
      (s.count = 0 → s.idx.toNat = a % 256) ∧ (s.count ≠ 0 → s.idx = 0)
  | .seekB2 | .wrblk =>
    s.cmd = .write ∧ s.count.toNat ≤ s.len.toNat ∧ s.idx.toNat ≤ 256 ∧
      (s.idx.toNat = 256 ∨ s.count = s.len) ∧ CursorAt a s
  | .adv => s.isRange ∧ s.count.toNat < s.len.toNat ∧ s.idx.toNat = 256 ∧ CursorAt a s

/-- The FSM's invariant: legal parameters, and some valid start address whose command is running. -/
def FsmInv (s : State) : Prop := s.params.wf = true ∧ ∃ a, a < Config.capacity ∧ Running a s

/-- The device store and the `out` buffers keep their canonical forms. -/
def MemoryInv (s : State) : Prop := s.dev.store.wf ∧ s.host.outs.wf

/-- The device stands where the block takes it to be: on drum `drum` once that was sought, on block `block` when a
transfer comes next (R92, R100, R146). -/
def HeadInv (s : State) : Prop :=
  match s.st with
  | .idle | .mnt | .seekD => True
  | .seekB | .copy | .seekB2 | .adv => s.dev.drum = s.drum
  | .rdblk | .wrblk => s.dev.drum = s.drum ∧ s.dev.block = s.block

/-! ## The seek discipline -/

/-- What a SEEK_DRUM's effect does not outlast: the next SEEK_DRUM, a MOUNT or UNMOUNT, the next command. -/
def Event.repositions (p : Config.Params) : Event → Prop
  | .devOp w _ _ _ => wordOpcode w = p.opcSeekDrum ∨ wordOpcode w = p.opcMount ∨ wordOpcode w = p.opcUnmount
  | .command _ _ _ => True
  | .inByte _ _ | .outByte _ _ | .completion _ | .reset => False

/-- A device operation or a command. -/
def Event.starts : Event → Prop
  | .devOp _ _ _ _ | .command _ _ _ => True
  | .inByte _ _ | .outByte _ _ | .completion _ | .reset => False

/-- The most recent SEEK_DRUM of the running command was for drum `d`, with no MOUNT or UNMOUNT since. -/
def DrumSought (p : Config.Params) (trace : List Event) (d : BitVec 4) : Prop :=
  ∃ before w kind data status since, trace = before ++ .devOp w kind data status :: since ∧
    wordOpcode w = p.opcSeekDrum ∧ wordDrum w = d ∧ ∀ e ∈ since, ¬ e.repositions p

/-- The last transaction was a SEEK_BLOCK with these fields. -/
def BlockSought (p : Config.Params) (trace : List Event) (d : BitVec 4) (b : BitVec 8) : Prop :=
  ∃ before kind data status, trace = before ++ [.devOp (encodeOperation p.opcSeekBlock d b) kind data status]

/-- R100: (a) every READ_BLOCK and WRITE_BLOCK is immediately preceded by a SEEK_BLOCK with the same fields; (b)
every SEEK_BLOCK carries the drum of the most recent SEEK_DRUM of its command; (c) the first device operation of a
range command is a SEEK_DRUM. -/
def Disciplined (p : Config.Params) (trace : List Event) : Prop :=
  ∀ before w kind data status after, trace = before ++ .devOp w kind data status :: after →
    (wordOpcode w = p.opcReadBlock ∨ wordOpcode w = p.opcWriteBlock →
      BlockSought p before (wordDrum w) (wordBlock w)) ∧
    (wordOpcode w = p.opcSeekBlock → DrumSought p before (wordDrum w)) ∧
    ∀ earlier c addr len since, before = earlier ++ .command c addr len :: since →
      c = .read ∨ c = .write → (∀ e ∈ since, ¬ e.starts) → wordOpcode w = p.opcSeekDrum

/-- The trace is disciplined so far, and it is what the FSM state takes it to be. -/
def SeekInv (s : State) : Prop :=
  Disciplined s.params s.trace ∧
    match s.st with
    | .idle | .seekD => True
    | .mnt => ∃ before c addr len, s.trace = before ++ [.command c addr len] ∧ (c = .mount ∨ c = .unmount)
    | .seekB | .copy | .seekB2 | .adv => DrumSought s.params s.trace s.drum
    | .rdblk | .wrblk => DrumSought s.params s.trace s.drum ∧ BlockSought s.params s.trace s.drum s.block

/-! ## The transactions of a running command -/

/-- The index of a byte moved to or from the caller's buffer. -/
def hostIndex : Event → Option Word
  | .inByte i _ | .outByte i _ => some i
  | .command _ _ _ | .devOp _ _ _ _ | .completion _ | .reset => none

/-- What a running command's transactions may be: bytes, and device operations answered with 0 (R168). -/
def Event.goesOn (p : Config.Params) : Event → Prop
  | .devOp _ _ _ status => statusFailed p status = false
  | .inByte _ _ | .outByte _ _ => True
  | .command _ _ _ | .completion _ | .reset => False

/-- While a command runs, its transactions so far are device operations answered with 0 and the bytes of the indices
0, 1, .., `count` - 1 in this order, each once (R55, R168). -/
def TraceInv (s : State) : Prop :=
  s.st ≠ .idle →
    ∃ before addr len since, s.trace = before ++ .command s.cmd addr len :: since ∧
      (∀ e ∈ since, e.goesOn s.params) ∧
      since.filterMap hostIndex =
        if s.st = .mnt then [] else (List.range s.count.toNat).map (BitVec.ofNat 32)

/-! ## The shape of a trace -/

/-- A word for linear block `B`, fields (`B >> 8`, `B & 255`) (R131). -/
def blockWord (opcode : BitVec 6) (B : Nat) : Word :=
  encodeOperation opcode (BitVec.ofNat 4 (B / 256)) (BitVec.ofNat 8 (B % 256))

/-- The device operations of a range command over blocks `B0 .. B0 + n - 1` after its first SEEK_DRUM: for each
block `perBlock`, with an extra SEEK_DRUM before every later block that begins a drum (R131, R149). -/
def blockWords (p : Config.Params) (perBlock : Nat → List Word) (B0 n : Nat) : List Word :=
  (List.range n).flatMap fun k =>
    (if 0 < k ∧ (B0 + k) % 256 = 0 then [blockWord p.opcSeekDrum (B0 + k)] else []) ++ perBlock (B0 + k)

/-- The trace of a read over `n` blocks from `B0` (R131). -/
def readWords (p : Config.Params) (B0 n : Nat) : List Word :=
  blockWord p.opcSeekDrum B0 ::
    blockWords p (fun B => [blockWord p.opcSeekBlock B, blockWord p.opcReadBlock B]) B0 n

/-- The trace of a write over `n` blocks from `B0` (R149). -/
def writeWords (p : Config.Params) (B0 n : Nat) : List Word :=
  blockWord p.opcSeekDrum B0 ::
    blockWords p
      (fun B => [blockWord p.opcSeekBlock B, blockWord p.opcReadBlock B,
        blockWord p.opcSeekBlock B, blockWord p.opcWriteBlock B]) B0 n

/-- The blocks a range touches: `(addr + length - 1) >> 8` minus `addr >> 8` plus 1 inside the array, all the rest
of the array when the range runs past its end (R131). -/
def blocksTouched (a l : Nat) : Nat :=
  (if a + l ≤ Config.capacity then (a + l - 1) / 256 else 4095) - a / 256 + 1

end Sys2Proof.Machine
end

