-- ==== Sys2Proof/Certificates/Slice0/Obligations.lean ====
section
/-! DEFINITION. The statements about the model, each from the rules it names. Where the spec leaves a value
unspecified a statement says `x := t.x`: the next state `t` holds some value there, and nothing is said of it. -/

open Sys2Proof Sys2Proof.Machine

/-! ## The codec -/

/-- R80, R81: the two decoder functions that never fail are the source's masks. -/
def Obligations.OffsetAndBlockAreMasks : Prop :=
  ∀ addr : Word,
    (decomposeOffset addr).zeroExtend 32 = addr &&& 0xFF ∧
    (decomposeBlock addr).zeroExtend 32 = (addr &&& 0x0000FF00) >>> 8

/-- R82: the drum is `addr >> 16`, and `InvalidDrum` is reported exactly when that is above 15, that is when
`addr[31:20] != 0`. -/
def Obligations.DecomposeDrumRange : Prop :=
  ∀ addr : Word,
    decomposeDrum addr =
      (if (addr >>> 16).toNat ≤ 15 then some (BitVec.ofNat 4 (addr >>> 16).toNat) else none) ∧
    (decomposeDrum addr = none ↔ addr.extractLsb' 20 12 ≠ 0)

/-- R83: `Decode` is a bijection between the valid addresses and the triples, with the linear address as its
inverse; it fails on every other address. -/
def Obligations.DecodeAddressBijective : Prop :=
  (∀ d b o, decodeAddress (BitVec.ofNat 32 (linearAddress d b o.toNat)) = some (d, b, o)) ∧
  (∀ addr d b o, decodeAddress addr = some (d, b, o) → addr.toNat = linearAddress d b o.toNat) ∧
  ∀ addr, decodeAddress addr = none ↔ addr.extractLsb' 20 12 ≠ 0

/-- R63, R84: the encoder's formula is the concatenation `opcode ++ drumId ++ 0[13:0] ++ blockId`. -/
def Obligations.OperationWordIsConcatenation : Prop :=
  ∀ (opc : BitVec 6) (d : BitVec 4) (b : BitVec 8),
    encodeOperation opc d b = (opc.zeroExtend 32 <<< 26) ||| (d.zeroExtend 32 <<< 22) ||| b.zeroExtend 32 ∧
    encodeOperation opc d b = (opc ++ d ++ (0 : BitVec 14) ++ b : BitVec (6 + 4 + 14 + 8))

/-- R85: the (drum, block) pair that went into an address comes out of the operation word unchanged. -/
def Obligations.AddressToWordRoundTrip : Prop :=
  ∀ (opc : BitVec 6) (d : BitVec 4) (b o : BitVec 8) (addr : Word),
    addr = BitVec.ofNat 32 (d.toNat * 65536 + b.toNat * 256 + o.toNat) →
    decomposeDrum addr = some d ∧ decomposeBlock addr = b ∧ decomposeOffset addr = o ∧
      ∀ w, w = encodeOperation opc d (decomposeBlock addr) →
        w.extractLsb' 22 4 = d ∧ w.extractLsb' 0 8 = b ∧ w.extractLsb' 26 6 = opc ∧ w.extractLsb' 8 14 = 0

/-- Decoding the encoding of a well-formed instruction gives it back: every instruction, every operand, every
choice of distinct opcodes. -/
def Obligations.DecodeEncodeAgree : Prop :=
  ∀ (c : Config.Params) (i : Instr), i.wellFormed c = true → decode c (encode c i) = .ok i

/-- Each frame has one meaning: what decodes to an instruction is that instruction's encoding. -/
def Obligations.EncodeDecodeAgree : Prop :=
  ∀ (c : Config.Params) (f : Frame) (i : Instr), decode c f = .ok i → encode c i = f

/-- R70, R71: a packet is always a command; a word is an operation exactly when bits 21..8 are zero, its opcode is
one of the six, and a MOUNT or UNMOUNT has zero fields. (That the decoder refuses every other word is the model's
choice, log entry 9: the spec says only that the block emits none.) -/
def Obligations.WhatDecodes : Prop :=
  ∀ c : Config.Params,
    (∀ p : Packet, ∃ i, decode c (.packet p) = .ok i) ∧
    ∀ w : Word, (∃ i, decode c (.word w) = .ok i) ↔
      w.extractLsb' 8 14 = 0 ∧ w.extractLsb' 26 6 ∈ c.opcodes ∧
        (w.extractLsb' 26 6 = c.opcMount ∨ w.extractLsb' 26 6 = c.opcUnmount →
          w.extractLsb' 22 4 = 0 ∧ w.extractLsb' 0 8 = 0)

/-- Words and packets of 95_test_vectors.md (V-ENC, M4, and the packets of P1) under the default opcode numbers. The
word `0x0C000100`, with bit 8 set, is no vector: R70 says that the block emits no such word, and refusing it is the
model's choice (U10, log entry 9). -/
def Obligations.SpecWordsDecode : Prop :=
  decodeTableWord 32 0x04000000 = some .unmount ∧
  decodeTableWord 32 0x08C00012 = some (.seekDrum 3 0x12) ∧
  decodeTableWord 32 0x0FC000FF = some (.seekBlock 15 0xFF) ∧
  decodeTableWord 32 0x10C00012 = some (.readBlock 3 0x12) ∧
  decodeTableWord 32 0x16000001 = some (.writeBlock 8 0x01) ∧
  decodeTableWord 32 0x0C000100 = none ∧
  decodeTableWord 72 0x0FFFFFFFF00000007 = some (.cmdMount 0xFFFFFFFF 7) ∧
  decodeTableWord 72 0x3000001FC00000008 = some (.cmdWrite 0x1FC 8) ∧
  decodeTableWord 72 0x2000001F800000010 = some (.cmdRead 0x1F8 16)

/-! ## The host commands: the accept step -/

/-- R31 (first row), R113: CMD_MOUNT and CMD_UNMOUNT in `IDLE` load `cmd` and go to `MNT`, whatever their address
and length; nothing else changes. -/
def Obligations.MountCommandsAccepted : Prop :=
  ∀ (s : State) (addr len : Word), s.st = .idle →
    exec (.cmdMount addr len) s =
      .next { s with cmd := .mount, st := .mnt, trace := s.trace ++ [.command .mount addr len] } ∧
    exec (.cmdUnmount addr len) s =
      .next { s with cmd := .unmount, st := .mnt, trace := s.trace ++ [.command .unmount addr len] }

/-- R123, R143: a range command with nonzero length and a valid address loads the cursor and goes to `SEEKD`;
nothing else changes. -/
def Obligations.RangeCommandsLoadCursor : Prop :=
  ∀ (s : State) (addr len : Word), s.st = .idle → len ≠ 0 → addr.extractLsb' 20 12 = 0 →
    exec (.cmdRead addr len) s =
      .next { s with
        cmd := .read, len := len, drum := addr.extractLsb' 16 4, block := addr.extractLsb' 8 8,
        idx := (addr.extractLsb' 0 8).zeroExtend 9, count := 0, st := .seekD,
        trace := s.trace ++ [.command .read addr len] } ∧
    exec (.cmdWrite addr len) s =
      .next { s with
        cmd := .write, len := len, drum := addr.extractLsb' 16 4, block := addr.extractLsb' 8 8,
        idx := (addr.extractLsb' 0 8).zeroExtend 9, count := 0, st := .seekD,
        trace := s.trace ++ [.command .write addr len] }

/-- R121, R141: a range command of length zero completes at once with `OK`, whatever its address: no device
operation, no byte of `out`, no `InByte`, the device and the host untouched. Nothing is said of the registers but `st`
and `status`, which are unspecified from here on (R37, D16, U7; log entry 2). -/
def Obligations.ZeroLengthCompletes : Prop :=
  ∀ (s : State) (addr : Word), s.st = .idle →
    (∃ t, exec (.cmdRead addr 0) s = .next t ∧
      t = { s with
        status := .ok, cmd := t.cmd, len := t.len, drum := t.drum, block := t.block, count := t.count,
        idx := t.idx, buf := t.buf, draws := t.draws,
        trace := s.trace ++ [.command .read addr 0, .completion .ok] }) ∧
    ∃ t, exec (.cmdWrite addr 0) s = .next t ∧
      t = { s with
        status := .ok, cmd := t.cmd, len := t.len, drum := t.drum, block := t.block, count := t.count,
        idx := t.idx, buf := t.buf, draws := t.draws,
        trace := s.trace ++ [.command .write addr 0, .completion .ok] }

/-- R122, R142: a range command of nonzero length whose address is above the array ends with `InvalidDrum` in the
accept step; no device operation, no byte of `out`, no `InByte`. Nothing is said of the registers but `st` and
`status`, which are unspecified from here on (R166, R37). -/
def Obligations.InvalidDrumRaised : Prop :=
  ∀ (s : State) (addr len : Word), s.st = .idle → len ≠ 0 → addr.extractLsb' 20 12 ≠ 0 →
    (∃ t, exec (.cmdRead addr len) s = .next t ∧
      t = { s with
        status := .invalidDrum, cmd := t.cmd, len := t.len, drum := t.drum, block := t.block, count := t.count,
        idx := t.idx, buf := t.buf, draws := t.draws,
        trace := s.trace ++ [.command .read addr len, .completion .invalidDrum] }) ∧
    ∃ t, exec (.cmdWrite addr len) s = .next t ∧
      t = { s with
        status := .invalidDrum, cmd := t.cmd, len := t.len, drum := t.drum, block := t.block, count := t.count,
        idx := t.idx, buf := t.buf, draws := t.draws,
        trace := s.trace ++ [.command .write addr len, .completion .invalidDrum] }

/-- R205: a command presented while busy has no effect, and no step of a busy block takes a call from the host. -/
def Obligations.BusyBlockTakesNoCommand : Prop :=
  ∀ s : State, s.st ≠ .idle →
    (∀ addr len, exec (.cmdMount addr len) s = .next s ∧ exec (.cmdUnmount addr len) s = .next s ∧
      exec (.cmdRead addr len) s = .next s ∧ exec (.cmdWrite addr len) s = .next s) ∧
    ∀ t, step s = .next t → t.host.calls = s.host.calls

/-! ## The device operations -/

/-- R93, R94: in `MNT`, MOUNT and UNMOUNT present their word with no buffer and end the command: `OK` when the
device answers 0, `DeviceFailure` otherwise. No stored byte changes, nor the device's cursor on success (that it stays
holds of R47's ideal device, log entry 6). Nothing is said of the device's mount flag, nor of the block's registers but
`st` and `status`, which are unspecified from here on (R37, R166; log entry 2). -/
def Obligations.MountOperations : Prop :=
  ∀ (s : State) (status : Nat) (rest : List Answer), s.params.wf = true → s.st = .mnt →
    s.dev.nextAnswer = some (status, rest) →
    (BitVec.ofNat s.params.statusW status = 0 →
      (∃ t, exec .mount s = .next t ∧
        t = { s with
          st := .idle, status := .ok, cmd := t.cmd, len := t.len, drum := t.drum, block := t.block,
          count := t.count, idx := t.idx, buf := t.buf, draws := t.draws,
          dev := { s.dev with mounted := t.dev.mounted, answers := rest },
          trace := s.trace ++
            [.devOp (encodeOperation s.params.opcMount 0 0) .noBuf none status, .completion .ok] }) ∧
      ∃ t, exec .unmount s = .next t ∧
        t = { s with
          st := .idle, status := .ok, cmd := t.cmd, len := t.len, drum := t.drum, block := t.block,
          count := t.count, idx := t.idx, buf := t.buf, draws := t.draws,
          dev := { s.dev with mounted := t.dev.mounted, answers := rest },
          trace := s.trace ++
            [.devOp (encodeOperation s.params.opcUnmount 0 0) .noBuf none status, .completion .ok] }) ∧
    (BitVec.ofNat s.params.statusW status ≠ 0 →
      (∃ t, exec .mount s = .next t ∧
        t = { s with
          st := .idle, status := .deviceFailure, cmd := t.cmd, len := t.len, drum := t.drum, block := t.block,
          count := t.count, idx := t.idx, buf := t.buf, draws := t.draws,
          dev := { t.dev with store := s.dev.store, answers := rest },
          trace := s.trace ++
            [.devOp (encodeOperation s.params.opcMount 0 0) .noBuf none status,
              .completion .deviceFailure] }) ∧
      ∃ t, exec .unmount s = .next t ∧
        t = { s with
          st := .idle, status := .deviceFailure, cmd := t.cmd, len := t.len, drum := t.drum, block := t.block,
          count := t.count, idx := t.idx, buf := t.buf, draws := t.draws,
          dev := { t.dev with store := s.dev.store, answers := rest },
          trace := s.trace ++
            [.devOp (encodeOperation s.params.opcUnmount 0 0) .noBuf none status,
              .completion .deviceFailure] })

/-- R95, R92 (a): SEEK_DRUM answered with 0 takes `SEEKD` to `SEEKB` and the device to its drum; the device's block
is unspecified (R103). No register of the block and no stored byte changes. That the device's mount flag stays is the
model's reading of R47's ideal device (log entry 6). -/
def Obligations.SeekDrumMovesDevice : Prop :=
  ∀ (s : State) (d : BitVec 4) (b : BitVec 8) (status : Nat) (rest : List Answer),
    s.params.wf = true → s.st = .seekD → s.dev.nextAnswer = some (status, rest) →
    BitVec.ofNat s.params.statusW status = 0 →
    ∃ t, exec (.seekDrum d b) s = .next t ∧
      t = { s with
        st := .seekB, draws := t.draws,
        dev := { s.dev with drum := d, block := t.dev.block, answers := rest },
        trace := s.trace ++ [.devOp (encodeOperation s.params.opcSeekDrum d b) .noBuf none status] }

/-- R96, R92 (b): SEEK_BLOCK answered with 0 takes `SEEKB` to `RDBLK` and `SEEKB2` to `WRBLK`, and the device to its
block, the drum unchanged. No register of the block and no stored byte changes. That the device's mount flag stays is
the model's reading of R47's ideal device (log entry 6). -/
def Obligations.SeekBlockMovesDevice : Prop :=
  ∀ (s : State) (d : BitVec 4) (b : BitVec 8) (status : Nat) (rest : List Answer),
    s.params.wf = true → s.dev.nextAnswer = some (status, rest) →
    BitVec.ofNat s.params.statusW status = 0 →
    ∀ next, (s.st = .seekB ∧ next = .rdblk) ∨ (s.st = .seekB2 ∧ next = .wrblk) →
    ∃ t, exec (.seekBlock d b) s = .next t ∧
      t = { s with
        st := next, draws := t.draws,
        dev := { s.dev with block := b, answers := rest },
        trace := s.trace ++ [.devOp (encodeOperation s.params.opcSeekBlock d b) .noBuf none status] }

/-- R97, R92 (c): READ_BLOCK answered with 0 replaces all 256 bytes of `buf` with the block under the device cursor
and goes to `COPY`; the device's block is unspecified after it (R103), its store unchanged. That the device's drum
stays holds of R47's ideal device and is the model's reading (log entry 6): R92 assumes nothing of the cursor after a
READ_BLOCK and R103 calls its position unspecified. -/
def Obligations.ReadBlockFillsBuffer : Prop :=
  ∀ (s : State) (d : BitVec 4) (b : BitVec 8) (status : Nat) (rest : List Answer),
    s.params.wf = true → s.st = .rdblk → s.dev.nextAnswer = some (status, rest) →
    BitVec.ofNat s.params.statusW status = 0 →
    ∃ t, exec (.readBlock d b) s = .next t ∧
      t = { s with
        st := .copy, buf := t.buf, draws := t.draws,
        dev := { s.dev with block := t.dev.block, answers := rest },
        trace := s.trace ++ [.devOp (encodeOperation s.params.opcReadBlock d b) .fill none status] } ∧
      ∀ (i : Nat) (h : i < 256), t.buf[i] = s.dev.store.read (linearAddress s.dev.drum s.dev.block i)

/-- R98, R92 (d): WRITE_BLOCK answered with 0 replaces the 256 bytes of the block under the device cursor with `buf`
and no other byte; `buf` is unchanged. It goes to `ADV` while bytes remain. That the device's drum stays holds of
R47's ideal device and is the model's reading (log entry 6): R92 assumes nothing of the cursor after a WRITE_BLOCK and
R103 calls its position unspecified. -/
def Obligations.WriteBlockStoresBuffer : Prop :=
  ∀ (s : State) (d : BitVec 4) (b : BitVec 8) (status : Nat) (rest : List Answer),
    s.params.wf = true → s.st = .wrblk → s.dev.nextAnswer = some (status, rest) →
    BitVec.ofNat s.params.statusW status = 0 →
    ∃ t, exec (.writeBlock d b) s = .next t ∧
      (∀ a, t.dev.store.read a =
        if h : linearAddress s.dev.drum s.dev.block 0 ≤ a ∧ a < linearAddress s.dev.drum s.dev.block 0 + 256
        then s.buf[a - linearAddress s.dev.drum s.dev.block 0]
        else s.dev.store.read a) ∧
      t.dev = { s.dev with store := t.dev.store, block := t.dev.block, answers := rest } ∧
      t.host = s.host ∧ t.params = s.params ∧ t.resetLine = s.resetLine ∧
      (s.count ≠ s.len →
        t = { s with
          st := .adv, draws := t.draws, dev := t.dev,
          trace := s.trace ++
            [.devOp (encodeOperation s.params.opcWriteBlock d b) .drain (some s.buf) status] }) ∧
      (s.count = s.len →
        t.st = .idle ∧ t.status = .ok ∧
        t.trace = s.trace ++
          [.devOp (encodeOperation s.params.opcWriteBlock d b) .drain (some s.buf) status, .completion .ok])

/-- R162, R166, R153: whichever operation a state issues, a nonzero status ends the command with `DeviceFailure`:
that operation is the last one, the host's buffers stay as they are, and no stored byte changes but in the block
under a WRITE_BLOCK. -/
def Obligations.DeviceFailureAborts : Prop :=
  ∀ (s : State) (i : Instr) (w : Word) (status : Nat) (rest : List Answer),
    s.params.wf = true → s.issued = some i → encode s.params i = .word w →
    s.dev.nextAnswer = some (status, rest) → BitVec.ofNat s.params.statusW status ≠ 0 →
    ∃ t kind data, exec i s = .next t ∧ t.st = .idle ∧ t.status = .deviceFailure ∧
      t.trace = s.trace ++ [.devOp w kind data status, .completion .deviceFailure] ∧
      t.host = s.host ∧ t.params = s.params ∧ t.resetLine = s.resetLine ∧ t.dev.answers = rest ∧
      ∀ a, (s.st = .wrblk →
          a < linearAddress s.dev.drum s.dev.block 0 ∨ linearAddress s.dev.drum s.dev.block 0 + 256 ≤ a) →
        t.dev.store.read a = s.dev.store.read a

/-- R133, R203 (U9): while the device does not answer, the block stays in the issuing state and nothing changes.
(That waiting is a step to the same state is the model's choice, log entry 12.) -/
def Obligations.SilentDeviceHangsBlock : Prop :=
  ∀ (s : State) (i : Instr), s.params.wf = true → s.resetLine = false → s.issued = some i →
    s.dev.nextAnswer = none → exec i s = .next s ∧ ∀ k, runSteps k s = .next s

/-- An operation word is refused by name in every FSM state that does not issue it. The refusal is the model's choice
(log entry 8): R102 says that the block emits the word from no other state. -/
def Obligations.OperationsOnlyFromTheirStates : Prop :=
  ∀ (s : State) (d : BitVec 4) (b : BitVec 8),
    (s.st ≠ .mnt → exec .mount s = .refused .notIssued ∧ exec .unmount s = .refused .notIssued) ∧
    (s.st ≠ .seekD → exec (.seekDrum d b) s = .refused .notIssued) ∧
    (s.st ≠ .seekB ∧ s.st ≠ .seekB2 → exec (.seekBlock d b) s = .refused .notIssued) ∧
    (s.st ≠ .rdblk → exec (.readBlock d b) s = .refused .notIssued) ∧
    (s.st ≠ .wrblk → exec (.writeBlock d b) s = .refused .notIssued)

/-! ## The internal steps -/

/-- R127, R128: `COPY` of a read delivers `n = min(256 - idx, len - count)` bytes of `buf` from `idx` on to the
indices from `count` on of the buffer that the call's `out` names (R73), one by one in ascending order, and nothing
else to it, nor anything to another buffer; it completes with `OK` when `count` reaches `len` and goes to `ADV`
otherwise. With the cursor as R38 has it, `n` is at least 1. -/
def Obligations.CopyOutDelivers : Prop :=
  ∀ (s : State) (n : Nat), s.resetLine = false → s.st = .copy → s.cmd = .read → s.idx.toNat ≤ 256 →
    s.count.toNat ≤ s.len.toNat → n = min (256 - s.idx.toNat) (s.len.toNat - s.count.toNat) →
    ∃ t, step s = .next t ∧
      (∀ name j, t.host.outs.get name j =
        if name = s.host.outName ∧ s.count.toNat ≤ j ∧ j < s.count.toNat + n
        then some (byteAt s.buf (s.idx.toNat + (j - s.count.toNat)))
        else s.host.outs.get name j) ∧
      t.host = { s.host with outs := t.host.outs } ∧ t.dev = s.dev ∧ t.params = s.params ∧
      (s.count.toNat + n ≠ s.len.toNat →
        t = { s with
          st := .adv, idx := t.idx, count := t.count, host := t.host,
          trace := s.trace ++ (List.range n).map fun k =>
            .outByte (s.count + BitVec.ofNat 32 k) (byteAt s.buf (s.idx.toNat + k)) } ∧
        t.idx.toNat = s.idx.toNat + n ∧ t.count.toNat = s.count.toNat + n) ∧
      (s.count.toNat + n = s.len.toNat →
        t.st = .idle ∧ t.status = .ok ∧
        t.trace = s.trace ++ ((List.range n).map fun k =>
          .outByte (s.count + BitVec.ofNat 32 k) (byteAt s.buf (s.idx.toNat + k))) ++ [.completion .ok]) ∧
      (s.idx.toNat ≤ 255 → s.count.toNat < s.len.toNat → 1 ≤ n)

/-- R145: `COPY` of a write replaces `n` bytes of `buf` from `idx` on with the caller's bytes from `count` on, each
fetched once in ascending order, keeps every other byte of `buf`, and goes to `SEEKB2`. -/
def Obligations.CopyInFills : Prop :=
  ∀ (s : State) (n : Nat), s.resetLine = false → s.st = .copy → s.cmd = .write → s.idx.toNat ≤ 256 →
    s.count.toNat ≤ s.len.toNat → n = min (256 - s.idx.toNat) (s.len.toNat - s.count.toNat) →
    ∃ t, step s = .next t ∧
      (∀ (i : Nat) (h : i < 256), t.buf[i] =
        if s.idx.toNat ≤ i ∧ i < s.idx.toNat + n then s.hostIn (s.count.toNat + (i - s.idx.toNat))
        else s.buf[i]) ∧
      t = { s with
        st := .seekB2, idx := t.idx, count := t.count, buf := t.buf,
        trace := s.trace ++ (List.range n).map fun k =>
          .inByte (s.count + BitVec.ofNat 32 k) (s.hostIn (s.count.toNat + k)) } ∧
      t.idx.toNat = s.idx.toNat + n ∧ t.count.toNat = s.count.toNat + n ∧
      (s.idx.toNat ≤ 255 → s.count.toNat < s.len.toNat → 1 ≤ n)

/-- R129, R163: `ADV` goes to the next block of the drum, to block 0 of the next drum, or past drum 15 raises
`OutOfRange`; no device operation is issued. -/
def Obligations.AdvanceCursor : Prop :=
  ∀ s : State, s.resetLine = false → s.st = .adv →
    (s.block ≠ 255 → step s = .next { s with block := s.block + 1, idx := 0, st := .seekB }) ∧
    (s.block = 255 → s.drum ≠ 15 →
      step s = .next { s with block := 0, drum := s.drum + 1, idx := 0, st := .seekD }) ∧
    (s.block = 255 → s.drum = 15 →
      ∃ t, step s = .next t ∧ t.st = .idle ∧ t.status = .outOfRange ∧
        t.trace = s.trace ++ [.completion .outOfRange] ∧ t.dev = s.dev ∧ t.host = s.host ∧
        t.params = s.params)

/-! ## The step -/

/-- In `IDLE` a step runs the instruction that the host's next packet decodes to, the call taken from the port, with
the operands `in` and `out` of that call (R73); with no call it does nothing (R31). (The list of the calls to come is
the model's, log entry 13.) -/
def Obligations.StepRunsHostCall : Prop :=
  ∀ s : State, s.resetLine = false → s.st = .idle →
    (s.host.calls = [] → step s = .next s) ∧
    ∀ c rest i, s.host.calls = c :: rest → decode s.params (.packet c.packet) = .ok i →
      step s = exec i { s with host := { s.host with calls := rest, inBuf := c.inBuf, outName := c.out } }

/-- In a state that issues an operation, a step runs the instruction that the assembled word decodes to (R31, R99,
R102). -/
def Obligations.StepRunsAssembledWord : Prop :=
  ∀ (s : State) (w : Word) (i : Instr), s.params.wf = true → s.resetLine = false →
    s.issued.map (encode s.params) = some (.word w) → decode s.params (.word w) = .ok i → step s = exec i s

/-- R190: after reset the block is in `IDLE` with `status` 0, not busy; reset issued no device operation; the block
waits for the first command. -/
def Obligations.ResetState : Prop :=
  State.reset.st = .idle ∧ State.reset.status.code = 0 ∧ State.reset.busy = false ∧
    State.reset.trace = [] ∧ step State.reset = .next State.reset

/-- R29, R160, R166: the codes of `status`; and the status and code that raising each error kind reports:
`InvalidDrum` 1, `DeviceFailure` 2, `OutOfRange` 3. -/
def Obligations.StatusCodes : Prop :=
  Status.ok.code = 0 ∧ Status.invalidDrum.code = 1 ∧ Status.deviceFailure.code = 2 ∧ Status.outOfRange.code = 3 ∧
    ∀ s : State,
      (s.raise .invalidDrum).status = .invalidDrum ∧ (s.raise .invalidDrum).status.code = 1 ∧
      (s.raise .deviceFailure).status = .deviceFailure ∧ (s.raise .deviceFailure).status.code = 2 ∧
      (s.raise .outOfRange).status = .outOfRange ∧ (s.raise .outOfRange).status.code = 3 ∧
      ∀ e : ErrorKind, (s.raise e).status = e.status ∧ e.status ≠ .ok ∧ (s.raise e).st = .idle ∧
        (s.raise e).trace = s.trace ++ [.completion e.status]

/-- R191: reset abandons whatever runs: `IDLE`, status 0, no `Completion`, no further device operation, and the device
not touched when no operation was in flight (R36). The model's choices (log entry 15): the reset is taken between two
steps and releases its line, and the host goes on with its next call, `t.host = s.host`. -/
def Obligations.ResetAbandonsCommand : Prop :=
  ∀ s : State, s.resetLine = true →
    ∃ t, step s = .next t ∧ t.st = .idle ∧ t.status = .ok ∧ t.resetLine = false ∧
      t.trace = s.trace ++ [.reset] ∧ t.host = s.host ∧ t.params = s.params ∧
      (s.issued = none → t.dev = s.dev)

/-! ## Invariants -/

/-- The invariants hold at reset. -/
def Obligations.InvariantsHoldAtReset : Prop :=
  FsmInv State.reset ∧ MemoryInv State.reset ∧ HeadInv State.reset ∧ SeekInv State.reset ∧ TraceInv State.reset

/-- R38: every step keeps the FSM's invariant. -/
def Obligations.FsmInvariantKept : Prop :=
  ∀ s t : State, FsmInv s → step s = .next t → FsmInv t

/-- R38 for one command: it is accepted with its start address and length; while it runs, every step keeps the
invariant for that address (I1 to I3) and the length (I4); `COPY` moves at least one byte (I5); `a + count` stays
within the array (I6). -/
def Obligations.RunningCommandKeepsInvariant : Prop :=
  (∀ (s t : State) (addr len : Word), s.st = .idle → t.st ≠ .idle →
    exec (.cmdRead addr len) s = .next t ∨ exec (.cmdWrite addr len) s = .next t →
    Running addr.toNat t ∧ addr.toNat < Config.capacity ∧ t.len = len) ∧
  (∀ (s t : State) (a : Nat), s.params.wf = true → a < Config.capacity → s.st ≠ .idle → Running a s →
    step s = .next t → Running a t ∧ (t.st ≠ .idle → t.len = s.len)) ∧
  ∀ (s : State) (a : Nat), s.st ≠ .idle → s.st ≠ .mnt → Running a s →
    a + s.count.toNat ≤ 2 ^ 20 ∧ (s.st = .copy → 1 ≤ s.copyLength)

/-- From a state that keeps the invariant every step answers a next state: no fault and no refusal is reached. -/
def Obligations.InvariantNeverStops : Prop :=
  ∀ s : State, FsmInv s → ∃ t, step s = .next t

/-- Every step keeps the canonical form of the device store and of the `out` buffers (the model's forms, log
entries 5 and 14). -/
def Obligations.MemoryInvariantKept : Prop :=
  ∀ s t : State, MemoryInv s → step s = .next t → MemoryInv t

/-- R92, R146: whenever a transfer comes next, the device stands on the block of the cursor: every step keeps it. In
`COPY`, `SEEKB2` and `ADV`, after a transfer, the invariant has the device still on its drum: that holds of R47's
ideal device and is the model's reading (log entry 6), since R92 assumes nothing of the cursor after a transfer and
R103 calls it unspecified. -/
def Obligations.DeviceFollowsCursor : Prop :=
  ∀ s t : State, s.params.wf = true → HeadInv s → step s = .next t → HeadInv t

/-- R100: the seek discipline of the trace, kept by every step: each transfer right after a SEEK_BLOCK with its
fields, each SEEK_BLOCK with the drum its command sought last, each range command's first operation a SEEK_DRUM. -/
def Obligations.SeekDisciplineKept : Prop :=
  ∀ s t : State, s.params.wf = true → SeekInv s → step s = .next t → SeekInv t

/-- R55, R168 (of the model's record of transactions, log entry 16): while a command runs, its transactions so far are
device operations answered with 0, and bytes at the indices 0 to `count` - 1 in this order, each once: every step
keeps it. -/
def Obligations.RunningTraceKept : Prop :=
  ∀ s t : State, s.params.wf = true → TraceInv s → step s = .next t → TraceInv t

/-- R39: no step changes a parameter. (That the state carries them is the model's choice, log entry 4.) -/
def Obligations.ParametersNeverChange : Prop :=
  ∀ s t : State, step s = .next t → t.params = s.params

/-- R29: `status` changes only where a command ends, with its `Completion`, or at a reset. -/
def Obligations.StatusChangesOnlyAtEnd : Prop :=
  ∀ s t : State, step s = .next t → t.status ≠ s.status →
    t.st = .idle ∧
      (t.trace.getLast? = some (.completion t.status) ∨ t.trace.getLast? = some .reset)

/-- R99, R102: a step emits at most one word: MOUNT or UNMOUNT with zero fields from `MNT`, and with the block cursor
in both fields SEEK_DRUM from `SEEKD`, SEEK_BLOCK from `SEEKB` and `SEEKB2`, READ_BLOCK from `RDBLK`, WRITE_BLOCK
from `WRBLK`. While a read command runs it is never a WRITE_BLOCK. -/
def Obligations.WordsEmittedByState : Prop :=
  ∀ s t : State, s.params.wf = true → step s = .next t →
    (devWords t.trace = devWords s.trace ∨
      ∃ w, devWords t.trace = devWords s.trace ++ [w] ∧
        ((s.st = .mnt ∧ s.cmd = .mount ∧ w = encodeOperation s.params.opcMount 0 0) ∨
          (s.st = .mnt ∧ s.cmd ≠ .mount ∧ w = encodeOperation s.params.opcUnmount 0 0) ∨
          (s.st = .seekD ∧ w = encodeOperation s.params.opcSeekDrum s.drum s.block) ∨
          ((s.st = .seekB ∨ s.st = .seekB2) ∧ w = encodeOperation s.params.opcSeekBlock s.drum s.block) ∨
          (s.st = .rdblk ∧ w = encodeOperation s.params.opcReadBlock s.drum s.block) ∨
          (s.st = .wrblk ∧ w = encodeOperation s.params.opcWriteBlock s.drum s.block))) ∧
    (FsmInv s → s.cmd = .read → s.st ≠ .idle → ∀ w, devWords t.trace = devWords s.trace ++ [w] →
      wordOpcode w ≠ s.params.opcWriteBlock)

/-- R92 (e), R56: without a reset, no step but that of `WRBLK` changes the device store, and that one only the 256
bytes of the block under the device cursor. -/
def Obligations.StoreChangesOnlyAtWriteBlock : Prop :=
  ∀ s t : State, s.params.wf = true → s.resetLine = false → step s = .next t →
    (s.st ≠ .wrblk → t.dev.store = s.dev.store) ∧
    ∀ a, a < linearAddress s.dev.drum s.dev.block 0 ∨ linearAddress s.dev.drum s.dev.block 0 + 256 ≤ a →
      t.dev.store.read a = s.dev.store.read a

/-- R37, R169: from `IDLE`, what `cmd`, `len`, the cursor and `buf` hold makes no difference to anything seen outside
the block, however long it runs. (The values they take when a command ends are drawn afresh, log entry 2.) -/
def Obligations.IdleRegistersCarryNothing : Prop :=
  ∀ (k : Nat) (s t : State), s.params.wf = true → s.st = .idle → SameOutside s t →
    ∃ u v, runSteps k s = .next u ∧ runSteps k t = .next v ∧ SameOutside u v

/-- R32, R112: nothing depends on whether the device is mounted: with the flag at another value every instruction, and
every run of whatever commands, has the same outcome but for the flag itself. (A device that answers by its mount
state does so through its statuses, which are an input; the flag is the model's, log entries 6 and 11.) -/
def Obligations.MountFlagMattersNot : Prop :=
  ∀ (s : State) (m : Bool),
    (∀ i : Instr, SameButMounted (exec i s) (exec i (s.withMounted m))) ∧
    ∀ k : Nat, SameButMounted (runSteps k s) (runSteps k (s.withMounted m))

/-! ## Whole commands -/

/-- R10, R110, R111: the FSM run of a mount or unmount is its big-step rule, which ends or hangs and never goes on. -/
def Obligations.MountIsItsBigStep : Prop :=
  ∀ (s u : State) (addr len : Word), s.params.wf = true → s.resetLine = false → s.st = .idle →
    (exec (.cmdMount addr len) s = .next u →
      (∀ t, bigMount addr len s = .ended t → step u = .next t) ∧
      (∀ t, bigMount addr len s = .hung t → t = u ∧ step u = .next u) ∧
      ∀ t, bigMount addr len s ≠ .going t) ∧
    (exec (.cmdUnmount addr len) s = .next u →
      (∀ t, bigUnmount addr len s = .ended t → step u = .next t) ∧
      (∀ t, bigUnmount addr len s = .hung t → t = u ∧ step u = .next u) ∧
      ∀ t, bigUnmount addr len s ≠ .going t)

/-- R10, R130: running the FSM from the accept step of CMD_READ gives the state in which the big-step rule ends;
where the big-step rule hangs on a silent device the FSM hangs, after the same transactions. -/
def Obligations.ReadIsItsBigStep : Prop :=
  ∀ (s : State) (addr len : Word), s.params.wf = true → s.resetLine = false → s.st = .idle →
    (∀ t, bigRead addr len s = .ended t →
      ∃ u, exec (.cmdRead addr len) s = .next u ∧ Reaches u t ∧ t.st = .idle) ∧
    (∀ t, bigRead addr len s = .hung t →
      ∃ u v, exec (.cmdRead addr len) s = .next u ∧ Reaches u v ∧ step v = .next v ∧ v.st ≠ .idle ∧
        v.trace = t.trace ∧ v.host = t.host ∧ v.dev = t.dev) ∧
    ∀ t, bigRead addr len s ≠ .going t

/-- R10, R148: the same for CMD_WRITE. -/
def Obligations.WriteIsItsBigStep : Prop :=
  ∀ (s : State) (addr len : Word), s.params.wf = true → s.resetLine = false → s.st = .idle →
    (∀ t, bigWrite addr len s = .ended t →
      ∃ u, exec (.cmdWrite addr len) s = .next u ∧ Reaches u t ∧ t.st = .idle) ∧
    (∀ t, bigWrite addr len s = .hung t →
      ∃ u v, exec (.cmdWrite addr len) s = .next u ∧ Reaches u v ∧ step v = .next v ∧ v.st ≠ .idle ∧
        v.trace = t.trace ∧ v.host = t.host ∧ v.dev = t.dev) ∧
    ∀ t, bigWrite addr len s ≠ .going t

/-- R133, R154: over a device that answers each operation, every range command ends, a read within 8208 and a write
within 16400 device operations. -/
def Obligations.RangeCommandsTerminate : Prop :=
  ∀ (s : State) (addr len : Word), s.params.wf = true → s.resetLine = false → s.st = .idle → s.responsive →
    (∃ u t, exec (.cmdRead addr len) s = .next u ∧ Reaches u t ∧ t.st = .idle ∧
      (devWords t.trace).length ≤ (devWords s.trace).length + 8208) ∧
    ∃ u t, exec (.cmdWrite addr len) s = .next u ∧ Reaches u t ∧ t.st = .idle ∧
      (devWords t.trace).length ≤ (devWords s.trace).length + 16400

/-- R132 (and R134 h for a range that runs past the array): over the ideal device CMD_READ delivers the bytes of the
range that lie in the array to the buffer that `out` names and nothing else to it or to another buffer (R73), changes
no stored byte, and ends with `OK`, or with `OutOfRange` if the range runs past the array. -/
def Obligations.ReadResult : Prop :=
  ∀ (s : State) (addr len : Word), s.params.wf = true → s.resetLine = false → s.st = .idle → s.ideal →
    1 ≤ len.toNat → addr.toNat < 2 ^ 20 →
    ∃ u t, exec (.cmdRead addr len) s = .next u ∧ Reaches u t ∧ t.st = .idle ∧
      t.status = (if addr.toNat + len.toNat ≤ 2 ^ 20 then .ok else .outOfRange) ∧
      (∀ name i, t.host.outs.get name i =
        if name = s.host.outName ∧ i < len.toNat ∧ addr.toNat + i < 2 ^ 20
        then some (s.storeByte (addr.toNat + i))
        else s.host.outs.get name i) ∧
      t.dev.store = s.dev.store ∧ t.host = { s.host with outs := t.host.outs }

/-- R150 (and R152 g): over the ideal device CMD_WRITE puts the caller's bytes at the addresses of the range that lie
in the array and changes no other byte, and ends with `OK`, or with `OutOfRange` if the range runs past the
array; the caller's buffers are unchanged. -/
def Obligations.WriteResult : Prop :=
  ∀ (s : State) (addr len : Word), s.params.wf = true → s.resetLine = false → s.st = .idle → s.ideal →
    1 ≤ len.toNat → addr.toNat < 2 ^ 20 → len.toNat ≤ s.host.inBuf.length →
    ∃ u t, exec (.cmdWrite addr len) s = .next u ∧ Reaches u t ∧ t.st = .idle ∧
      t.status = (if addr.toNat + len.toNat ≤ 2 ^ 20 then .ok else .outOfRange) ∧
      (∀ a, a < 2 ^ 20 → t.storeByte a =
        if addr.toNat ≤ a ∧ a < addr.toNat + len.toNat then s.host.inBuf.getD (a - addr.toNat) 0
        else s.storeByte a) ∧
      t.host = s.host

/-- R53: a write call followed by a read call of the same range inside the array, over the ideal device, delivers the
bytes written to the buffer that the read's `out` names, and no byte to any other buffer (R73). -/
def Obligations.WriteThenRead : Prop :=
  ∀ (s : State) (addr len : Word) (bytes : List Byte) (other out : Nat), s.params.wf = true → s.resetLine = false →
    s.st = .idle → s.ideal → 1 ≤ len.toNat → addr.toNat + len.toNat ≤ 2 ^ 20 → bytes.length = len.toNat →
    s.host.calls = [⟨encodePacket 3 addr len, bytes, other⟩, ⟨encodePacket 2 addr len, [], out⟩] →
    ∃ t, Reaches s t ∧ t.st = .idle ∧ t.host.calls = [] ∧ t.status = .ok ∧
      ∀ name i, t.host.outs.get name i =
        if name = out ∧ i < len.toNat then bytes[i]? else s.host.outs.get name i

/-- R131, R149: over the ideal device the trace of a range command is one SEEK_DRUM, then for each block of the range
its two (read) or four (write) words, with an extra SEEK_DRUM before each later block that begins a drum; also
when the range runs past the array, whose last block then is the last one. -/
def Obligations.TraceShape : Prop :=
  ∀ (s : State) (addr len : Word), s.params.wf = true → s.resetLine = false → s.st = .idle → s.ideal →
    1 ≤ len.toNat → addr.toNat < 2 ^ 20 →
    (∃ u t, exec (.cmdRead addr len) s = .next u ∧ Reaches u t ∧ t.st = .idle ∧
      devWords t.trace = devWords s.trace ++
        readWords s.params (addr.toNat / 256) (blocksTouched addr.toNat len.toNat)) ∧
    ∃ u t, exec (.cmdWrite addr len) s = .next u ∧ Reaches u t ∧ t.st = .idle ∧
      devWords t.trace = devWords s.trace ++
        writeWords s.params (addr.toNat / 256) (blocksTouched addr.toNat len.toNat)

/-- R131, R149: over the ideal device a read issues `1 + 2 * N + V` device operations and a write `1 + 4 * N + V`, with
`N` blocks touched and `V` drum rollovers from block `B0` to block `B1`; a range that runs past the array has 4095 for
`B1`, so that these are `1 + 2 * (4096 - B0) + (15 - (B0 >> 8))` and the same with 4. -/
def Obligations.TraceCounts : Prop :=
  ∀ (s : State) (addr len : Word) (B0 B1 N V : Nat), s.params.wf = true → s.resetLine = false → s.st = .idle →
    s.ideal → 1 ≤ len.toNat → addr.toNat < 2 ^ 20 → B0 = addr.toNat / 256 →
    B1 = (if addr.toNat + len.toNat ≤ 2 ^ 20 then (addr.toNat + len.toNat - 1) / 256 else 4095) →
    N = B1 - B0 + 1 → V = B1 / 256 - B0 / 256 →
    (∃ u t, exec (.cmdRead addr len) s = .next u ∧ Reaches u t ∧ t.st = .idle ∧ t.host.calls = s.host.calls ∧
      (devWords t.trace).length = (devWords s.trace).length + (1 + 2 * N + V)) ∧
    (∃ u t, exec (.cmdWrite addr len) s = .next u ∧ Reaches u t ∧ t.st = .idle ∧ t.host.calls = s.host.calls ∧
      (devWords t.trace).length = (devWords s.trace).length + (1 + 4 * N + V)) ∧
    (2 ^ 20 < addr.toNat + len.toNat → N = 4096 - B0 ∧ V = 15 - B0 / 256)
end

