-- ==== Sys2Proof/Laws/Codec.lean ====
section
/-! SUPPORT. The fields of an encoded word or packet, and of a decomposed address: each as arithmetic on the
value's number, which `omega` then finishes. -/

namespace Sys2Proof

/-! ## Fields as arithmetic -/

theorem toNat_field {w : Nat} (x : BitVec w) (start n : Nat) :
    (x.extractLsb' start n).toNat = x.toNat / 2 ^ start % 2 ^ n := by
  rw [BitVec.extractLsb'_toNat, Nat.shiftRight_eq_div_pow]

theorem eq_field_iff {w n : Nat} (x : BitVec w) (start : Nat) (y : BitVec n) :
    x.extractLsb' start n = y ↔ x.toNat / 2 ^ start % 2 ^ n = y.toNat := by
  rw [← BitVec.toNat_inj, toNat_field]

/-! ## The operation word -/

/-- The fields do not overlap, so `|` may be read as `+` (R63). -/
theorem toNat_encodeOperation (o : BitVec 6) (d : BitVec 4) (b : BitVec 8) :
    (encodeOperation o d b).toNat = o.toNat * 2 ^ 26 + d.toNat * 2 ^ 22 + b.toNat := by
  have ho := o.isLt
  have hd := d.isLt
  have hb := b.isLt
  have h1 : o.toNat <<< 26 ||| d.toNat <<< 22 = (o.toNat * 16 + d.toNat) <<< 22 := by
    rw [← Nat.shiftLeft_add_eq_or_of_lt (by rw [Nat.shiftLeft_eq]; omega)]
    simp only [Nat.shiftLeft_eq]
    omega
  simp only [encodeOperation, BitVec.toNat_or, BitVec.toNat_shiftLeft, BitVec.truncate_eq_setWidth,
    BitVec.toNat_setWidth]
  rw [Nat.mod_eq_of_lt (a := o.toNat) (by omega), Nat.mod_eq_of_lt (a := d.toNat) (by omega),
    Nat.mod_eq_of_lt (a := b.toNat) (by omega),
    Nat.mod_eq_of_lt (a := o.toNat <<< 26) (by rw [Nat.shiftLeft_eq]; omega),
    Nat.mod_eq_of_lt (a := d.toNat <<< 22) (by rw [Nat.shiftLeft_eq]; omega), h1,
    ← Nat.shiftLeft_add_eq_or_of_lt (by omega), Nat.shiftLeft_eq]
  omega

section fields
variable (o : BitVec 6) (d : BitVec 4) (b : BitVec 8)

@[simp] theorem wordOpcode_encodeOperation : wordOpcode (encodeOperation o d b) = o := by
  have ho := o.isLt
  have hd := d.isLt
  have hb := b.isLt
  rw [wordOpcode, eq_field_iff, toNat_encodeOperation]
  omega

@[simp] theorem wordDrum_encodeOperation : wordDrum (encodeOperation o d b) = d := by
  have ho := o.isLt
  have hd := d.isLt
  have hb := b.isLt
  rw [wordDrum, eq_field_iff, toNat_encodeOperation]
  omega

@[simp] theorem wordReserved_encodeOperation : wordReserved (encodeOperation o d b) = 0 := by
  have ho := o.isLt
  have hd := d.isLt
  have hb := b.isLt
  rw [wordReserved, eq_field_iff, toNat_encodeOperation, show BitVec.toNat (0 : BitVec 14) = 0 from rfl]
  omega

@[simp] theorem wordBlock_encodeOperation : wordBlock (encodeOperation o d b) = b := by
  have ho := o.isLt
  have hd := d.isLt
  have hb := b.isLt
  rw [wordBlock, eq_field_iff, toNat_encodeOperation]
  omega

end fields

/-- A word with zero bits 21..8 is the encoding of its own fields. -/
theorem encodeOperation_fields (w : Word) (h : wordReserved w = 0) :
    encodeOperation (wordOpcode w) (wordDrum w) (wordBlock w) = w := by
  have hw := w.isLt
  rw [wordReserved, eq_field_iff, show BitVec.toNat (0 : BitVec 14) = 0 from rfl] at h
  rw [← BitVec.toNat_inj, toNat_encodeOperation, wordOpcode, wordDrum, wordBlock, toNat_field, toNat_field,
    toNat_field]
  omega

/-! ## The packet -/

theorem toNat_encodePacket (op : BitVec 2) (addr len : Word) :
    (encodePacket op addr len).toNat = op.toNat * 2 ^ 64 + addr.toNat * 2 ^ 32 + len.toNat := by
  have ho := op.isLt
  have ha := addr.isLt
  have hl := len.isLt
  have h : (encodePacket op addr len).toNat = (op.toNat <<< 32 ||| addr.toNat) <<< 32 ||| len.toNat := by
    refine (BitVec.toNat_append (op ++ addr) len).trans ?_
    rw [BitVec.toNat_append]
  rw [h, ← Nat.shiftLeft_add_eq_or_of_lt (by omega), ← Nat.shiftLeft_add_eq_or_of_lt (by omega),
    Nat.shiftLeft_eq, Nat.shiftLeft_eq]
  omega

section packet
variable (op : BitVec 2) (addr len : Word)

@[simp] theorem packetOp_encodePacket : packetOp (encodePacket op addr len) = op := by
  have ho := op.isLt
  have ha := addr.isLt
  have hl := len.isLt
  rw [packetOp, eq_field_iff, toNat_encodePacket]
  omega

@[simp] theorem packetAddr_encodePacket : packetAddr (encodePacket op addr len) = addr := by
  have ho := op.isLt
  have ha := addr.isLt
  have hl := len.isLt
  rw [packetAddr, eq_field_iff, toNat_encodePacket]
  omega

@[simp] theorem packetLen_encodePacket : packetLen (encodePacket op addr len) = len := by
  have ho := op.isLt
  have ha := addr.isLt
  have hl := len.isLt
  rw [packetLen, eq_field_iff, toNat_encodePacket]
  omega

end packet

/-- Every packet is the encoding of its own fields. -/
theorem encodePacket_fields (p : Packet) : encodePacket (packetOp p) (packetAddr p) (packetLen p) = p := by
  have hp := p.isLt
  rw [← BitVec.toNat_inj, toNat_encodePacket, packetOp, packetAddr, packetLen, toNat_field, toNat_field,
    toNat_field]
  omega

/-! ## The opcodes -/

/-- Distinct opcodes, written out pair by pair. -/
theorem opcodesDistinct_iff (p : Config.Params) :
    p.opcodesDistinct = true ↔
      p.opcMount ≠ p.opcUnmount ∧ p.opcMount ≠ p.opcSeekDrum ∧ p.opcMount ≠ p.opcSeekBlock ∧
      p.opcMount ≠ p.opcReadBlock ∧ p.opcMount ≠ p.opcWriteBlock ∧ p.opcUnmount ≠ p.opcSeekDrum ∧
      p.opcUnmount ≠ p.opcSeekBlock ∧ p.opcUnmount ≠ p.opcReadBlock ∧ p.opcUnmount ≠ p.opcWriteBlock ∧
      p.opcSeekDrum ≠ p.opcSeekBlock ∧ p.opcSeekDrum ≠ p.opcReadBlock ∧ p.opcSeekDrum ≠ p.opcWriteBlock ∧
      p.opcSeekBlock ≠ p.opcReadBlock ∧ p.opcSeekBlock ≠ p.opcWriteBlock ∧
      p.opcReadBlock ≠ p.opcWriteBlock := by
  simp only [Config.Params.opcodesDistinct, Config.Params.opcodes, decide_eq_true_eq, List.nodup_cons,
    List.mem_cons, List.not_mem_nil, or_false, not_or, not_false_eq_true, List.nodup_nil, and_true]
  tauto

/-- Legal parameters have distinct opcodes. -/
theorem Config.Params.distinct_of_wf {p : Config.Params} (h : p.wf = true) : p.opcodesDistinct = true := by
  simp only [Config.Params.wf, Bool.and_eq_true] at h
  exact h.1

namespace Machine

/-! ## The address -/

theorem toNat_rawDrum (addr : Word) : (rawDrum addr).toNat = addr.toNat / 65536 := by
  have := addr.isLt
  rw [rawDrum, toNat_field]
  omega

theorem toNat_decomposeBlock (addr : Word) : (decomposeBlock addr).toNat = addr.toNat / 256 % 256 := by
  rw [decomposeBlock, toNat_field]
  rfl

theorem toNat_decomposeOffset (addr : Word) : (decomposeOffset addr).toNat = addr.toNat % 256 := by
  rw [decomposeOffset, toNat_field, Nat.pow_zero, Nat.div_one]
  rfl

/-- A valid address decodes to the fields whose linear address it is (R83). -/
theorem decodeAddress_of_valid (addr : Word) (h : addr.toNat < Config.capacity) :
    ∃ d b o, decodeAddress addr = some (d, b, o) ∧ d.toNat = addr.toNat / 65536 ∧
      b.toNat = addr.toNat / 256 % 256 ∧ o.toNat = addr.toNat % 256 := by
  simp only [Config.capacity] at h
  have hr : (rawDrum addr).toNat ≤ Config.maxDrum := by
    rw [toNat_rawDrum, Config.maxDrum]
    omega
  refine ⟨(rawDrum addr).extractLsb' 0 4, decomposeBlock addr, decomposeOffset addr, ?_, ?_,
    toNat_decomposeBlock addr, toNat_decomposeOffset addr⟩
  · simp [decodeAddress, decomposeDrum, hr]
  · rw [toNat_field, toNat_rawDrum]
    omega

/-- An address above the array does not decode (R82). -/
theorem decodeAddress_of_invalid (addr : Word) (h : Config.capacity ≤ addr.toNat) : decodeAddress addr = none := by
  simp only [Config.capacity] at h
  have hr : ¬ (rawDrum addr).toNat ≤ Config.maxDrum := by
    rw [toNat_rawDrum, Config.maxDrum]
    omega
  simp [decodeAddress, decomposeDrum, hr]

end Machine

end Sys2Proof
end

