-- ==== Sys2Proof/Laws/State.lean ====
section
/-! SUPPORT. One lemma per field for each named update of State, so that no proof unfolds a record update. -/

namespace Sys2Proof.Machine

/-! ## discardRegisters -/

@[simp] theorem discardRegisters_st (s : State) : (s.discardRegisters).st = s.st := rfl

@[simp] theorem discardRegisters_cmd (s : State) : (s.discardRegisters).cmd = Cmd.ofCode (Config.freeCmd s.draws) := rfl

@[simp] theorem discardRegisters_len (s : State) : (s.discardRegisters).len = Config.freeLen s.draws := rfl

@[simp] theorem discardRegisters_drum (s : State) : (s.discardRegisters).drum = Config.freeDrum s.draws := rfl

@[simp] theorem discardRegisters_block (s : State) : (s.discardRegisters).block = Config.freeBlock s.draws := rfl

@[simp] theorem discardRegisters_count (s : State) : (s.discardRegisters).count = Config.freeCount s.draws := rfl

@[simp] theorem discardRegisters_idx (s : State) : (s.discardRegisters).idx = BitVec.ofNat 9 (Config.freeIdx s.draws).val := rfl

@[simp] theorem discardRegisters_buf (s : State) : (s.discardRegisters).buf = Vector.ofFn fun i => Config.freeBufByte s.draws i.val := rfl

@[simp] theorem discardRegisters_status (s : State) : (s.discardRegisters).status = s.status := rfl

@[simp] theorem discardRegisters_params (s : State) : (s.discardRegisters).params = s.params := rfl

@[simp] theorem discardRegisters_dev (s : State) : (s.discardRegisters).dev = s.dev := rfl

@[simp] theorem discardRegisters_host (s : State) : (s.discardRegisters).host = s.host := rfl

@[simp] theorem discardRegisters_resetLine (s : State) : (s.discardRegisters).resetLine = s.resetLine := rfl

@[simp] theorem discardRegisters_trace (s : State) : (s.discardRegisters).trace = s.trace := rfl

@[simp] theorem discardRegisters_draws (s : State) : (s.discardRegisters).draws = s.draws + 1 := rfl

/-! ## finish -/

@[simp] theorem finish_st (s : State) (code : Status) : (s.finish code).st = .idle := rfl

@[simp] theorem finish_cmd (s : State) (code : Status) : (s.finish code).cmd = Cmd.ofCode (Config.freeCmd s.draws) := rfl

@[simp] theorem finish_len (s : State) (code : Status) : (s.finish code).len = Config.freeLen s.draws := rfl

@[simp] theorem finish_drum (s : State) (code : Status) : (s.finish code).drum = Config.freeDrum s.draws := rfl

@[simp] theorem finish_block (s : State) (code : Status) : (s.finish code).block = Config.freeBlock s.draws := rfl

@[simp] theorem finish_count (s : State) (code : Status) : (s.finish code).count = Config.freeCount s.draws := rfl

@[simp] theorem finish_idx (s : State) (code : Status) : (s.finish code).idx = BitVec.ofNat 9 (Config.freeIdx s.draws).val := rfl

@[simp] theorem finish_buf (s : State) (code : Status) : (s.finish code).buf = Vector.ofFn fun i => Config.freeBufByte s.draws i.val := rfl

@[simp] theorem finish_status (s : State) (code : Status) : (s.finish code).status = code := rfl

@[simp] theorem finish_params (s : State) (code : Status) : (s.finish code).params = s.params := rfl

@[simp] theorem finish_dev (s : State) (code : Status) : (s.finish code).dev = s.dev := rfl

@[simp] theorem finish_host (s : State) (code : Status) : (s.finish code).host = s.host := rfl

@[simp] theorem finish_resetLine (s : State) (code : Status) : (s.finish code).resetLine = s.resetLine := rfl

@[simp] theorem finish_trace (s : State) (code : Status) : (s.finish code).trace = s.trace ++ [.completion code] := rfl

@[simp] theorem finish_draws (s : State) (code : Status) : (s.finish code).draws = s.draws + 1 := rfl

/-! ## completeOk -/

@[simp] theorem completeOk_st (s : State) : (s.completeOk).st = .idle := rfl

@[simp] theorem completeOk_cmd (s : State) : (s.completeOk).cmd = Cmd.ofCode (Config.freeCmd s.draws) := rfl

@[simp] theorem completeOk_len (s : State) : (s.completeOk).len = Config.freeLen s.draws := rfl

@[simp] theorem completeOk_drum (s : State) : (s.completeOk).drum = Config.freeDrum s.draws := rfl

@[simp] theorem completeOk_block (s : State) : (s.completeOk).block = Config.freeBlock s.draws := rfl

@[simp] theorem completeOk_count (s : State) : (s.completeOk).count = Config.freeCount s.draws := rfl

@[simp] theorem completeOk_idx (s : State) : (s.completeOk).idx = BitVec.ofNat 9 (Config.freeIdx s.draws).val := rfl

@[simp] theorem completeOk_buf (s : State) : (s.completeOk).buf = Vector.ofFn fun i => Config.freeBufByte s.draws i.val := rfl

@[simp] theorem completeOk_status (s : State) : (s.completeOk).status = .ok := rfl

@[simp] theorem completeOk_params (s : State) : (s.completeOk).params = s.params := rfl

@[simp] theorem completeOk_dev (s : State) : (s.completeOk).dev = s.dev := rfl

@[simp] theorem completeOk_host (s : State) : (s.completeOk).host = s.host := rfl

@[simp] theorem completeOk_resetLine (s : State) : (s.completeOk).resetLine = s.resetLine := rfl

@[simp] theorem completeOk_trace (s : State) : (s.completeOk).trace = s.trace ++ [.completion .ok] := rfl

@[simp] theorem completeOk_draws (s : State) : (s.completeOk).draws = s.draws + 1 := rfl

/-! ## raise -/

@[simp] theorem raise_st (s : State) (e : ErrorKind) : (s.raise e).st = .idle := rfl

@[simp] theorem raise_cmd (s : State) (e : ErrorKind) : (s.raise e).cmd = Cmd.ofCode (Config.freeCmd s.draws) := rfl

@[simp] theorem raise_len (s : State) (e : ErrorKind) : (s.raise e).len = Config.freeLen s.draws := rfl

@[simp] theorem raise_drum (s : State) (e : ErrorKind) : (s.raise e).drum = Config.freeDrum s.draws := rfl

@[simp] theorem raise_block (s : State) (e : ErrorKind) : (s.raise e).block = Config.freeBlock s.draws := rfl

@[simp] theorem raise_count (s : State) (e : ErrorKind) : (s.raise e).count = Config.freeCount s.draws := rfl

@[simp] theorem raise_idx (s : State) (e : ErrorKind) : (s.raise e).idx = BitVec.ofNat 9 (Config.freeIdx s.draws).val := rfl

@[simp] theorem raise_buf (s : State) (e : ErrorKind) : (s.raise e).buf = Vector.ofFn fun i => Config.freeBufByte s.draws i.val := rfl

@[simp] theorem raise_status (s : State) (e : ErrorKind) : (s.raise e).status = e.status := rfl

@[simp] theorem raise_params (s : State) (e : ErrorKind) : (s.raise e).params = s.params := rfl

@[simp] theorem raise_dev (s : State) (e : ErrorKind) : (s.raise e).dev = s.dev := rfl

@[simp] theorem raise_host (s : State) (e : ErrorKind) : (s.raise e).host = s.host := rfl

@[simp] theorem raise_resetLine (s : State) (e : ErrorKind) : (s.raise e).resetLine = s.resetLine := rfl

@[simp] theorem raise_trace (s : State) (e : ErrorKind) : (s.raise e).trace = s.trace ++ [.completion e.status] := rfl

@[simp] theorem raise_draws (s : State) (e : ErrorKind) : (s.raise e).draws = s.draws + 1 := rfl

/-! ## operated -/

@[simp] theorem operated_st (s : State) (w : Word) (kind : BufKind) (op : DeviceOp) (status : Nat)
    (rest : List Answer) : (s.operated w kind op status rest).st = s.st := rfl

@[simp] theorem operated_cmd (s : State) (w : Word) (kind : BufKind) (op : DeviceOp) (status : Nat)
    (rest : List Answer) : (s.operated w kind op status rest).cmd = s.cmd := rfl

@[simp] theorem operated_len (s : State) (w : Word) (kind : BufKind) (op : DeviceOp) (status : Nat)
    (rest : List Answer) : (s.operated w kind op status rest).len = s.len := rfl

@[simp] theorem operated_drum (s : State) (w : Word) (kind : BufKind) (op : DeviceOp) (status : Nat)
    (rest : List Answer) : (s.operated w kind op status rest).drum = s.drum := rfl

@[simp] theorem operated_block (s : State) (w : Word) (kind : BufKind) (op : DeviceOp) (status : Nat)
    (rest : List Answer) : (s.operated w kind op status rest).block = s.block := rfl

@[simp] theorem operated_count (s : State) (w : Word) (kind : BufKind) (op : DeviceOp) (status : Nat)
    (rest : List Answer) : (s.operated w kind op status rest).count = s.count := rfl

@[simp] theorem operated_idx (s : State) (w : Word) (kind : BufKind) (op : DeviceOp) (status : Nat)
    (rest : List Answer) : (s.operated w kind op status rest).idx = s.idx := rfl

@[simp] theorem operated_buf (s : State) (w : Word) (kind : BufKind) (op : DeviceOp) (status : Nat)
    (rest : List Answer) : (s.operated w kind op status rest).buf = s.buf := rfl

@[simp] theorem operated_status (s : State) (w : Word) (kind : BufKind) (op : DeviceOp) (status : Nat)
    (rest : List Answer) : (s.operated w kind op status rest).status = s.status := rfl

@[simp] theorem operated_params (s : State) (w : Word) (kind : BufKind) (op : DeviceOp) (status : Nat)
    (rest : List Answer) : (s.operated w kind op status rest).params = s.params := rfl

@[simp] theorem operated_host (s : State) (w : Word) (kind : BufKind) (op : DeviceOp) (status : Nat)
    (rest : List Answer) : (s.operated w kind op status rest).host = s.host := rfl

@[simp] theorem operated_resetLine (s : State) (w : Word) (kind : BufKind) (op : DeviceOp) (status : Nat)
    (rest : List Answer) : (s.operated w kind op status rest).resetLine = s.resetLine := rfl

@[simp] theorem operated_trace (s : State) (w : Word) (kind : BufKind) (op : DeviceOp) (status : Nat)
    (rest : List Answer) : (s.operated w kind op status rest).trace = s.trace ++ [.devOp w kind (if kind = .drain then some s.buf else none) status] := rfl

@[simp] theorem operated_draws (s : State) (w : Word) (kind : BufKind) (op : DeviceOp) (status : Nat)
    (rest : List Answer) : (s.operated w kind op status rest).draws = s.draws + 1 := rfl

/-! ## acceptMount -/

@[simp] theorem acceptMount_st (s : State) (c : Cmd) (a l : Word) : (s.acceptMount c a l).st = .mnt := rfl

@[simp] theorem acceptMount_cmd (s : State) (c : Cmd) (a l : Word) : (s.acceptMount c a l).cmd = c := rfl

@[simp] theorem acceptMount_len (s : State) (c : Cmd) (a l : Word) : (s.acceptMount c a l).len = s.len := rfl

@[simp] theorem acceptMount_drum (s : State) (c : Cmd) (a l : Word) : (s.acceptMount c a l).drum = s.drum := rfl

@[simp] theorem acceptMount_block (s : State) (c : Cmd) (a l : Word) : (s.acceptMount c a l).block = s.block := rfl

@[simp] theorem acceptMount_count (s : State) (c : Cmd) (a l : Word) : (s.acceptMount c a l).count = s.count := rfl

@[simp] theorem acceptMount_idx (s : State) (c : Cmd) (a l : Word) : (s.acceptMount c a l).idx = s.idx := rfl

@[simp] theorem acceptMount_buf (s : State) (c : Cmd) (a l : Word) : (s.acceptMount c a l).buf = s.buf := rfl

@[simp] theorem acceptMount_status (s : State) (c : Cmd) (a l : Word) : (s.acceptMount c a l).status = s.status := rfl

@[simp] theorem acceptMount_params (s : State) (c : Cmd) (a l : Word) : (s.acceptMount c a l).params = s.params := rfl

@[simp] theorem acceptMount_dev (s : State) (c : Cmd) (a l : Word) : (s.acceptMount c a l).dev = s.dev := rfl

@[simp] theorem acceptMount_host (s : State) (c : Cmd) (a l : Word) : (s.acceptMount c a l).host = s.host := rfl

@[simp] theorem acceptMount_resetLine (s : State) (c : Cmd) (a l : Word) : (s.acceptMount c a l).resetLine = s.resetLine := rfl

@[simp] theorem acceptMount_trace (s : State) (c : Cmd) (a l : Word) : (s.acceptMount c a l).trace = s.trace ++ [.command c a l] := rfl

@[simp] theorem acceptMount_draws (s : State) (c : Cmd) (a l : Word) : (s.acceptMount c a l).draws = s.draws := rfl

/-! ## loadCursor -/

@[simp] theorem loadCursor_st (s : State) (d : BitVec 4) (b o : BitVec 8) (l : Word) : (s.loadCursor d b o l).st = s.st := rfl

@[simp] theorem loadCursor_cmd (s : State) (d : BitVec 4) (b o : BitVec 8) (l : Word) : (s.loadCursor d b o l).cmd = s.cmd := rfl

@[simp] theorem loadCursor_len (s : State) (d : BitVec 4) (b o : BitVec 8) (l : Word) : (s.loadCursor d b o l).len = l := rfl

@[simp] theorem loadCursor_drum (s : State) (d : BitVec 4) (b o : BitVec 8) (l : Word) : (s.loadCursor d b o l).drum = d := rfl

@[simp] theorem loadCursor_block (s : State) (d : BitVec 4) (b o : BitVec 8) (l : Word) : (s.loadCursor d b o l).block = b := rfl

@[simp] theorem loadCursor_count (s : State) (d : BitVec 4) (b o : BitVec 8) (l : Word) : (s.loadCursor d b o l).count = 0 := rfl

@[simp] theorem loadCursor_idx (s : State) (d : BitVec 4) (b o : BitVec 8) (l : Word) : (s.loadCursor d b o l).idx = o.zeroExtend 9 := rfl

@[simp] theorem loadCursor_buf (s : State) (d : BitVec 4) (b o : BitVec 8) (l : Word) : (s.loadCursor d b o l).buf = s.buf := rfl

@[simp] theorem loadCursor_status (s : State) (d : BitVec 4) (b o : BitVec 8) (l : Word) : (s.loadCursor d b o l).status = s.status := rfl

@[simp] theorem loadCursor_params (s : State) (d : BitVec 4) (b o : BitVec 8) (l : Word) : (s.loadCursor d b o l).params = s.params := rfl

@[simp] theorem loadCursor_dev (s : State) (d : BitVec 4) (b o : BitVec 8) (l : Word) : (s.loadCursor d b o l).dev = s.dev := rfl

@[simp] theorem loadCursor_host (s : State) (d : BitVec 4) (b o : BitVec 8) (l : Word) : (s.loadCursor d b o l).host = s.host := rfl

@[simp] theorem loadCursor_resetLine (s : State) (d : BitVec 4) (b o : BitVec 8) (l : Word) : (s.loadCursor d b o l).resetLine = s.resetLine := rfl

@[simp] theorem loadCursor_trace (s : State) (d : BitVec 4) (b o : BitVec 8) (l : Word) : (s.loadCursor d b o l).trace = s.trace := rfl

@[simp] theorem loadCursor_draws (s : State) (d : BitVec 4) (b o : BitVec 8) (l : Word) : (s.loadCursor d b o l).draws = s.draws := rfl

/-! ## bumpCursor -/

@[simp] theorem bumpCursor_st (s : State) : (s.bumpCursor).st = s.st := rfl

@[simp] theorem bumpCursor_cmd (s : State) : (s.bumpCursor).cmd = s.cmd := rfl

@[simp] theorem bumpCursor_len (s : State) : (s.bumpCursor).len = s.len := rfl

@[simp] theorem bumpCursor_drum (s : State) : (s.bumpCursor).drum = s.drum := rfl

@[simp] theorem bumpCursor_block (s : State) : (s.bumpCursor).block = s.block := rfl

@[simp] theorem bumpCursor_count (s : State) : (s.bumpCursor).count = s.count + BitVec.ofNat 32 s.copyLength := rfl

@[simp] theorem bumpCursor_idx (s : State) : (s.bumpCursor).idx = s.idx + BitVec.ofNat 9 s.copyLength := rfl

@[simp] theorem bumpCursor_buf (s : State) : (s.bumpCursor).buf = s.buf := rfl

@[simp] theorem bumpCursor_status (s : State) : (s.bumpCursor).status = s.status := rfl

@[simp] theorem bumpCursor_params (s : State) : (s.bumpCursor).params = s.params := rfl

@[simp] theorem bumpCursor_dev (s : State) : (s.bumpCursor).dev = s.dev := rfl

@[simp] theorem bumpCursor_host (s : State) : (s.bumpCursor).host = s.host := rfl

@[simp] theorem bumpCursor_resetLine (s : State) : (s.bumpCursor).resetLine = s.resetLine := rfl

@[simp] theorem bumpCursor_trace (s : State) : (s.bumpCursor).trace = s.trace := rfl

@[simp] theorem bumpCursor_draws (s : State) : (s.bumpCursor).draws = s.draws := rfl

/-! ## copyOut -/

@[simp] theorem copyOut_st (s : State) : (s.copyOut).st = s.st := rfl

@[simp] theorem copyOut_cmd (s : State) : (s.copyOut).cmd = s.cmd := rfl

@[simp] theorem copyOut_len (s : State) : (s.copyOut).len = s.len := rfl

@[simp] theorem copyOut_drum (s : State) : (s.copyOut).drum = s.drum := rfl

@[simp] theorem copyOut_block (s : State) : (s.copyOut).block = s.block := rfl

@[simp] theorem copyOut_count (s : State) : (s.copyOut).count = s.count + BitVec.ofNat 32 s.copyLength := rfl

@[simp] theorem copyOut_idx (s : State) : (s.copyOut).idx = s.idx + BitVec.ofNat 9 s.copyLength := rfl

@[simp] theorem copyOut_buf (s : State) : (s.copyOut).buf = s.buf := rfl

@[simp] theorem copyOut_status (s : State) : (s.copyOut).status = s.status := rfl

@[simp] theorem copyOut_params (s : State) : (s.copyOut).params = s.params := rfl

@[simp] theorem copyOut_dev (s : State) : (s.copyOut).dev = s.dev := rfl

@[simp] theorem copyOut_host (s : State) : (s.copyOut).host = { s.host with outs := s.host.outs.deliver s.host.outName s.outgoing s.count.toNat } := rfl

@[simp] theorem copyOut_resetLine (s : State) : (s.copyOut).resetLine = s.resetLine := rfl

@[simp] theorem copyOut_trace (s : State) : (s.copyOut).trace = s.trace ++ hostEvents .outByte s.count s.outgoing := rfl

@[simp] theorem copyOut_draws (s : State) : (s.copyOut).draws = s.draws := rfl

/-! ## copyIn -/

@[simp] theorem copyIn_st (s : State) : (s.copyIn).st = s.st := rfl

@[simp] theorem copyIn_cmd (s : State) : (s.copyIn).cmd = s.cmd := rfl

@[simp] theorem copyIn_len (s : State) : (s.copyIn).len = s.len := rfl

@[simp] theorem copyIn_drum (s : State) : (s.copyIn).drum = s.drum := rfl

@[simp] theorem copyIn_block (s : State) : (s.copyIn).block = s.block := rfl

@[simp] theorem copyIn_count (s : State) : (s.copyIn).count = s.count + BitVec.ofNat 32 s.copyLength := rfl

@[simp] theorem copyIn_idx (s : State) : (s.copyIn).idx = s.idx + BitVec.ofNat 9 s.copyLength := rfl

@[simp] theorem copyIn_status (s : State) : (s.copyIn).status = s.status := rfl

@[simp] theorem copyIn_params (s : State) : (s.copyIn).params = s.params := rfl

@[simp] theorem copyIn_dev (s : State) : (s.copyIn).dev = s.dev := rfl

@[simp] theorem copyIn_host (s : State) : (s.copyIn).host = s.host := rfl

@[simp] theorem copyIn_resetLine (s : State) : (s.copyIn).resetLine = s.resetLine := rfl

@[simp] theorem copyIn_trace (s : State) : (s.copyIn).trace = s.trace ++ hostEvents .inByte s.count s.incoming := rfl

@[simp] theorem copyIn_draws (s : State) : (s.copyIn).draws = s.draws := rfl

/-! ## takeCall -/

@[simp] theorem takeCall_st (s : State) (c : Call) (rest : List Call) : (s.takeCall c rest).st = s.st := rfl

@[simp] theorem takeCall_cmd (s : State) (c : Call) (rest : List Call) : (s.takeCall c rest).cmd = s.cmd := rfl

@[simp] theorem takeCall_len (s : State) (c : Call) (rest : List Call) : (s.takeCall c rest).len = s.len := rfl

@[simp] theorem takeCall_drum (s : State) (c : Call) (rest : List Call) : (s.takeCall c rest).drum = s.drum := rfl

@[simp] theorem takeCall_block (s : State) (c : Call) (rest : List Call) : (s.takeCall c rest).block = s.block := rfl

@[simp] theorem takeCall_count (s : State) (c : Call) (rest : List Call) : (s.takeCall c rest).count = s.count := rfl

@[simp] theorem takeCall_idx (s : State) (c : Call) (rest : List Call) : (s.takeCall c rest).idx = s.idx := rfl

@[simp] theorem takeCall_buf (s : State) (c : Call) (rest : List Call) : (s.takeCall c rest).buf = s.buf := rfl

@[simp] theorem takeCall_status (s : State) (c : Call) (rest : List Call) : (s.takeCall c rest).status = s.status := rfl

@[simp] theorem takeCall_params (s : State) (c : Call) (rest : List Call) : (s.takeCall c rest).params = s.params := rfl

@[simp] theorem takeCall_dev (s : State) (c : Call) (rest : List Call) : (s.takeCall c rest).dev = s.dev := rfl

@[simp] theorem takeCall_host (s : State) (c : Call) (rest : List Call) : (s.takeCall c rest).host = { s.host with calls := rest, inBuf := c.inBuf, outName := c.out } := rfl

@[simp] theorem takeCall_resetLine (s : State) (c : Call) (rest : List Call) : (s.takeCall c rest).resetLine = s.resetLine := rfl

@[simp] theorem takeCall_trace (s : State) (c : Call) (rest : List Call) : (s.takeCall c rest).trace = s.trace := rfl

@[simp] theorem takeCall_draws (s : State) (c : Call) (rest : List Call) : (s.takeCall c rest).draws = s.draws := rfl

/-! ## takeReset -/

@[simp] theorem takeReset_st (s : State) : (s.takeReset).st = .idle := rfl

@[simp] theorem takeReset_cmd (s : State) : (s.takeReset).cmd = Cmd.ofCode (Config.freeCmd s.draws) := rfl

@[simp] theorem takeReset_len (s : State) : (s.takeReset).len = Config.freeLen s.draws := rfl

@[simp] theorem takeReset_drum (s : State) : (s.takeReset).drum = Config.freeDrum s.draws := rfl

@[simp] theorem takeReset_block (s : State) : (s.takeReset).block = Config.freeBlock s.draws := rfl

@[simp] theorem takeReset_count (s : State) : (s.takeReset).count = Config.freeCount s.draws := rfl

@[simp] theorem takeReset_idx (s : State) : (s.takeReset).idx = BitVec.ofNat 9 (Config.freeIdx s.draws).val := rfl

@[simp] theorem takeReset_buf (s : State) : (s.takeReset).buf = Vector.ofFn fun i => Config.freeBufByte s.draws i.val := rfl

@[simp] theorem takeReset_status (s : State) : (s.takeReset).status = .ok := rfl

@[simp] theorem takeReset_params (s : State) : (s.takeReset).params = s.params := rfl

@[simp] theorem takeReset_dev (s : State) : (s.takeReset).dev = s.deviceAfterReset := rfl

@[simp] theorem takeReset_host (s : State) : (s.takeReset).host = s.host := rfl

@[simp] theorem takeReset_resetLine (s : State) : (s.takeReset).resetLine = false := rfl

@[simp] theorem takeReset_trace (s : State) : (s.takeReset).trace = s.trace ++ [.reset] := rfl

@[simp] theorem takeReset_draws (s : State) : (s.takeReset).draws = s.draws + 1 := rfl

/-! ## placePacket -/

@[simp] theorem placePacket_st (s : State) (p : Packet) : (s.placePacket p).st = .idle := rfl

@[simp] theorem placePacket_cmd (s : State) (p : Packet) : (s.placePacket p).cmd = s.cmd := rfl

@[simp] theorem placePacket_len (s : State) (p : Packet) : (s.placePacket p).len = s.len := rfl

@[simp] theorem placePacket_drum (s : State) (p : Packet) : (s.placePacket p).drum = s.drum := rfl

@[simp] theorem placePacket_block (s : State) (p : Packet) : (s.placePacket p).block = s.block := rfl

@[simp] theorem placePacket_count (s : State) (p : Packet) : (s.placePacket p).count = s.count := rfl

@[simp] theorem placePacket_idx (s : State) (p : Packet) : (s.placePacket p).idx = s.idx := rfl

@[simp] theorem placePacket_buf (s : State) (p : Packet) : (s.placePacket p).buf = s.buf := rfl

@[simp] theorem placePacket_status (s : State) (p : Packet) : (s.placePacket p).status = s.status := rfl

@[simp] theorem placePacket_params (s : State) (p : Packet) : (s.placePacket p).params = s.params := rfl

@[simp] theorem placePacket_dev (s : State) (p : Packet) : (s.placePacket p).dev = s.dev := rfl

@[simp] theorem placePacket_host (s : State) (p : Packet) : (s.placePacket p).host = { s.host with calls := ⟨p, s.host.inBuf, s.host.outName⟩ :: s.host.calls.tail } := rfl

@[simp] theorem placePacket_resetLine (s : State) (p : Packet) : (s.placePacket p).resetLine = false := rfl

@[simp] theorem placePacket_trace (s : State) (p : Packet) : (s.placePacket p).trace = s.trace := rfl

@[simp] theorem placePacket_draws (s : State) (p : Packet) : (s.placePacket p).draws = s.draws := rfl

/-! ## What a finished command carries on -/

/-- The end of a command depends on no register of the block (R37, R169). -/
theorem finish_congr {s t : State} (code : Status) (hp : s.params = t.params) (hd : s.dev = t.dev)
    (hh : s.host = t.host) (hr : s.resetLine = t.resetLine) (ht : s.trace = t.trace) (hn : s.draws = t.draws) :
    s.finish code = t.finish code := by
  simp [State.finish, State.discardRegisters, hp, hd, hh, hr, ht, hn]

end Sys2Proof.Machine
end

