-- ==== Sys2Proof/Laws/Gateway.lean ====
section
/-! SUPPORT. What the gateway can do, said once: which operation a word asks for, what an answered operation does to
the device, and the three ways an issuing step goes on. -/

namespace Sys2Proof.Machine

/-! ## The operation of an encoded word -/

section opcodes
variable {p : Config.Params} (h : p.opcodesDistinct = true) (d : BitVec 4) (b : BitVec 8)

theorem deviceOp_mount : deviceOp p (encodeOperation p.opcMount d b) = some .mount := by
  simp [deviceOp]

include h

theorem deviceOp_unmount : deviceOp p (encodeOperation p.opcUnmount d b) = some .unmount := by
  have := (opcodesDistinct_iff p).1 h
  simp [deviceOp, this, Ne.symm]

theorem deviceOp_seekDrum : deviceOp p (encodeOperation p.opcSeekDrum d b) = some .seekDrum := by
  have := (opcodesDistinct_iff p).1 h
  simp [deviceOp, this, Ne.symm]

theorem deviceOp_seekBlock : deviceOp p (encodeOperation p.opcSeekBlock d b) = some .seekBlock := by
  have := (opcodesDistinct_iff p).1 h
  simp [deviceOp, this, Ne.symm]

theorem deviceOp_readBlock : deviceOp p (encodeOperation p.opcReadBlock d b) = some .readBlock := by
  have := (opcodesDistinct_iff p).1 h
  simp [deviceOp, this, Ne.symm]

theorem deviceOp_writeBlock : deviceOp p (encodeOperation p.opcWriteBlock d b) = some .writeBlock := by
  have := (opcodesDistinct_iff p).1 h
  simp [deviceOp, this, Ne.symm]

end opcodes

/-! ## The device -/

@[simp] theorem operated_dev_answers (s : State) (w : Word) (kind : BufKind) (op : DeviceOp) (status : Nat)
    (rest : List Answer) : (s.operated w kind op status rest).dev.answers = rest := rfl

/-- No operation but WRITE_BLOCK changes a stored byte (R92 e, R153). -/
theorem operated_store (s : State) (w : Word) (kind : BufKind) (op : DeviceOp) (status : Nat)
    (rest : List Answer) (h : op ≠ .writeBlock) :
    (s.operated w kind op status rest).dev.store = s.dev.store := by
  simp only [State.operated]
  split <;> cases op <;> first | rfl | exact absurd rfl h

/-- The device after an operation answered with 0. -/
theorem operated_dev_ok (s : State) (w : Word) (kind : BufKind) (op : DeviceOp) (status : Nat)
    (rest : List Answer) (h : statusFailed s.params status = false) :
    (s.operated w kind op status rest).dev =
      { s.dev.succeed op w s.buf s.draws with answers := rest } := by
  simp [State.operated, h]

/-- The device after an operation answered with nonzero. -/
theorem operated_dev_failed (s : State) (w : Word) (kind : BufKind) (op : DeviceOp) (status : Nat)
    (rest : List Answer) (h : statusFailed s.params status = true) :
    (s.operated w kind op status rest).dev = { s.dev.fail op s.draws with answers := rest } := by
  simp [State.operated, h]

/-- Status 0 is success whatever the width. -/
@[simp] theorem statusFailed_zero (c : Config.Params) : statusFailed c 0 = false := by
  simp [statusFailed]

/-! ## An issuing step -/

/-- No answer: the block stays as it is (U9). -/
theorem issue_silent {s : State} {w : Word} {kind : BufKind} {op : DeviceOp} (go : Block → State → State)
    (ho : deviceOp s.params w = some op) (ha : s.dev.nextAnswer = none) : s.issue w kind go = .next s := by
  simp [State.issue, State.devOp, ho, ha]

/-- A nonzero answer: `DeviceFailure` (R162). -/
theorem issue_failed {s : State} {w : Word} {kind : BufKind} {op : DeviceOp} {status : Nat}
    {rest : List Answer} (go : Block → State → State) (ho : deviceOp s.params w = some op)
    (ha : s.dev.nextAnswer = some (status, rest)) (hf : statusFailed s.params status = true) :
    s.issue w kind go = .next ((s.operated w kind op status rest).raise .deviceFailure) := by
  simp [State.issue, State.devOp, ho, ha, hf]

/-- An answer of 0: the step goes on. -/
theorem issue_ok {s : State} {w : Word} {kind : BufKind} {op : DeviceOp} {status : Nat}
    {rest : List Answer} (go : Block → State → State) (ho : deviceOp s.params w = some op)
    (ha : s.dev.nextAnswer = some (status, rest)) (hf : statusFailed s.params status = false) :
    s.issue w kind go =
      .next (go (s.dev.store.readBlock s.dev.position) (s.operated w kind op status rest)) := by
  simp [State.issue, State.devOp, ho, ha, hf]

/-- Everything an issuing step can do, when the word is one of the six operations. -/
theorem issue_cases {s : State} {w : Word} {kind : BufKind} {op : DeviceOp} (go : Block → State → State)
    (ho : deviceOp s.params w = some op) :
    (s.dev.nextAnswer = none ∧ s.issue w kind go = .next s) ∨
    ∃ status rest, s.dev.nextAnswer = some (status, rest) ∧
      ((statusFailed s.params status = true ∧
          s.issue w kind go = .next ((s.operated w kind op status rest).raise .deviceFailure)) ∨
        (statusFailed s.params status = false ∧
          s.issue w kind go =
            .next (go (s.dev.store.readBlock s.dev.position) (s.operated w kind op status rest)))) := by
  cases ha : s.dev.nextAnswer with
  | none => exact .inl ⟨rfl, issue_silent go ho ha⟩
  | some a =>
    obtain ⟨status, rest⟩ := a
    refine .inr ⟨status, rest, rfl, ?_⟩
    cases hf : statusFailed s.params status with
    | true => exact .inl ⟨rfl, issue_failed go ho ha hf⟩
    | false => exact .inr ⟨rfl, issue_ok go ho ha hf⟩

/-- Every issuing step that answers a next state, whatever the parameters. -/
theorem issue_next {s t : State} {w : Word} {kind : BufKind} {go : Block → State → State}
    (h : s.issue w kind go = .next t) :
    t = s ∨ ∃ op status rest, deviceOp s.params w = some op ∧ s.dev.nextAnswer = some (status, rest) ∧
      ((statusFailed s.params status = true ∧ t = (s.operated w kind op status rest).raise .deviceFailure) ∨
        (statusFailed s.params status = false ∧
          t = go (s.dev.store.readBlock s.dev.position) (s.operated w kind op status rest))) := by
  cases ho : deviceOp s.params w with
  | none => simp [State.issue, State.devOp, ho] at h
  | some op =>
    rcases issue_cases (kind := kind) go ho with ⟨-, h'⟩ | ⟨status, rest, ha, h'⟩
    · rw [h] at h'; exact .inl (by simpa using h')
    · refine .inr ⟨op, status, rest, rfl, ha, ?_⟩
      rcases h' with ⟨hf, h'⟩ | ⟨hf, h'⟩
      · rw [h] at h'; exact .inl ⟨hf, by simpa using h'⟩
      · rw [h] at h'; exact .inr ⟨hf, by simpa using h'⟩

/-- The device that has no scripted answer left is ideal: it answers 0. -/
theorem nextAnswer_ideal {dev : Device} (h : dev.answers = []) : dev.nextAnswer = some (0, []) := by
  simp [Device.nextAnswer, h]

/-- The device that answers everything answers. -/
theorem nextAnswer_responsive {dev : Device} (h : Answer.never ∉ dev.answers) :
    ∃ status rest, dev.nextAnswer = some (status, rest) ∧ Answer.never ∉ rest := by
  unfold Device.nextAnswer
  cases ha : dev.answers with
  | nil => exact ⟨0, [], rfl, by simp⟩
  | cons a rest =>
    rw [ha] at h
    cases a with
    | reply status => exact ⟨status, rest, rfl, fun hm => h (List.mem_cons_of_mem _ hm)⟩
    | never => exact absurd List.mem_cons_self h

end Sys2Proof.Machine
end

