-- ==== Sys2Proof/Laws/Memory.lean ====
section
/-! SUPPORT. What the device store and the `out` buffers do: a read after a write, what a write leaves alone, and
that every operation keeps the canonical form. -/

namespace Sys2Proof.Machine

theorem blockSize_eq : Config.blockSize = 256 := rfl

/-! ## Looking an entry up -/

@[simp] theorem lookupCell_nil {α : Type} (a : Nat) : lookupCell ([] : List (Nat × α)) a = none := rfl

theorem lookupCell_cons {α : Type} (c : Nat × α) (m : List (Nat × α)) (a : Nat) :
    lookupCell (c :: m) a = if c.1 = a then some c.2 else lookupCell m a := rfl

theorem lookupCell_append {α : Type} (m n : List (Nat × α)) (a : Nat) :
    lookupCell (m ++ n) a = (lookupCell m a).or (lookupCell n a) := by
  induction m with
  | nil => simp
  | cons c m ih => simp only [List.cons_append, lookupCell_cons]; split <;> simp_all

theorem lookupCell_eq_none {α : Type} (m : List (Nat × α)) (a : Nat) (h : ∀ c ∈ m, c.1 ≠ a) : lookupCell m a = none := by
  induction m with
  | nil => rfl
  | cons c m ih => simp_all [lookupCell_cons]

theorem lookupCell_filter_of_keeps {α : Type} (m : List (Nat × α)) (p : Nat × α → Bool) (a : Nat)
    (h : ∀ v, p (a, v) = true) : lookupCell (m.filter p) a = lookupCell m a := by
  induction m with
  | nil => rfl
  | cons c m ih =>
    obtain ⟨k, v⟩ := c
    by_cases hk : k = a
    · subst hk; simp [lookupCell_cons, h v]
    · by_cases hp : p (k, v) <;> simp [lookupCell_cons, hp, hk, ih]

/-! ## The cells of a run of bytes -/

theorem mem_cells_bounds (data : List Byte) (base : Nat) :
    ∀ c ∈ Memory.cells base data, base ≤ c.1 ∧ c.1 < base + data.length ∧ c.2 ≠ Memory.unlisted := by
  induction data generalizing base with
  | nil => simp [Memory.cells]
  | cons v data ih =>
    intro c hc
    simp only [Memory.cells] at hc
    split at hc
    · have := ih (base + 1) c hc
      simp only [List.length_cons]
      exact ⟨by omega, by omega, this.2.2⟩
    · rcases List.mem_cons.1 hc with rfl | hc
      · simp_all
      · have := ih (base + 1) c hc
        simp only [List.length_cons]
        exact ⟨by omega, by omega, this.2.2⟩

theorem cells_ascending (data : List Byte) (base : Nat) :
    (Memory.cells base data).Pairwise (fun a b => a.1 < b.1) := by
  induction data generalizing base with
  | nil => simp [Memory.cells]
  | cons v data ih =>
    simp only [Memory.cells]
    split
    · exact ih _
    · exact List.pairwise_cons.2 ⟨fun c hc => by have := mem_cells_bounds _ _ c hc; simp only; omega, ih _⟩

theorem lookupCell_cells (data : List Byte) (base i : Nat) (hi : i < data.length) :
    (lookupCell (Memory.cells base data) (base + i)).getD Memory.unlisted = data[i] := by
  induction data generalizing base i with
  | nil => simp at hi
  | cons v data ih =>
    cases i with
    | zero =>
      simp only [Memory.cells]
      split
      · rename_i h
        rw [lookupCell_eq_none _ _ fun c hc => by have := mem_cells_bounds _ _ c hc; omega]
        simp [h]
      · simp [lookupCell_cons]
    | succ i =>
      have := ih (base + 1) i (by simpa using hi)
      simp only [Memory.cells]
      split
      · rw [show base + (i + 1) = base + 1 + i by omega]; simpa using this
      · rw [lookupCell_cons, if_neg (by simp only; omega), show base + (i + 1) = base + 1 + i by omega]
        simpa using this

/-! ## The device store -/

theorem lookupCell_below (m : Memory) (base a : Nat) (h : base ≤ a) :
    lookupCell (m.filter fun c => c.1 < base) a = none :=
  lookupCell_eq_none _ _ fun c hc => by
    have := (List.mem_filter.1 hc).2
    simp only [decide_eq_true_eq] at this
    omega

theorem lookupCell_above (m : Memory) (base a : Nat) (h : a < base + 256) :
    lookupCell (m.filter fun c => base + Config.blockSize ≤ c.1) a = none :=
  lookupCell_eq_none _ _ fun c hc => by
    have := (List.mem_filter.1 hc).2
    simp only [decide_eq_true_eq] at this
    rw [blockSize_eq] at this
    omega

/-- A read inside a block just written gives the byte written. -/
theorem read_writeBlock_inside (m : Memory) (base : Nat) (data : Block) (i : Nat) (hi : i < 256) :
    (m.writeBlock base data).read (base + i) = data[i] := by
  have hcells := lookupCell_cells data.toList base i (by simpa using hi)
  simp only [Vector.getElem_toList] at hcells
  rw [← hcells, Memory.read, Memory.writeBlock, lookupCell_append, lookupCell_append,
    lookupCell_below _ _ _ (by omega), lookupCell_above _ _ _ (by omega)]
  simp

/-- A read outside a block just written gives what it gave before. -/
theorem read_writeBlock_outside (m : Memory) (base : Nat) (data : Block) (a : Nat)
    (h : a < base ∨ base + 256 ≤ a) : (m.writeBlock base data).read a = m.read a := by
  have hcells : lookupCell (Memory.cells base data.toList) a = none :=
    lookupCell_eq_none _ a fun c hc => by
      have := mem_cells_bounds _ _ c hc
      simp only [Vector.length_toList] at this
      omega
  rw [Memory.read, Memory.writeBlock, lookupCell_append, lookupCell_append, hcells]
  rcases h with h | h
  · rw [lookupCell_filter_of_keeps m (fun c => decide (c.1 < base)) a (by simp [h]),
      lookupCell_above _ _ _ (by omega)]
    simp [Memory.read]
  · rw [lookupCell_filter_of_keeps m (fun c => decide (base + Config.blockSize ≤ c.1)) a
      (by simp [Config.blockSize, h]), lookupCell_below _ _ _ (by omega)]
    simp [Memory.read]

/-- Both together: what a byte reads as after a block write. -/
theorem read_writeBlock (m : Memory) (base : Nat) (data : Block) (a : Nat) :
    (m.writeBlock base data).read a =
      if h : base ≤ a ∧ a < base + 256 then data[a - base] else m.read a := by
  split
  · rename_i h
    have := read_writeBlock_inside m base data (a - base) (by omega)
    rwa [show base + (a - base) = a by omega] at this
  · exact read_writeBlock_outside m base data a (by omega)

/-- A block write inside the array keeps the canonical form. -/
theorem writeBlock_wf (m : Memory) (base : Nat) (data : Block) (hm : m.wf)
    (hb : base + 256 ≤ Config.capacity) : (m.writeBlock base data).wf := by
  refine ⟨?_, ?_⟩
  · unfold Memory.writeBlock
    refine List.pairwise_append.2 ⟨List.pairwise_append.2
      ⟨hm.1.filter _, cells_ascending _ _, ?_⟩, hm.1.filter _, ?_⟩
    · intro x hx y hy
      have h1 := (List.mem_filter.1 hx).2
      have h2 := mem_cells_bounds _ _ y hy
      simp only [decide_eq_true_eq] at h1
      omega
    · intro x hx y hy
      have h2 := (List.mem_filter.1 hy).2
      simp only [decide_eq_true_eq] at h2
      rw [blockSize_eq] at h2
      rcases List.mem_append.1 hx with hx | hx
      · have h1 := (List.mem_filter.1 hx).2
        simp only [decide_eq_true_eq] at h1
        omega
      · have h1 := mem_cells_bounds _ _ x hx
        simp only [Vector.length_toList] at h1
        omega
  · intro c hc
    simp only [Memory.writeBlock, List.mem_append, List.mem_filter] at hc
    rcases hc with (hc | hc) | hc
    · exact hm.2 c hc.1
    · have := mem_cells_bounds _ _ c hc
      simp only [Vector.length_toList] at this
      exact ⟨by omega, this.2.2⟩
    · exact hm.2 c hc.1

@[simp] theorem getElem_readBlock (m : Memory) (base i : Nat) (hi : i < 256) :
    (m.readBlock base)[i] = m.read (base + i) := by
  simp [Memory.readBlock]

/-- The linear address of a block of the array leaves room for its 256 bytes. -/
theorem linearAddress_bound (drum : BitVec 4) (block : BitVec 8) :
    linearAddress drum block 0 + 256 ≤ Config.capacity := by
  have hd := drum.isLt
  have hb := block.isLt
  simp only [linearAddress, Config.capacity]
  omega

/-! ## One `out` buffer -/

@[simp] theorem get_put_same (m : OutBuf) (i : Nat) (v : Byte) : (m.put i v).get i = some v := by
  induction m with
  | nil => simp [OutBuf.put, OutBuf.get, lookupCell_cons]
  | cons c m ih =>
    obtain ⟨k, u⟩ := c
    simp only [OutBuf.put]
    split
    · simp [OutBuf.get, lookupCell_cons]
    · split
      · simp [OutBuf.get, lookupCell_cons]
      · rename_i h1 h2
        simpa [OutBuf.get, lookupCell_cons, Ne.symm h2] using ih

theorem get_put_other (m : OutBuf) (i j : Nat) (v : Byte) (h : j ≠ i) : (m.put i v).get j = m.get j := by
  induction m with
  | nil => simp [OutBuf.put, OutBuf.get, lookupCell_cons, Ne.symm h]
  | cons c m ih =>
    obtain ⟨k, u⟩ := c
    simp only [OutBuf.put]
    split
    · simp [OutBuf.get, lookupCell_cons, Ne.symm h]
    · split
      · rename_i h2; subst h2; simp [OutBuf.get, lookupCell_cons, Ne.symm h]
      · simp only [OutBuf.get, lookupCell_cons] at ih ⊢
        split <;> simp_all

theorem mem_put_bounds (m : OutBuf) (i : Nat) (v : Byte) :
    ∀ c ∈ m.put i v, c = (i, v) ∨ c ∈ m := by
  induction m with
  | nil => simp [OutBuf.put]
  | cons d m ih =>
    obtain ⟨k, u⟩ := d
    intro c hc
    simp only [OutBuf.put] at hc
    split at hc
    · simpa using hc
    · split at hc
      · rcases List.mem_cons.1 hc with h | h <;> simp [h]
      · rcases List.mem_cons.1 hc with h | h
        · simp [h]
        · rcases ih c h with h | h <;> simp [h]

/-- One delivered byte keeps the canonical form. -/
theorem put_wf (m : OutBuf) (i : Nat) (v : Byte) (hm : m.wf) (hi : i < 2 ^ 32) : (m.put i v).wf := by
  refine ⟨?_, fun c hc => ?_⟩
  · replace hm := hm.1
    induction m with
    | nil => simp [OutBuf.put]
    | cons d m ih =>
      obtain ⟨k, u⟩ := d
      obtain ⟨hk, hrest⟩ := List.pairwise_cons.1 hm
      simp only [OutBuf.put]
      split
      · rename_i h
        exact List.pairwise_cons.2 ⟨fun c hc => by
          rcases List.mem_cons.1 hc with rfl | hc
          · exact h
          · have := hk c hc; simp only at this ⊢; omega, hm⟩
      · split
        · rename_i h; subst h; exact List.pairwise_cons.2 ⟨hk, hrest⟩
        · refine List.pairwise_cons.2 ⟨fun c hc => ?_, ih hrest⟩
          rcases mem_put_bounds m i v c hc with rfl | hc
          · simp only; omega
          · exact hk c hc
  · rcases mem_put_bounds m i v c hc with rfl | hc
    · exact hi
    · exact hm.2 c hc

/-- What an index holds after a run of bytes was delivered from `i` on. -/
theorem get_deliver (bytes : List Byte) (i : Nat) (m : OutBuf) (j : Nat) :
    (m.deliver bytes i).get j =
      if i ≤ j ∧ j < i + bytes.length then bytes[j - i]? else m.get j := by
  induction bytes generalizing i m with
  | nil => simp [OutBuf.deliver]
  | cons v bytes ih =>
    rw [OutBuf.deliver, ih]
    by_cases hji : j = i
    · subst hji; simp
    · by_cases h : i + 1 ≤ j ∧ j < i + 1 + bytes.length
      · rw [if_pos h, if_pos (by simp only [List.length_cons]; omega)]
        rw [show j - i = (j - (i + 1)) + 1 by omega]; simp
      · rw [if_neg h, if_neg (by simp only [List.length_cons]; omega)]
        exact get_put_other m i j v hji

/-- Delivering a run of bytes inside the 32-bit index space keeps the canonical form. -/
theorem deliver_wf (bytes : List Byte) (i : Nat) (m : OutBuf) (hm : m.wf) (hi : i + bytes.length ≤ 2 ^ 32) :
    (m.deliver bytes i).wf := by
  induction bytes generalizing i m with
  | nil => simpa [OutBuf.deliver] using hm
  | cons v bytes ih =>
    simp only [List.length_cons] at hi
    exact ih (i + 1) _ (put_wf m i v hm (by omega)) (by omega)

/-! ## The `out` buffers by name -/

@[simp] theorem find_set_same (bs : OutBuffers) (name : Nat) (m : OutBuf) : (bs.set name m).find name = m := by
  have low : lookupCell (bs.filter fun b => b.1 < name) name = none :=
    lookupCell_eq_none _ _ fun b hb => by
      have := (List.mem_filter.1 hb).2
      simp only [decide_eq_true_eq] at this
      omega
  have high : lookupCell (bs.filter fun b => name < b.1) name = none :=
    lookupCell_eq_none _ _ fun b hb => by
      have := (List.mem_filter.1 hb).2
      simp only [decide_eq_true_eq] at this
      omega
  rw [OutBuffers.find, OutBuffers.set, lookupCell_append, lookupCell_append, low, high]
  split <;> simp_all [lookupCell_cons]

/-- Replacing one buffer leaves every other one as it was. -/
theorem find_set_other (bs : OutBuffers) (name other : Nat) (m : OutBuf) (h : other ≠ name) :
    (bs.set name m).find other = bs.find other := by
  have mid : lookupCell (if m = [] then [] else [(name, m)]) other = none :=
    lookupCell_eq_none _ _ fun b hb => by split at hb <;> simp_all [Ne.symm h]
  rw [OutBuffers.find, OutBuffers.set, lookupCell_append, lookupCell_append, mid]
  rcases Nat.lt_or_gt_of_ne h with h | h
  · rw [lookupCell_filter_of_keeps bs (fun b => decide (b.1 < name)) other (by simp [h]),
      lookupCell_eq_none (bs.filter fun b => name < b.1) other fun b hb => by
        have := (List.mem_filter.1 hb).2
        simp only [decide_eq_true_eq] at this
        omega]
    simp [OutBuffers.find]
  · rw [lookupCell_filter_of_keeps bs (fun b => decide (name < b.1)) other (by simp [h]),
      lookupCell_eq_none (bs.filter fun b => b.1 < name) other fun b hb => by
        have := (List.mem_filter.1 hb).2
        simp only [decide_eq_true_eq] at this
        omega]
    simp [OutBuffers.find]

/-- Replacing a buffer by one in canonical form keeps the canonical form of all. -/
theorem set_wf (bs : OutBuffers) (name : Nat) (m : OutBuf) (hbs : bs.wf) (hm : m.wf) : (bs.set name m).wf := by
  have mid : ∀ b ∈ (if m = [] then [] else [(name, m)] : OutBuffers), b = (name, m) ∧ m ≠ [] := fun b hb => by
    split at hb <;> simp_all
  refine ⟨List.pairwise_append.2 ⟨List.pairwise_append.2 ⟨hbs.1.filter _, by split <;> simp, ?_⟩, hbs.1.filter _, ?_⟩,
    fun b hb => ?_⟩
  · intro x hx y hy
    have h1 := (List.mem_filter.1 hx).2
    simp only [decide_eq_true_eq] at h1
    rwa [(mid y hy).1]
  · intro x hx y hy
    have h2 := (List.mem_filter.1 hy).2
    simp only [decide_eq_true_eq] at h2
    rcases List.mem_append.1 hx with hx | hx
    · have h1 := (List.mem_filter.1 hx).2
      simp only [decide_eq_true_eq] at h1
      omega
    · rwa [(mid x hx).1]
  · simp only [OutBuffers.set, List.mem_append, List.mem_filter] at hb
    rcases hb with (hb | hb) | hb
    · exact hbs.2 b hb.1
    · obtain ⟨rfl, hne⟩ := mid b hb
      exact ⟨hne, hm⟩
    · exact hbs.2 b hb.1

/-- The buffer of a name is in canonical form when all are. -/
theorem find_wf (bs : OutBuffers) (name : Nat) (h : bs.wf) : (bs.find name).wf := by
  induction bs with
  | nil => exact ⟨List.Pairwise.nil, fun _ hc => nomatch hc⟩
  | cons b bs ih =>
    by_cases hb : b.1 = name
    · simpa [OutBuffers.find, lookupCell_cons, hb] using (h.2 b (by simp)).2
    · simpa [OutBuffers.find, lookupCell_cons, hb] using
        ih ⟨(List.pairwise_cons.1 h.1).2, fun c hc => h.2 c (List.mem_cons_of_mem b hc)⟩

/-- What an index of a named buffer holds after a run of bytes was delivered to one of them (R55, R73, R127). -/
theorem get_deliverTo (bs : OutBuffers) (name : Nat) (bytes : List Byte) (i n j : Nat) :
    (bs.deliver name bytes i).get n j =
      if n = name ∧ i ≤ j ∧ j < i + bytes.length then bytes[j - i]? else bs.get n j := by
  by_cases hn : n = name
  · subst hn
    simp [OutBuffers.get, OutBuffers.deliver, get_deliver]
  · simp [OutBuffers.get, OutBuffers.deliver, find_set_other _ _ _ _ hn, hn]

/-- Delivering a run of bytes inside the 32-bit index space keeps the canonical form. -/
theorem deliverTo_wf (bs : OutBuffers) (name : Nat) (bytes : List Byte) (i : Nat) (h : bs.wf)
    (hi : i + bytes.length ≤ 2 ^ 32) : (bs.deliver name bytes i).wf :=
  set_wf _ _ _ h (deliver_wf bytes i _ (find_wf bs name h) hi)

end Sys2Proof.Machine
end

