-- ==== Sys2Proof/Laws/PerInstr.lean ====
section
/-! SUPPORT. Lemmas made instruction by instruction. -/

namespace Sys2Proof.Laws.FrameShape

/-- What the encoding of an instruction looks like under any opcode numbers: a packet has the command's `cmd_op` and
fields (R66, R67); a word has zeros in bits 21..8 and an opcode field that is one of the six (R65, R70). -/
def Statement (i : Instr) : Prop :=
  ∀ c : Config.Params,
    match encode c i with
    | .packet p => decodePacket p = i
    | .word w => wordReserved w = 0 ∧ wordOpcode w ∈ c.opcodes

theorem cmdMount (addr len : BitVec 32) : Statement (.cmdMount addr len) := fun c => by
  simp [encode, decodePacket]

theorem cmdUnmount (addr len : BitVec 32) : Statement (.cmdUnmount addr len) := fun c => by
  simp [encode, decodePacket]

theorem cmdRead (addr len : BitVec 32) : Statement (.cmdRead addr len) := fun c => by
  simp [encode, decodePacket]

theorem cmdWrite (addr len : BitVec 32) : Statement (.cmdWrite addr len) := fun c => by
  simp [encode, decodePacket]

theorem mount : Statement .mount := fun c => by
  simp [encode, Config.Params.opcodes]

theorem unmount : Statement .unmount := fun c => by
  simp [encode, Config.Params.opcodes]

theorem seekDrum (drum : BitVec 4) (block : BitVec 8) : Statement (.seekDrum drum block) := fun c => by
  simp [encode, Config.Params.opcodes]

theorem seekBlock (drum : BitVec 4) (block : BitVec 8) : Statement (.seekBlock drum block) := fun c => by
  simp [encode, Config.Params.opcodes]

theorem readBlock (drum : BitVec 4) (block : BitVec 8) : Statement (.readBlock drum block) := fun c => by
  simp [encode, Config.Params.opcodes]

theorem writeBlock (drum : BitVec 4) (block : BitVec 8) : Statement (.writeBlock drum block) := fun c => by
  simp [encode, Config.Params.opcodes]

end Sys2Proof.Laws.FrameShape
end

