-- ==== Sys2Proof/Laws/Step.lean ====
section
/-! SUPPORT. One equation of `step` per FSM state, the rows of R31; and from them, said once, everything a step
that answers a next state can have done. -/

namespace Sys2Proof.Machine

variable {s : State}

theorem step_reset (hr : s.resetLine = true) : step s = .next s.takeReset := by
  simp [step, hr]

theorem step_idle_none (hr : s.resetLine = false) (h : s.st = .idle) (hc : s.host.calls = []) :
    step s = .next s := by
  simp [step, hr, State.fetch, h, hc, State.internalStep]

theorem step_idle_call {c : Call} {rest : List Call} (hr : s.resetLine = false) (h : s.st = .idle)
    (hc : s.host.calls = c :: rest) : step s = exec (decodePacket c.packet) (s.takeCall c rest) := by
  simp [step, hr, State.fetch, h, hc]

theorem step_mnt (hr : s.resetLine = false) (h : s.st = .mnt) :
    step s =
      s.issue (encodeOperation (if s.cmd = .mount then s.params.opcMount else s.params.opcUnmount) 0 0) .noBuf
        fun _ t => t.completeOk := by
  by_cases hm : s.cmd = .mount <;>
    simp [step, hr, State.fetch, h, State.issued, hm, exec, execMount, execUnmount]

theorem step_seekD (hr : s.resetLine = false) (h : s.st = .seekD) :
    step s =
      s.issue (encodeOperation s.params.opcSeekDrum s.drum s.block) .noBuf
        fun _ t => { t with st := .seekB } := by
  simp [step, hr, State.fetch, h, State.issued, exec, execSeekDrum]

theorem step_seekB (hr : s.resetLine = false) (h : s.st = .seekB) :
    step s =
      s.issue (encodeOperation s.params.opcSeekBlock s.drum s.block) .noBuf
        fun _ t => { t with st := .rdblk } := by
  simp [step, hr, State.fetch, h, State.issued, exec, execSeekBlock]

theorem step_rdblk (hr : s.resetLine = false) (h : s.st = .rdblk) :
    step s =
      s.issue (encodeOperation s.params.opcReadBlock s.drum s.block) .fill
        fun data t => { t with buf := data, st := .copy } := by
  simp [step, hr, State.fetch, h, State.issued, exec, execReadBlock]

theorem step_copy (hr : s.resetLine = false) (h : s.st = .copy) : step s = s.copyStep := by
  simp [step, hr, State.fetch, h, State.internalStep]

theorem step_seekB2 (hr : s.resetLine = false) (h : s.st = .seekB2) :
    step s =
      s.issue (encodeOperation s.params.opcSeekBlock s.drum s.block) .noBuf
        fun _ t => { t with st := .wrblk } := by
  simp [step, hr, State.fetch, h, State.issued, exec, execSeekBlock]

theorem step_wrblk (hr : s.resetLine = false) (h : s.st = .wrblk) :
    step s =
      s.issue (encodeOperation s.params.opcWriteBlock s.drum s.block) .drain
        fun _ t => if t.count = t.len then t.completeOk else { t with st := .adv } := by
  simp [step, hr, State.fetch, h, State.issued, exec, execWriteBlock]

theorem step_adv (hr : s.resetLine = false) (h : s.st = .adv) : step s = .next s.advStep := by
  simp [step, hr, State.fetch, h, State.internalStep]

/-! ## Everything a step can do -/

/-- What `copyStep` does when the cursor is within bounds. -/
theorem copyStep_read (hi : s.idx.toNat ≤ 256) (hl : s.count.toNat ≤ s.len.toNat) (hc : s.cmd = .read) :
    s.copyStep =
      .next (if s.copyOut.count = s.copyOut.len then s.copyOut.completeOk else { s.copyOut with st := .adv }) := by
  rw [State.copyStep, if_neg (by simp only [Config.blockSize]; omega)]
  simp [hc]

theorem copyStep_write (hi : s.idx.toNat ≤ 256) (hl : s.count.toNat ≤ s.len.toNat) (hc : s.cmd = .write) :
    s.copyStep = .next { s.copyIn with st := .seekB2 } := by
  rw [State.copyStep, if_neg (by simp only [Config.blockSize]; omega)]
  simp [hc]

/-- The rows of R31 as a relation, with reset (R191) and the silent device (U9): every way a step leads from `s` to
a next state when the parameters are legal. -/
inductive Row (s : State) : State → Prop where
  | reset (hr : s.resetLine = true) : Row s s.takeReset
  | idle (hr : s.resetLine = false) (h : s.st = .idle) (hc : s.host.calls = []) : Row s s
  | acceptMount (c : Call) (rest : List Call) (k : Cmd) (hr : s.resetLine = false) (h : s.st = .idle)
      (hc : s.host.calls = c :: rest) (hk : k = .mount ∨ k = .unmount) :
      Row s ((s.takeCall c rest).acceptMount k (packetAddr c.packet) (packetLen c.packet))
  | acceptRange (c : Call) (rest : List Call) (k : Cmd) (hr : s.resetLine = false) (h : s.st = .idle)
      (hc : s.host.calls = c :: rest) (hk : k = .read ∨ k = .write) :
      Row s ((s.takeCall c rest).acceptRange k (packetAddr c.packet) (packetLen c.packet))
  | silent (hr : s.resetLine = false) (i : Instr) (hi : s.issued = some i) (ha : s.dev.nextAnswer = none) : Row s s
  | failed (hr : s.resetLine = false) (i : Instr) (w : Word) (kind : BufKind) (op : DeviceOp) (status : Nat)
      (rest : List Answer) (hi : s.issued = some i) (hw : encode s.params i = .word w)
      (ho : deviceOp s.params w = some op) (hop : op = .writeBlock ↔ s.st = .wrblk)
      (ha : s.dev.nextAnswer = some (status, rest)) (hf : statusFailed s.params status = true) :
      Row s ((s.operated w kind op status rest).raise .deviceFailure)
  | mnt (hr : s.resetLine = false) (h : s.st = .mnt) (op : DeviceOp) (opcode : BitVec 6) (status : Nat)
      (rest : List Answer)
      (ho : (s.cmd = .mount ∧ op = .mount ∧ opcode = s.params.opcMount) ∨
        (s.cmd ≠ .mount ∧ op = .unmount ∧ opcode = s.params.opcUnmount))
      (ha : s.dev.nextAnswer = some (status, rest)) (hf : statusFailed s.params status = false) :
      Row s (s.operated (encodeOperation opcode 0 0) .noBuf op status rest).completeOk
  | seekD (hr : s.resetLine = false) (h : s.st = .seekD) (status : Nat) (rest : List Answer)
      (ha : s.dev.nextAnswer = some (status, rest)) (hf : statusFailed s.params status = false) :
      Row s
        { s.operated (encodeOperation s.params.opcSeekDrum s.drum s.block) .noBuf .seekDrum status rest with
          st := .seekB }
  | seekB (hr : s.resetLine = false) (h : s.st = .seekB) (status : Nat) (rest : List Answer)
      (ha : s.dev.nextAnswer = some (status, rest)) (hf : statusFailed s.params status = false) :
      Row s
        { s.operated (encodeOperation s.params.opcSeekBlock s.drum s.block) .noBuf .seekBlock status rest with
          st := .rdblk }
  | rdblk (hr : s.resetLine = false) (h : s.st = .rdblk) (status : Nat) (rest : List Answer)
      (ha : s.dev.nextAnswer = some (status, rest)) (hf : statusFailed s.params status = false) :
      Row s
        { s.operated (encodeOperation s.params.opcReadBlock s.drum s.block) .fill .readBlock status rest with
          buf := s.dev.store.readBlock s.dev.position
          st := .copy }
  | copyDone (hr : s.resetLine = false) (h : s.st = .copy) (hc : s.cmd = .read) (hi : s.idx.toNat ≤ 256)
      (hl : s.count.toNat ≤ s.len.toNat) (hd : s.copyOut.count = s.len) : Row s s.copyOut.completeOk
  | copyMore (hr : s.resetLine = false) (h : s.st = .copy) (hc : s.cmd = .read) (hi : s.idx.toNat ≤ 256)
      (hl : s.count.toNat ≤ s.len.toNat) (hd : s.copyOut.count ≠ s.len) : Row s { s.copyOut with st := .adv }
  | copyIn (hr : s.resetLine = false) (h : s.st = .copy) (hc : s.cmd = .write) (hi : s.idx.toNat ≤ 256)
      (hl : s.count.toNat ≤ s.len.toNat) : Row s { s.copyIn with st := .seekB2 }
  | seekB2 (hr : s.resetLine = false) (h : s.st = .seekB2) (status : Nat) (rest : List Answer)
      (ha : s.dev.nextAnswer = some (status, rest)) (hf : statusFailed s.params status = false) :
      Row s
        { s.operated (encodeOperation s.params.opcSeekBlock s.drum s.block) .noBuf .seekBlock status rest with
          st := .wrblk }
  | wrblkDone (hr : s.resetLine = false) (h : s.st = .wrblk) (status : Nat) (rest : List Answer)
      (ha : s.dev.nextAnswer = some (status, rest)) (hf : statusFailed s.params status = false)
      (hd : s.count = s.len) :
      Row s
        (s.operated (encodeOperation s.params.opcWriteBlock s.drum s.block) .drain .writeBlock status
          rest).completeOk
  | wrblkMore (hr : s.resetLine = false) (h : s.st = .wrblk) (status : Nat) (rest : List Answer)
      (ha : s.dev.nextAnswer = some (status, rest)) (hf : statusFailed s.params status = false)
      (hd : s.count ≠ s.len) :
      Row s
        { s.operated (encodeOperation s.params.opcWriteBlock s.drum s.block) .drain .writeBlock status rest with
          st := .adv }
  | adv (hr : s.resetLine = false) (h : s.st = .adv) : Row s s.advStep

/-- The command a packet's instruction accepts. -/
theorem exec_decodePacket (p : Packet) (h : s.st = .idle) :
    (∃ k, (k = .mount ∨ k = .unmount) ∧
        exec (decodePacket p) s = .next (s.acceptMount k (packetAddr p) (packetLen p))) ∨
      ∃ k, (k = .read ∨ k = .write) ∧
        exec (decodePacket p) s = .next (s.acceptRange k (packetAddr p) (packetLen p)) := by
  unfold decodePacket
  split
  · exact .inl ⟨.mount, .inl rfl, by simp [exec, execCmdMount, State.busy, h]⟩
  · split
    · exact .inl ⟨.unmount, .inr rfl, by simp [exec, execCmdUnmount, State.busy, h]⟩
    · split
      · exact .inr ⟨.read, .inl rfl, by simp [exec, execCmdRead, State.busy, h]⟩
      · exact .inr ⟨.write, .inr rfl, by simp [exec, execCmdWrite, State.busy, h]⟩

/-- With legal parameters, a step that answers a next state took a row. -/
theorem step_row {t : State} (hp : s.params.wf = true) (h : step s = .next t) : Row s t := by
  have hd := Config.Params.distinct_of_wf hp
  cases hr : s.resetLine with
  | true =>
    rw [step_reset hr] at h
    cases h
    exact .reset hr
  | false =>
    cases hst : s.st with
    | idle =>
      cases hc : s.host.calls with
      | nil =>
        rw [step_idle_none hr hst hc] at h
        cases h
        exact .idle hr hst hc
      | cons c rest =>
        rw [step_idle_call hr hst hc] at h
        rcases exec_decodePacket (s := s.takeCall c rest) c.packet (by simpa using hst) with
          ⟨k, hk, he⟩ | ⟨k, hk, he⟩
        · rw [he] at h; cases h; exact .acceptMount c rest k hr hst hc hk
        · rw [he] at h; cases h; exact .acceptRange c rest k hr hst hc hk
    | mnt =>
      rw [step_mnt hr hst] at h
      by_cases hm : s.cmd = .mount
      · simp only [hm, if_true] at h
        rcases issue_cases (kind := .noBuf) (fun _ t => t.completeOk) (deviceOp_mount (p := s.params) 0 0) with
          ⟨ha, h'⟩ | ⟨status, rest, ha, ⟨hf, h'⟩ | ⟨hf, h'⟩⟩ <;> rw [h] at h' <;> cases h'
        · exact .silent hr .mount (by simp [State.issued, hst, hm]) ha
        · exact .failed hr .mount _ _ .mount status rest (by simp [State.issued, hst, hm]) rfl
            (deviceOp_mount 0 0) (by simp [hst]) ha hf
        · exact .mnt hr hst .mount _ status rest (.inl ⟨hm, rfl, rfl⟩) ha hf
      · simp only [hm, if_false] at h
        rcases issue_cases (kind := .noBuf) (fun _ t => t.completeOk) (deviceOp_unmount hd 0 0) with
          ⟨ha, h'⟩ | ⟨status, rest, ha, ⟨hf, h'⟩ | ⟨hf, h'⟩⟩ <;> rw [h] at h' <;> cases h'
        · exact .silent hr .unmount (by simp [State.issued, hst, hm]) ha
        · exact .failed hr .unmount _ _ .unmount status rest (by simp [State.issued, hst, hm]) rfl
            (deviceOp_unmount hd 0 0) (by simp [hst]) ha hf
        · exact .mnt hr hst .unmount _ status rest (.inr ⟨hm, rfl, rfl⟩) ha hf
    | seekD =>
      rw [step_seekD hr hst] at h
      have hi : s.issued = some (.seekDrum s.drum s.block) := by simp [State.issued, hst]
      rcases issue_cases (kind := .noBuf) (fun _ t => { t with st := .seekB })
        (deviceOp_seekDrum hd s.drum s.block) with
        ⟨ha, h'⟩ | ⟨status, rest, ha, ⟨hf, h'⟩ | ⟨hf, h'⟩⟩ <;> rw [h] at h' <;> cases h'
      · exact .silent hr _ hi ha
      · exact .failed hr _ _ _ _ status rest hi rfl (deviceOp_seekDrum hd _ _) (by simp [hst]) ha hf
      · exact .seekD hr hst status rest ha hf
    | seekB =>
      rw [step_seekB hr hst] at h
      have hi : s.issued = some (.seekBlock s.drum s.block) := by simp [State.issued, hst]
      rcases issue_cases (kind := .noBuf) (fun _ t => { t with st := .rdblk })
        (deviceOp_seekBlock hd s.drum s.block) with
        ⟨ha, h'⟩ | ⟨status, rest, ha, ⟨hf, h'⟩ | ⟨hf, h'⟩⟩ <;> rw [h] at h' <;> cases h'
      · exact .silent hr _ hi ha
      · exact .failed hr _ _ _ _ status rest hi rfl (deviceOp_seekBlock hd _ _) (by simp [hst]) ha hf
      · exact .seekB hr hst status rest ha hf
    | rdblk =>
      rw [step_rdblk hr hst] at h
      have hi : s.issued = some (.readBlock s.drum s.block) := by simp [State.issued, hst]
      rcases issue_cases (kind := .fill) (fun data t => { t with buf := data, st := .copy })
        (deviceOp_readBlock hd s.drum s.block) with
        ⟨ha, h'⟩ | ⟨status, rest, ha, ⟨hf, h'⟩ | ⟨hf, h'⟩⟩ <;> rw [h] at h' <;> cases h'
      · exact .silent hr _ hi ha
      · exact .failed hr _ _ _ _ status rest hi rfl (deviceOp_readBlock hd _ _) (by simp [hst]) ha hf
      · exact .rdblk hr hst status rest ha hf
    | copy =>
      rw [step_copy hr hst] at h
      by_cases hb : Config.blockSize < s.idx.toNat ∨ s.len.toNat < s.count.toNat
      · simp [State.copyStep, hb] at h
      · have hi : s.idx.toNat ≤ 256 := by simp only [Config.blockSize] at hb; omega
        have hl : s.count.toNat ≤ s.len.toNat := by omega
        cases hc : s.cmd with
        | read =>
          rw [copyStep_read hi hl hc] at h
          split at h <;> cases h
          · exact .copyDone hr hst hc hi hl (by assumption)
          · exact .copyMore hr hst hc hi hl (by assumption)
        | write =>
          rw [copyStep_write hi hl hc] at h
          cases h
          exact .copyIn hr hst hc hi hl
        | mount => rw [State.copyStep, if_neg hb] at h; simp [hc] at h
        | unmount => rw [State.copyStep, if_neg hb] at h; simp [hc] at h
    | seekB2 =>
      rw [step_seekB2 hr hst] at h
      have hi : s.issued = some (.seekBlock s.drum s.block) := by simp [State.issued, hst]
      rcases issue_cases (kind := .noBuf) (fun _ t => { t with st := .wrblk })
        (deviceOp_seekBlock hd s.drum s.block) with
        ⟨ha, h'⟩ | ⟨status, rest, ha, ⟨hf, h'⟩ | ⟨hf, h'⟩⟩ <;> rw [h] at h' <;> cases h'
      · exact .silent hr _ hi ha
      · exact .failed hr _ _ _ _ status rest hi rfl (deviceOp_seekBlock hd _ _) (by simp [hst]) ha hf
      · exact .seekB2 hr hst status rest ha hf
    | wrblk =>
      rw [step_wrblk hr hst] at h
      have hi : s.issued = some (.writeBlock s.drum s.block) := by simp [State.issued, hst]
      rcases issue_cases (kind := .drain)
        (fun _ t => if t.count = t.len then t.completeOk else { t with st := .adv })
        (deviceOp_writeBlock hd s.drum s.block) with
        ⟨ha, h'⟩ | ⟨status, rest, ha, ⟨hf, h'⟩ | ⟨hf, h'⟩⟩ <;> rw [h] at h' <;> cases h'
      · exact .silent hr _ hi ha
      · exact .failed hr _ _ _ _ status rest hi rfl (deviceOp_writeBlock hd _ _) (by simp [hst]) ha hf
      · by_cases hc : s.count = s.len
        · simp only [operated_count, operated_len, hc, if_true]
          exact .wrblkDone hr hst status rest ha hf hc
        · simp only [operated_count, operated_len, hc, if_false]
          exact .wrblkMore hr hst status rest ha hf hc
    | adv =>
      rw [step_adv hr hst] at h
      cases h
      exact .adv hr hst

end Sys2Proof.Machine
end

