-- ==== Sys2Proof/Laws/Runs.lean ====
section
/-! SUPPORT. Runs put together from steps, the words of a trace, what one operation of a big-step rule can do,
and that the device's mount flag goes along unread. -/

namespace Sys2Proof.Machine

/-! ## Runs -/

theorem Reaches.refl (s : State) : Reaches s s := ⟨0, rfl⟩

theorem Reaches.head {s t u : State} (h : step s = .next t) (h' : Reaches t u) : Reaches s u := by
  obtain ⟨k, hk⟩ := h'
  exact ⟨k + 1, by simp [runSteps, h, hk]⟩

theorem Reaches.one {s t : State} (h : step s = .next t) : Reaches s t := .head h (.refl t)

theorem Reaches.trans {s t u : State} (h : Reaches s t) (h' : Reaches t u) : Reaches s u := by
  obtain ⟨k, hk⟩ := h
  induction k generalizing s with
  | zero => simp only [runSteps, Host.Outcome.next.injEq] at hk; subst hk; exact h'
  | succ k ih =>
    simp only [runSteps] at hk
    split at hk
    · rename_i t' h; exact .head h (ih hk)
    · cases hk
    · cases hk

/-! ## The words of a trace -/

@[simp] theorem devWords_nil : devWords [] = [] := rfl

@[simp] theorem devWords_append (a b : List Event) : devWords (a ++ b) = devWords a ++ devWords b := by
  simp [devWords]

@[simp] theorem devWords_devOp (w : Word) (kind : BufKind) (data : Option Block) (status : Nat)
    (rest : List Event) : devWords (.devOp w kind data status :: rest) = w :: devWords rest := rfl

@[simp] theorem devWords_command (c : Cmd) (addr len : Word) (rest : List Event) :
    devWords (.command c addr len :: rest) = devWords rest := rfl

@[simp] theorem devWords_completion (code : Status) (rest : List Event) :
    devWords (.completion code :: rest) = devWords rest := rfl

@[simp] theorem devWords_reset (rest : List Event) : devWords (.reset :: rest) = devWords rest := rfl

/-- A property of every byte transaction holds of those of a copy. -/
theorem forall_hostEvents {event : Word → Byte → Event} {count : Word} {bytes : List Byte} {P : Event → Prop}
    (h : ∀ i v, P (event i v)) : ∀ e ∈ hostEvents event count bytes, P e := by
  intro e he
  simp only [hostEvents, List.mem_mapIdx] at he
  obtain ⟨i, _, rfl⟩ := he
  exact h _ _

@[simp] theorem devWords_outBytes (count : Word) (bytes : List Byte) :
    devWords (hostEvents .outByte count bytes) = [] := by
  simp only [devWords, List.filterMap_eq_nil_iff]
  exact forall_hostEvents fun _ _ => rfl

@[simp] theorem devWords_inBytes (count : Word) (bytes : List Byte) :
    devWords (hostEvents .inByte count bytes) = [] := by
  simp only [devWords, List.filterMap_eq_nil_iff]
  exact forall_hostEvents fun _ _ => rfl

/-! ## What an operation of a big-step rule can do -/

/-- It hangs, it ends the command with `DeviceFailure`, or the command goes on with the device's part done. -/
theorem operate_cases {s : State} {w : Word} {kind : BufKind} {op : DeviceOp} (ho : deviceOp s.params w = some op) :
    (s.dev.nextAnswer = none ∧ s.operate w kind = .hung s) ∨
    ∃ status rest, s.dev.nextAnswer = some (status, rest) ∧
      ((statusFailed s.params status = true ∧
          s.operate w kind = .ended ((s.operated w kind op status rest).raise .deviceFailure)) ∨
        (statusFailed s.params status = false ∧
          s.operate w kind = .going
            (if kind = .fill then
              { s.operated w kind op status rest with buf := s.dev.store.readBlock s.dev.position }
            else s.operated w kind op status rest))) := by
  cases ha : s.dev.nextAnswer with
  | none => left; simp [State.operate, State.devOp, ho, ha]
  | some a =>
    obtain ⟨status, rest⟩ := a
    refine .inr ⟨status, rest, rfl, ?_⟩
    cases hf : statusFailed s.params status <;> simp [State.operate, State.devOp, ho, ha, hf]

/-- The accept step of a range command ends it, or loads the cursor of a valid address. -/
theorem acceptRange_cases (s : State) (c : Cmd) (addr len : Word) :
    (s.acceptRange c addr len).st = .idle ∨
    ∃ d b o, decodeAddress addr = some (d, b, o) ∧ len ≠ 0 ∧
      s.acceptRange c addr len =
        { s with
          cmd := c, len := len, drum := d, block := b, idx := o.zeroExtend 9, count := 0, st := .seekD,
          trace := s.trace ++ [.command c addr len] } := by
  unfold State.acceptRange
  by_cases hl : len = 0
  · simp [hl]
  · simp only [if_neg hl]
    cases hd : decodeAddress addr with
    | none => simp
    | some r =>
      obtain ⟨d, b, o⟩ := r
      exact .inr ⟨d, b, o, rfl, hl, rfl⟩

/-- The block's position as one number, and its bound: 4096 blocks (R131). -/
theorem linear_lt (d : BitVec 4) (b : BitVec 8) : d.toNat * 256 + b.toNat < 4096 := by
  have := d.isLt; have := b.isLt; omega

/-! ## The mount flag -/

@[simp] theorem withMounted_st (s : State) (m : Bool) : (s.withMounted m).st = s.st := rfl
@[simp] theorem withMounted_cmd (s : State) (m : Bool) : (s.withMounted m).cmd = s.cmd := rfl
@[simp] theorem withMounted_len (s : State) (m : Bool) : (s.withMounted m).len = s.len := rfl
@[simp] theorem withMounted_drum (s : State) (m : Bool) : (s.withMounted m).drum = s.drum := rfl
@[simp] theorem withMounted_block (s : State) (m : Bool) : (s.withMounted m).block = s.block := rfl
@[simp] theorem withMounted_count (s : State) (m : Bool) : (s.withMounted m).count = s.count := rfl
@[simp] theorem withMounted_idx (s : State) (m : Bool) : (s.withMounted m).idx = s.idx := rfl
@[simp] theorem withMounted_buf (s : State) (m : Bool) : (s.withMounted m).buf = s.buf := rfl
@[simp] theorem withMounted_status (s : State) (m : Bool) : (s.withMounted m).status = s.status := rfl
@[simp] theorem withMounted_params (s : State) (m : Bool) : (s.withMounted m).params = s.params := rfl
@[simp] theorem withMounted_host (s : State) (m : Bool) : (s.withMounted m).host = s.host := rfl
@[simp] theorem withMounted_resetLine (s : State) (m : Bool) : (s.withMounted m).resetLine = s.resetLine := rfl
@[simp] theorem withMounted_trace (s : State) (m : Bool) : (s.withMounted m).trace = s.trace := rfl
@[simp] theorem withMounted_draws (s : State) (m : Bool) : (s.withMounted m).draws = s.draws := rfl
@[simp] theorem withMounted_dev (s : State) (m : Bool) : (s.withMounted m).dev = { s.dev with mounted := m } := rfl

@[simp] theorem withMounted_withMounted (s : State) (m n : Bool) :
    (s.withMounted m).withMounted n = s.withMounted n := rfl

@[simp] theorem nextAnswer_mounted (dev : Device) (m : Bool) :
    ({ dev with mounted := m } : Device).nextAnswer = dev.nextAnswer := rfl

/-- An answered operation takes no note of the flag. -/
theorem operated_withMounted (s : State) (m : Bool) (w : Word) (kind : BufKind) (op : DeviceOp) (status : Nat)
    (rest : List Answer) :
    ∃ n, (s.withMounted m).operated w kind op status rest = (s.operated w kind op status rest).withMounted n := by
  unfold State.operated State.withMounted
  simp only
  split <;> cases op <;> exact ⟨_, rfl⟩

/-- Nor does the end of a command. -/
theorem finish_withMounted (s : State) (m : Bool) (code : Status) :
    (s.withMounted m).finish code = (s.finish code).withMounted m := rfl

end Sys2Proof.Machine
end

