-- ==== Sys2Proof/Tests/Slice0.lean ====
section
/-! SUPPORT. Tests. Expected values are the spec's: the vectors of 95_test_vectors.md, the examples of the rules, or
words assembled by hand from the fields of 30_encoding.md. After them, for each obligation with hypotheses, a concrete
state that meets them. -/

namespace Sys2Proof.Tests

open Sys2Proof.Machine

/-! ## Helpers -/

/-- The state a step answered, where it answered one. -/
def after : Host.Outcome State Fault Refusal → State
  | .next s => s
  | .fault _ | .refused _ => State.reset

/-- Whether a step answered a next state. -/
def isNext : Host.Outcome State Fault Refusal → Bool
  | .next _ => true
  | .fault _ | .refused _ => false

theorem eq_next {o : Host.Outcome State Fault Refusal} (h : isNext o = true) : o = .next (after o) := by
  cases o <;> simp_all [isNext, after]

theorem exists_next {o : Host.Outcome State Fault Refusal} (h : isNext o = true) : ∃ t, o = .next t :=
  ⟨_, eq_next h⟩

/-- Whether a command in one piece ended. -/
def isEnded : Run → Bool
  | .ended _ => true
  | .going _ | .hung _ => false

theorem exists_ended {r : Run} (h : isEnded r = true) : ∃ t, r = .ended t := by
  cases r <;> simp_all [isEnded]

/-- Whether a command in one piece hangs. -/
def isHung : Run → Bool
  | .hung _ => true
  | .ended _ | .going _ => false

theorem exists_hung {r : Run} (h : isHung r = true) : ∃ t, r = .hung t := by
  cases r <;> simp_all [isHung]

/-- A running command: its state, its command, the cursor, and the answers of the device. -/
def running (st : Fsm) (cmd : Cmd) (drum : BitVec 4) (block : BitVec 8) (idx : BitVec 9) (count len : Word)
    (answers : List Answer) : State :=
  { State.reset with
    st := st, cmd := cmd, drum := drum, block := block, idx := idx, count := count, len := len
    dev := { State.reset.dev with drum := drum, block := block, answers := answers } }

/-- A block just reset whose host has calls to make. -/
def calling (calls : List Call) : State := { State.reset with host := { State.reset.host with calls := calls } }

/-- The bytes of block (0, 0) in the store `M0` of the vectors, at offsets 240 to 255 (`o + 3 * b + 16 * d`). -/
def bytesF0 : List Byte := (List.range 16).map fun o => BitVec.ofNat 8 (240 + o)

/-! ## Well-formedness: each check refuses an ill-formed term -/

/-- Two operations with one opcode number (R6: pairwise distinct). -/
def clash : Config.Params := { Config.Params.default with opcWriteBlock := 4 }

theorem test_wf_opcodes_refused : clash.opcodesDistinct = false ∧ clash.wf = false := by decide

theorem test_wf_status_width_refused : ({ Config.Params.default with statusW := 0 } : Config.Params).wf = false := by
  decide

theorem test_wf_operation_refused :
    Instr.mount.wellFormed clash = false ∧ Instr.unmount.wellFormed clash = false ∧
    (Instr.seekDrum 0 0).wellFormed clash = false ∧ (Instr.seekBlock 0 0).wellFormed clash = false ∧
    (Instr.readBlock 0 0).wellFormed clash = false ∧ (Instr.writeBlock 0 0).wellFormed clash = false := by decide

theorem test_wf_default : Config.Params.default.wf = true := by decide

/-! ## Decoding: a written-out word of every row -/

/-- Row M4 of V-MNT, packet `0:FFFFFFFF:00000007`: 00, 32 ones, then 7. -/
theorem test_decode_cmdMount : decodeTableWord 72 0x0FFFFFFFF00000007 = some (.cmdMount 0xFFFFFFFF 7) := by decide

/-- Row M2, packet `1:00000000:00000000`: 01, then 64 zeros. -/
theorem test_decode_cmdUnmount : decodeTableWord 72 0x10000000000000000 = some (.cmdUnmount 0 0) := by decide

/-- Program P1 call 3, packet `2:000001F8:00000010`. -/
theorem test_decode_cmdRead : decodeTableWord 72 0x2000001F800000010 = some (.cmdRead 0x1F8 0x10) := by decide

/-- Program P1 call 2, packet `3:000001FC:00000008`. -/
theorem test_decode_cmdWrite : decodeTableWord 72 0x3000001FC00000008 = some (.cmdWrite 0x1FC 8) := by decide

/-- 000000 0000 00000000000000 00000000 (R93). -/
theorem test_decode_mount :
    decodeTableWord 32 0b00000000000000000000000000000000 = some .mount := by decide

/-- 000001 0000 00000000000000 00000000 (R94). -/
theorem test_decode_unmount :
    decodeTableWord 32 0b00000100000000000000000000000000 = some .unmount := by decide

/-- 000010 0011 00000000000000 00010010, `0x08C00012` (V-ENC). -/
theorem test_decode_seekDrum :
    decodeTableWord 32 0b00001000110000000000000000010010 = some (.seekDrum 3 0x12) := by decide

/-- 000011 1111 00000000000000 11111111, `0x0FC000FF` (V-ENC). -/
theorem test_decode_seekBlock :
    decodeTableWord 32 0b00001111110000000000000011111111 = some (.seekBlock 15 0xFF) := by decide

/-- 000100 0011 00000000000000 00010010, `0x10C00012` (V-ENC). -/
theorem test_decode_readBlock :
    decodeTableWord 32 0b00010000110000000000000000010010 = some (.readBlock 3 0x12) := by decide

/-- 000101 1000 00000000000000 00000001, `0x16000001` (V-ENC). -/
theorem test_decode_writeBlock :
    decodeTableWord 32 0b00010110000000000000000000000001 = some (.writeBlock 8 1) := by decide

/-- R70: bits 21..8 nonzero (each end of the field), a mount with fields, an opcode of none of the six. -/
theorem test_decode_refused :
    decode Config.Params.default (.word 0x0C000100) = .error (.reservedBits 0x0C000100) ∧
    decode Config.Params.default (.word 0x0C200000) = .error (.reservedBits 0x0C200000) ∧
    decode Config.Params.default (.word 0x00400000) = .error (.mountFields 0x00400000) ∧
    decode Config.Params.default (.word 0x04000001) = .error (.mountFields 0x04000001) ∧
    decode Config.Params.default (.word 0x18000000) = .error (.unusedOpcode 0x18000000) ∧
    frameOfBits 16 0 = .error (.noFormat 16) ∧ frameOfBits 72 (2 ^ 66) = .error (.noFormat 72) := by decide

/-- The largest word the encoder can form (V-ENC, last row). -/
theorem test_encode_largest : encodeOperation 63 15 0xFF = 0xFFC000FF := by decide

/-- V-DEC rows 6, 8, 9 and 13. -/
theorem test_decode_address :
    decodeAddress 0x00031234 = some (3, 0x12, 0x34) ∧ decodeAddress 0x000FFFFF = some (15, 0xFF, 0xFF) ∧
    decodeAddress 0x00100000 = none ∧ decodeAddress 0xFFF0ABCD = none ∧
    decomposeBlock 0xFFF0ABCD = 0xAB ∧ decomposeOffset 0xFFF0ABCD = 0xCD := by decide

/-! ## Steps -/

/-- M4: the fields of a mount packet are ignored; the accept step goes to `MNT`. -/
theorem test_cmdMount :
    let t := after (exec (.cmdMount 0xFFFFFFFF 7) State.reset)
    t.st = .mnt ∧ t.cmd = .mount ∧ devWords t.trace = [] := by decide +kernel

theorem test_cmdUnmount :
    let t := after (exec (.cmdUnmount 0 0) State.reset)
    t.st = .mnt ∧ t.cmd = .unmount ∧ devWords t.trace = [] := by decide +kernel

/-- Step 0 of `read(0x000000F0, 0x20)` (95_test_vectors.md section 3). -/
theorem test_cmdRead :
    let t := after (exec (.cmdRead 0x000000F0 0x20) State.reset)
    (t.st, t.drum, t.block, t.idx, t.count, t.len) = (.seekD, 0, 0, 240, 0, 32) := by decide +kernel

/-- RD10 and RD11: an invalid address is `InvalidDrum` with length 1 and `OK` with length 0. -/
theorem test_cmdRead_order :
    (after (exec (.cmdRead 0x00100000 1) State.reset)).status = .invalidDrum ∧
    (after (exec (.cmdRead 0x00100000 0) { State.reset with status := .outOfRange })).status = .ok := by
  decide +kernel

/-- WR2, accept: block (2, 3) from offset 5. -/
theorem test_cmdWrite :
    let t := after (exec (.cmdWrite 0x00020305 3) State.reset)
    (t.st, t.cmd, t.drum, t.block, t.idx, t.count, t.len) = (.seekD, .write, 2, 3, 5, 0, 3) := by decide +kernel

/-- WR7 and WR8. -/
theorem test_cmdWrite_order :
    (after (exec (.cmdWrite 0x00100000 4) State.reset)).status = .invalidDrum ∧
    (after (exec (.cmdWrite 0xFFFFFFFF 0) State.reset)).status = .ok := by decide +kernel

/-- M1 and M3. -/
theorem test_mount :
    (after (exec .mount (running .mnt .mount 0 0 0 0 0 []))).status = .ok ∧
    (after (exec .mount (running .mnt .mount 0 0 0 0 0 [.reply 1]))).trace =
      [.devOp 0x00000000 .noBuf none 1, .completion .deviceFailure] := by decide +kernel

/-- M2 and M5. -/
theorem test_unmount :
    (after (exec .unmount (running .mnt .unmount 0 0 0 0 0 []))).trace =
      [.devOp 0x04000000 .noBuf none 0, .completion .ok] ∧
    (after (exec .unmount (running .mnt .unmount 0 0 0 0 0 [.reply 0xFFFFFFFF]))).status = .deviceFailure := by
  decide +kernel

/-- RD1, first operation. -/
theorem test_seekDrum :
    let t := after (exec (.seekDrum 3 0x12) (running .seekD .read 3 0x12 0x34 0 1 []))
    t.st = .seekB ∧ t.dev.drum = 3 ∧ devWords t.trace = [0x08C00012] := by decide +kernel

/-- RD1, second operation; from `SEEKB2` (WR2, step 5) the write-back follows. -/
theorem test_seekBlock :
    let t := after (exec (.seekBlock 3 0x12) (running .seekB .read 3 0x12 0x34 0 1 []))
    t.st = .rdblk ∧ t.dev.block = 0x12 ∧ devWords t.trace = [0x0CC00012] ∧
    (after (exec (.seekBlock 2 3) (running .seekB2 .write 2 3 8 3 3 []))).st = .wrblk := by decide +kernel

/-- RD1, third operation: byte 0x34 of block (3, 18) holds 9A. -/
theorem test_readBlock :
    let s := running .rdblk .read 3 0x12 0x34 0 1 []
    let t := after (exec (.readBlock 3 0x12) { s with dev := { s.dev with store := [(0x31234, 0x9A)] } })
    t.st = .copy ∧ byteAt t.buf 0x34 = 0x9A ∧ byteAt t.buf 0x35 = 0 ∧ devWords t.trace = [0x10C00012] := by
  decide +kernel

/-- RD14: a failed operation ends the command with `DeviceFailure`. -/
theorem test_readBlock_fails :
    let t := after (exec (.readBlock 0 1) (running .rdblk .read 0 1 0 16 32 [.reply 7]))
    t.st = .idle ∧ t.status = .deviceFailure ∧ devWords t.trace = [0x10000001] := by decide +kernel

/-- WR2, step 6: the 256 bytes of `buf` go to block (2, 3), the block before it keeps its byte. -/
theorem test_writeBlock :
    let s := running .wrblk .write 2 3 8 3 3 []
    let t := after (exec (.writeBlock 2 3)
      { s with buf := s.buf.set 5 0x11, dev := { s.dev with store := [(0x202FF, 0x77), (0x20304, 0x55)] } })
    t.st = .idle ∧ t.status = .ok ∧ t.dev.store = [(0x202FF, 0x77), (0x20305, 0x11)] ∧
      devWords t.trace = [0x14800003] := by decide +kernel

/-- WR1, fifth operation: bytes remain, so the cursor advances. -/
theorem test_writeBlock_more :
    (after (exec (.writeBlock 0 0) (running .wrblk .write 0 0 256 56 300 []))).st = .adv := by decide +kernel

/-- Step 4 of section 3: `out[0..15] <- buf[240..255]`, then `ADV` with `idx` 256 and `count` 16. The call names
buffer 2, and buffer 1 keeps the byte an earlier read left in it (R73; P2 has such an `out` and `out2`). -/
theorem test_copy_out :
    let s := running .copy .read 0 0 240 0 32 []
    let t := after (step { s with
      buf := Vector.ofFn fun i => BitVec.ofNat 8 i.val
      host := { s.host with outName := 2, outs := [(1, [(0, 0xEE)])] } })
    (t.st, t.idx, t.count) = (.adv, 256, 16) ∧
      t.host.outs = [(1, [(0, 0xEE)]), (2, (List.range 16).zip bytesF0)] := by decide +kernel

/-- A call taken from the port brings its `in` and the name of its `out` (R73). -/
theorem test_call_operands :
    let t := after (step (calling [⟨0x2000001F800000010, [0x44], 7⟩, ⟨0, [], 8⟩]))
    (t.host.inBuf, t.host.outName, t.host.calls) = ([0x44], 7, [⟨0, [], 8⟩]) := by decide +kernel

/-- WR2, step 4: `buf[5..7] <- 11 22 33`, then `SEEKB2` with `idx` 8 and `count` 3. -/
theorem test_copy_in :
    let s := running .copy .write 2 3 5 0 3 []
    let t := after (step { s with host := { s.host with inBuf := [0x11, 0x22, 0x33, 0x44] } })
    (t.st, t.idx, t.count) = (.seekB2, 8, 3) ∧
      (byteAt t.buf 4, byteAt t.buf 5, byteAt t.buf 6, byteAt t.buf 7, byteAt t.buf 8) = (0, 0x11, 0x22, 0x33, 0) := by
  decide +kernel

/-- Step 5 of section 3, RD6's drum rollover and RD9's `OutOfRange`. -/
theorem test_advance :
    (let t := after (step (running .adv .read 0 0 256 16 32 [])); (t.st, t.block, t.idx) = (.seekB, 1, 0)) ∧
    (let t := after (step (running .adv .read 0 255 256 128 256 []));
      (t.st, t.drum, t.block, t.idx) = (.seekD, 1, 0, 0)) ∧
    (after (step (running .adv .read 15 255 256 1 2 []))).status = .outOfRange := by decide +kernel

/-- A placed row is the instruction of the next step: a packet, and a word. -/
theorem test_withFetchWord :
    step (State.reset.withFetchWord 72 0x2000001F800000010) =
      exec (.cmdRead 0x1F8 0x10) State.reset ∧
    (after (step (State.reset.withFetchWord 32 0x14C00012))).trace =
      [.devOp 0x14C00012 .drain (some (Vector.replicate 256 0)) 0, .completion .ok] := by
  refine ⟨rfl, ?_⟩
  decide +kernel

/-! ## Witnesses: for each obligation with hypotheses, a state that meets them -/

/-- `DecodeAddressBijective`: both outcomes at the edge of the array. -/
theorem witness_decodeAddressBijective :
    decodeAddress 0x000FFFFF = some (15, 0xFF, 0xFF) ∧ decodeAddress 0 = some (0, 0, 0) ∧
    decodeAddress 0x00100000 = none := by decide

theorem witness_addressToWordRoundTrip :
    (0x000FFFFF : Word) =
      BitVec.ofNat 32 ((15 : BitVec 4).toNat * 65536 + (255 : BitVec 8).toNat * 256 + (255 : BitVec 8).toNat) ∧
    encodeOperation 63 15 255 = encodeOperation 63 15 (decomposeBlock 0x000FFFFF) := by decide

theorem witness_decodeEncodeAgree :
    (Instr.writeBlock 15 255).wellFormed Config.Params.default = true ∧
    (Instr.cmdRead 0xFFFFFFFF 0xFFFFFFFF).wellFormed clash = true := by decide

theorem witness_encodeDecodeAgree :
    decode Config.Params.default (.word 0x17C000FF) = .ok (.writeBlock 15 255) ∧
    decode Config.Params.default (.packet 0x3FFFFFFFFFFFFFFFF) = .ok (.cmdWrite 0xFFFFFFFF 0xFFFFFFFF) := by decide

/-- `WhatDecodes`: a word on each side, and a mount, whose fields are asked for. -/
theorem witness_whatDecodes :
    ((0x17C000FF : Word).extractLsb' 8 14 = 0 ∧
      (0x17C000FF : Word).extractLsb' 26 6 ∈ Config.Params.default.opcodes) ∧
    (0x04000000 : Word).extractLsb' 26 6 = Config.Params.default.opcUnmount ∧
    (0x04000000 : Word).extractLsb' 22 4 = 0 ∧ (0x04000000 : Word).extractLsb' 0 8 = 0 := by decide

/-- `MountCommandsAccepted`, `ZeroLengthCompletes`. -/
theorem witness_idle : State.reset.st = .idle := rfl

theorem witness_rangeCommandsLoadCursor :
    State.reset.st = .idle ∧ (1 : Word) ≠ 0 ∧ (0x000FFFFF : Word).extractLsb' 20 12 = 0 := by decide

theorem witness_invalidDrumRaised :
    State.reset.st = .idle ∧ (1 : Word) ≠ 0 ∧ (0x00100000 : Word).extractLsb' 20 12 ≠ 0 := by decide

theorem witness_busyBlockTakesNoCommand :
    (running .seekD .read 0 0 0 0 1 []).st ≠ .idle ∧ ∃ t, step (running .seekD .read 0 0 0 0 1 []) = .next t :=
  ⟨by decide, exists_next (by decide +kernel)⟩

/-- `MountOperations`: success, here also with a status whose low 32 bits are 0, and failure. -/
theorem witness_mountOperations :
    let s := running .mnt .mount 0 0 0 0 0 [.reply (2 ^ 32)]
    let f := running .mnt .unmount 0 0 0 0 0 [.reply 1]
    (s.params.wf = true ∧ s.st = .mnt ∧ s.dev.nextAnswer = some (2 ^ 32, []) ∧
      BitVec.ofNat s.params.statusW (2 ^ 32) = 0) ∧
    (f.params.wf = true ∧ f.st = .mnt ∧ f.dev.nextAnswer = some (1, []) ∧
      BitVec.ofNat f.params.statusW 1 ≠ 0) := by decide

theorem witness_seekDrumMovesDevice :
    let s := running .seekD .read 15 255 0 0 1 []
    s.params.wf = true ∧ s.st = .seekD ∧ s.dev.nextAnswer = some (0, []) ∧
      BitVec.ofNat s.params.statusW 0 = 0 := by decide

/-- `SeekBlockMovesDevice`: both states that issue it. -/
theorem witness_seekBlockMovesDevice :
    let s := running .seekB .read 15 255 0 0 1 []
    let s2 := running .seekB2 .write 15 255 1 1 1 [.reply 0]
    (s.params.wf = true ∧ s.dev.nextAnswer = some (0, []) ∧ BitVec.ofNat s.params.statusW 0 = 0 ∧
      (s.st = .seekB ∧ Fsm.rdblk = .rdblk)) ∧
    (s2.params.wf = true ∧ s2.dev.nextAnswer = some (0, []) ∧ BitVec.ofNat s2.params.statusW 0 = 0 ∧
      (s2.st = .seekB2 ∧ Fsm.wrblk = .wrblk)) := by decide

theorem witness_readBlockFillsBuffer :
    let s := running .rdblk .read 15 255 255 0 1 []
    s.params.wf = true ∧ s.st = .rdblk ∧ s.dev.nextAnswer = some (0, []) ∧
      BitVec.ofNat s.params.statusW 0 = 0 := by decide

/-- `WriteBlockStoresBuffer`: the last block of a command, and one before it. -/
theorem witness_writeBlockStoresBuffer :
    let s := running .wrblk .write 15 255 256 1 1 []
    let m := running .wrblk .write 15 254 256 1 2 []
    (s.params.wf = true ∧ s.st = .wrblk ∧ s.dev.nextAnswer = some (0, []) ∧
      BitVec.ofNat s.params.statusW 0 = 0 ∧ s.count = s.len) ∧
    (m.params.wf = true ∧ m.st = .wrblk ∧ m.dev.nextAnswer = some (0, []) ∧
      BitVec.ofNat m.params.statusW 0 = 0 ∧ m.count ≠ m.len) := by decide

/-- `DeviceFailureAborts`: a failing WRITE_BLOCK with an address on each side of its block, and a failing seek. -/
theorem witness_deviceFailureAborts :
    let s := running .wrblk .write 0 1 256 1 1 [.reply 1]
    let m := running .seekD .read 0 1 0 0 1 [.reply 1]
    (s.params.wf = true ∧ s.issued = some (.writeBlock 0 1) ∧
      encode s.params (.writeBlock 0 1) = .word 0x14000001 ∧ s.dev.nextAnswer = some (1, []) ∧
      BitVec.ofNat s.params.statusW 1 ≠ 0 ∧ 255 < linearAddress s.dev.drum s.dev.block 0 ∧
      linearAddress s.dev.drum s.dev.block 0 + 256 ≤ 512) ∧
    (m.params.wf = true ∧ m.issued = some (.seekDrum 0 1) ∧
      encode m.params (.seekDrum 0 1) = .word 0x08000001 ∧ m.dev.nextAnswer = some (1, []) ∧
      BitVec.ofNat m.params.statusW 1 ≠ 0 ∧ m.st ≠ .wrblk) := by decide

theorem witness_silentDeviceHangsBlock :
    let s := running .seekB .read 0 1 0 0 1 [.never]
    s.params.wf = true ∧ s.resetLine = false ∧ s.issued = some (.seekBlock 0 1) ∧ s.dev.nextAnswer = none := by
  decide

theorem witness_operationsOnlyFromTheirStates :
    (running .copy .read 0 0 0 0 1 []).st ≠ .mnt ∧ (running .copy .read 0 0 0 0 1 []).st ≠ .seekD ∧
    (running .copy .read 0 0 0 0 1 []).st ≠ .seekB ∧ (running .copy .read 0 0 0 0 1 []).st ≠ .seekB2 ∧
    (running .copy .read 0 0 0 0 1 []).st ≠ .rdblk ∧ (running .copy .read 0 0 0 0 1 []).st ≠ .wrblk := by decide

/-- `CopyOutDelivers`: a copy that goes on (the first 16 of 17 bytes), one that ends the command with 256 bytes, and
the edge at which nothing is left to copy. -/
theorem witness_copyOutDelivers :
    let s := running .copy .read 0 0 240 0 17 []
    let m := running .copy .read 0 0 0 0 256 []
    let e := running .copy .read 0 0 256 1 1 []
    (s.resetLine = false ∧ s.st = .copy ∧ s.cmd = .read ∧ s.idx.toNat ≤ 255 ∧ s.count.toNat < s.len.toNat ∧
      16 = min (256 - s.idx.toNat) (s.len.toNat - s.count.toNat) ∧ s.count.toNat + 16 ≠ s.len.toNat) ∧
    (m.resetLine = false ∧ m.st = .copy ∧ m.cmd = .read ∧ m.idx.toNat ≤ 255 ∧ m.count.toNat < m.len.toNat ∧
      256 = min (256 - m.idx.toNat) (m.len.toNat - m.count.toNat) ∧ m.count.toNat + 256 = m.len.toNat) ∧
    (e.resetLine = false ∧ e.st = .copy ∧ e.cmd = .read ∧ e.idx.toNat ≤ 256 ∧ e.count.toNat ≤ e.len.toNat ∧
      0 = min (256 - e.idx.toNat) (e.len.toNat - e.count.toNat)) := by decide

theorem witness_copyInFills :
    let s := running .copy .write 0 0 255 0 0xFFFFFFFF []
    let e := running .copy .write 0 0 256 1 1 []
    (s.resetLine = false ∧ s.st = .copy ∧ s.cmd = .write ∧ s.idx.toNat ≤ 255 ∧ s.count.toNat < s.len.toNat ∧
      1 = min (256 - s.idx.toNat) (s.len.toNat - s.count.toNat)) ∧
    (e.resetLine = false ∧ e.st = .copy ∧ e.cmd = .write ∧ e.idx.toNat ≤ 256 ∧ e.count.toNat ≤ e.len.toNat ∧
      0 = min (256 - e.idx.toNat) (e.len.toNat - e.count.toNat)) := by decide

/-- `AdvanceCursor`: its three cases at their edges. -/
theorem witness_advanceCursor :
    let s := running .adv .read 15 254 256 1 2 []
    let m := running .adv .read 14 255 256 1 2 []
    let e := running .adv .read 15 255 256 1 2 []
    (s.resetLine = false ∧ s.st = .adv ∧ s.block ≠ 255) ∧
    (m.resetLine = false ∧ m.st = .adv ∧ m.block = 255 ∧ m.drum ≠ 15) ∧
    (e.resetLine = false ∧ e.st = .adv ∧ e.block = 255 ∧ e.drum = 15) := by decide

theorem witness_stepRunsHostCall :
    let s := calling [⟨0x3000001FC00000008, [0x10], 1⟩]
    (State.reset.resetLine = false ∧ State.reset.st = .idle ∧ State.reset.host.calls = []) ∧
    (s.resetLine = false ∧ s.st = .idle ∧ s.host.calls = [⟨0x3000001FC00000008, [0x10], 1⟩] ∧
      decode s.params (.packet 0x3000001FC00000008) = .ok (.cmdWrite 0x1FC 8)) := by decide

theorem witness_stepRunsAssembledWord :
    let s := running .seekD .read 3 0x12 0 0 1 []
    s.params.wf = true ∧ s.resetLine = false ∧ s.issued.map (encode s.params) = some (.word 0x08C00012) ∧
      decode s.params (.word 0x08C00012) = .ok (.seekDrum 3 0x12) := by decide

/-- `ResetAbandonsCommand`: with an operation to issue, and in `COPY`, where none is. -/
theorem witness_resetAbandonsCommand :
    ({ running .wrblk .write 0 0 8 8 8 [] with resetLine := true } : State).resetLine = true ∧
    ({ running .copy .read 0 0 0 0 1 [] with resetLine := true } : State).issued = none := by decide

/-- A read of the last byte of the array, running in `SEEKD`. -/
def lastByte : State := running .seekD .read 15 255 255 0 1 []

theorem lastByte_fsmInv : FsmInv lastByte :=
  ⟨by decide, 0x000FFFFF, by decide, by
    simp only [Running, lastByte, running, State.isRange, CursorAt, linearAddress]; decide⟩

/-- `FsmInvariantKept`, `InvariantNeverStops`, `ParametersNeverChange`. -/
theorem witness_fsmInvariantKept : FsmInv lastByte ∧ ∃ t, step lastByte = .next t :=
  ⟨lastByte_fsmInv, exists_next (by decide +kernel)⟩

/-- `RunningCommandKeepsInvariant`: accepted, running, and in `COPY`. -/
theorem witness_runningCommandKeepsInvariant :
    (∃ t, State.reset.st = .idle ∧ t.st ≠ .idle ∧ exec (.cmdRead 0x000FFFFF 1) State.reset = .next t) ∧
    (lastByte.params.wf = true ∧ 0x000FFFFF < Config.capacity ∧ lastByte.st ≠ .idle ∧ Running 0x000FFFFF lastByte ∧
      ∃ t, step lastByte = .next t) ∧
    ((running .copy .read 15 255 255 0 1 []).st ≠ .idle ∧ (running .copy .read 15 255 255 0 1 []).st ≠ .mnt ∧
      Running 0x000FFFFF (running .copy .read 15 255 255 0 1 [])) := by
  refine ⟨⟨after (exec (.cmdRead 0x000FFFFF 1) State.reset), rfl, by decide +kernel, eq_next (by decide +kernel)⟩,
    ⟨by decide, by decide, by decide, ?_, exists_next (by decide +kernel)⟩, by decide, by decide, ?_⟩
  all_goals simp only [Running, lastByte, running, State.isRange, CursorAt, linearAddress]; decide

theorem witness_memoryInvariantKept :
    let s := running .wrblk .write 15 255 256 1 1 []
    let m : State := { s with
      dev := { s.dev with store := [(0, 1), (0xFFFFF, 2)] }
      host := { s.host with outs := [(1, [(0, 0), (0xFFFFFFFF, 7)]), (3, [(5, 0)])] } }
    MemoryInv m ∧ ∃ t, step m = .next t :=
  ⟨⟨by decide, by decide⟩, exists_next (by decide +kernel)⟩

/-- `DeviceFollowsCursor`: where the invariant asks for both coordinates. -/
theorem witness_deviceFollowsCursor :
    let s := running .rdblk .read 15 255 255 0 1 []
    s.params.wf = true ∧ HeadInv s ∧ ∃ t, step s = .next t :=
  ⟨by decide, ⟨rfl, rfl⟩, exists_next (by decide +kernel)⟩

/-- The read of the last byte with its SEEK_DRUM done. -/
def sought : State :=
  { running .seekB .read 15 255 255 0 1 [] with
    trace := [.command .read 0x000FFFFF 1, .devOp 0x0BC000FF .noBuf none 0] }

theorem sought_disciplined : Disciplined Config.Params.default sought.trace := by
  intro before w kind data status after h
  match before, h with
  | [], h => simp [sought] at h
  | [e], h =>
    simp only [sought, List.singleton_append, List.cons.injEq, Event.devOp.injEq] at h
    obtain ⟨-, ⟨rfl, -⟩, -⟩ := h
    refine ⟨fun hw => absurd hw (by decide), fun hw => absurd hw (by decide), ?_⟩
    intros; decide
  | _ :: _ :: rest, h => simp [sought] at h

theorem witness_seekDisciplineKept :
    sought.params.wf = true ∧ SeekInv sought ∧ ∃ t, step sought = .next t :=
  ⟨by decide, ⟨sought_disciplined, [.command .read 0x000FFFFF 1], 0x0BC000FF, .noBuf, none, 0, [], rfl, by decide,
    by decide, by simp⟩, exists_next (by decide +kernel)⟩

theorem witness_runningTraceKept :
    sought.params.wf = true ∧ TraceInv sought ∧ sought.st ≠ .idle ∧ ∃ t, step sought = .next t :=
  ⟨by decide, fun _ => ⟨[], 0x000FFFFF, 1, [.devOp 0x0BC000FF .noBuf none 0], rfl, fun e he => by
      rw [List.mem_singleton.1 he]; show statusFailed sought.params 0 = false; decide, by decide⟩, by decide, exists_next (by decide +kernel)⟩

/-- `StatusChangesOnlyAtEnd`: at a completion, and at a reset. -/
theorem witness_statusChangesOnlyAtEnd :
    let s := running .adv .read 15 255 256 1 2 []
    let m : State := { State.reset with status := .outOfRange, resetLine := true }
    (∃ t, step s = .next t ∧ t.status ≠ s.status) ∧ ∃ t, step m = .next t ∧ t.status ≠ m.status :=
  ⟨⟨_, eq_next (by decide +kernel), by decide +kernel⟩, ⟨_, eq_next (by decide +kernel), by decide +kernel⟩⟩

/-- `WordsEmittedByState`, with the premises of its clause on reads. -/
theorem witness_wordsEmittedByState :
    lastByte.params.wf = true ∧ FsmInv lastByte ∧ lastByte.cmd = .read ∧ lastByte.st ≠ .idle ∧
    ∃ t, step lastByte = .next t ∧ devWords t.trace = devWords lastByte.trace ++ [0x0BC000FF] :=
  ⟨by decide, lastByte_fsmInv, rfl, by decide, ⟨_, eq_next (by decide +kernel), by decide +kernel⟩⟩

/-- `StoreChangesOnlyAtWriteBlock`: outside `WRBLK`, and in it with an address on each side of the block. -/
theorem witness_storeChangesOnlyAtWriteBlock :
    let s := running .wrblk .write 0 1 256 1 1 []
    (lastByte.params.wf = true ∧ lastByte.resetLine = false ∧ lastByte.st ≠ .wrblk ∧
      ∃ t, step lastByte = .next t) ∧
    (s.params.wf = true ∧ s.resetLine = false ∧ (∃ t, step s = .next t) ∧
      255 < linearAddress s.dev.drum s.dev.block 0 ∧ linearAddress s.dev.drum s.dev.block 0 + 256 ≤ 512) :=
  ⟨⟨by decide, rfl, by decide, exists_next (by decide +kernel)⟩,
    ⟨by decide, rfl, exists_next (by decide +kernel), by decide, by decide⟩⟩

theorem witness_idleRegistersCarryNothing :
    State.reset.params.wf = true ∧ State.reset.st = .idle ∧
    SameOutside State.reset { running .idle .write 15 255 256 7 9 [] with dev := State.reset.dev } :=
  ⟨by decide, rfl, rfl, rfl, rfl, rfl, rfl, rfl, rfl, rfl⟩

/-- The machine after reset with a device that will not answer. -/
def silent : State := { State.reset with dev := { State.reset.dev with answers := [.never] } }

/-- `MountIsItsBigStep`: a command that ends, and one that hangs. -/
theorem witness_mountIsItsBigStep :
    State.reset.params.wf = true ∧ State.reset.resetLine = false ∧ State.reset.st = .idle ∧
    (∃ u t, exec (.cmdMount 0 0) State.reset = .next u ∧ bigMount 0 0 State.reset = .ended t) ∧
    (∃ u t, exec (.cmdMount 0 0) silent = .next u ∧ bigMount 0 0 silent = .hung t) ∧
    (∃ u t, exec (.cmdUnmount 0 0) State.reset = .next u ∧ bigUnmount 0 0 State.reset = .ended t) ∧
    ∃ u t, exec (.cmdUnmount 0 0) silent = .next u ∧ bigUnmount 0 0 silent = .hung t := by
  have hn : ∀ o : Host.Outcome State Fault Refusal, isNext o = true → ∃ t, o = .next t := fun _ => exists_next
  refine ⟨by decide, rfl, rfl, ?_, ?_, ?_, ?_⟩
  · obtain ⟨u, hu⟩ := hn (exec (.cmdMount 0 0) State.reset) (by decide +kernel)
    obtain ⟨t, ht⟩ := exists_ended (r := bigMount 0 0 State.reset) (by decide +kernel)
    exact ⟨u, t, hu, ht⟩
  · obtain ⟨u, hu⟩ := hn (exec (.cmdMount 0 0) silent) (by decide +kernel)
    obtain ⟨t, ht⟩ := exists_hung (r := bigMount 0 0 silent) (by decide +kernel)
    exact ⟨u, t, hu, ht⟩
  · obtain ⟨u, hu⟩ := hn (exec (.cmdUnmount 0 0) State.reset) (by decide +kernel)
    obtain ⟨t, ht⟩ := exists_ended (r := bigUnmount 0 0 State.reset) (by decide +kernel)
    exact ⟨u, t, hu, ht⟩
  · obtain ⟨u, hu⟩ := hn (exec (.cmdUnmount 0 0) silent) (by decide +kernel)
    obtain ⟨t, ht⟩ := exists_hung (r := bigUnmount 0 0 silent) (by decide +kernel)
    exact ⟨u, t, hu, ht⟩

/-- `ReadIsItsBigStep`: a read of the last byte of the array ends, or hangs. -/
theorem witness_readIsItsBigStep :
    (State.reset.params.wf = true ∧ State.reset.resetLine = false ∧ State.reset.st = .idle ∧
      ∃ t, bigRead 0x000FFFFF 1 State.reset = .ended t) ∧
    (silent.params.wf = true ∧ silent.resetLine = false ∧ silent.st = .idle ∧
      ∃ t, bigRead 0x000FFFFF 1 silent = .hung t) :=
  ⟨⟨by decide, rfl, rfl, exists_ended (by decide +kernel)⟩, ⟨by decide, rfl, rfl, exists_hung (by decide +kernel)⟩⟩

theorem witness_writeIsItsBigStep :
    (State.reset.params.wf = true ∧ State.reset.resetLine = false ∧ State.reset.st = .idle ∧
      ∃ t, bigWrite 0x000FFFFF 1 State.reset = .ended t) ∧
    (silent.params.wf = true ∧ silent.resetLine = false ∧ silent.st = .idle ∧
      ∃ t, bigWrite 0x000FFFFF 1 silent = .hung t) :=
  ⟨⟨by decide, rfl, rfl, exists_ended (by decide +kernel)⟩, ⟨by decide, rfl, rfl, exists_hung (by decide +kernel)⟩⟩

/-- `RangeCommandsTerminate`: a device that answers, be it with failures. -/
theorem witness_rangeCommandsTerminate :
    let s : State := { State.reset with dev := { State.reset.dev with answers := [.reply 0, .reply 1] } }
    s.params.wf = true ∧ s.resetLine = false ∧ s.st = .idle ∧ s.responsive :=
  ⟨by decide, rfl, rfl, by simp [State.responsive]⟩

/-- `ReadResult`, `TraceShape`: a range up to the end of the array, and one that runs past it. -/
theorem witness_readResult :
    State.reset.params.wf = true ∧ State.reset.resetLine = false ∧ State.reset.st = .idle ∧ State.reset.ideal ∧
    1 ≤ (1 : Word).toNat ∧ (0x000FFFFF : Word).toNat < 2 ^ 20 ∧
    (0x000FFFFF : Word).toNat + (1 : Word).toNat = 2 ^ 20 ∧
    1 ≤ (2 : Word).toNat ∧ 2 ^ 20 < (0x000FFFFF : Word).toNat + (2 : Word).toNat :=
  ⟨by decide, rfl, rfl, rfl, by decide, by decide, by decide, by decide, by decide⟩

theorem witness_writeResult :
    let s : State := { State.reset with host := { State.reset.host with inBuf := [0xAA] } }
    s.params.wf = true ∧ s.resetLine = false ∧ s.st = .idle ∧ s.ideal ∧ 1 ≤ (1 : Word).toNat ∧
    (0x000FFFFF : Word).toNat < 2 ^ 20 ∧ (1 : Word).toNat ≤ s.host.inBuf.length :=
  ⟨by decide, rfl, rfl, rfl, by decide, by decide, by decide⟩

theorem witness_writeThenRead :
    let s := calling [⟨encodePacket 3 0x000FFFFF 1, [0xAA], 0⟩, ⟨encodePacket 2 0x000FFFFF 1, [], 1⟩]
    s.params.wf = true ∧ s.resetLine = false ∧ s.st = .idle ∧ s.ideal ∧ 1 ≤ (1 : Word).toNat ∧
    (0x000FFFFF : Word).toNat + (1 : Word).toNat ≤ 2 ^ 20 ∧ [(0xAA : Byte)].length = (1 : Word).toNat ∧
    s.host.calls = [⟨encodePacket 3 0x000FFFFF 1, [0xAA], 0⟩, ⟨encodePacket 2 0x000FFFFF 1, [], 1⟩] :=
  ⟨by decide, rfl, rfl, rfl, by decide, by decide, by decide, rfl⟩

/-- `TraceCounts`: a range over two drums up to the end of the array, and one that runs past it. -/
theorem witness_traceCounts :
    (State.reset.params.wf = true ∧ State.reset.resetLine = false ∧ State.reset.st = .idle ∧ State.reset.ideal) ∧
    (1 ≤ (0x10001 : Word).toNat ∧ (0x000EFFFF : Word).toNat < 2 ^ 20 ∧
      0xEFF = (0x000EFFFF : Word).toNat / 256 ∧
      0xFFF = (if (0x000EFFFF : Word).toNat + (0x10001 : Word).toNat ≤ 2 ^ 20
        then ((0x000EFFFF : Word).toNat + (0x10001 : Word).toNat - 1) / 256 else 4095) ∧
      257 = 0xFFF - 0xEFF + 1 ∧ 1 = 0xFFF / 256 - 0xEFF / 256) ∧
    (1 ≤ (0xFFFFFFFF : Word).toNat ∧ (0 : Word).toNat < 2 ^ 20 ∧ 0 = (0 : Word).toNat / 256 ∧
      4095 = (if (0 : Word).toNat + (0xFFFFFFFF : Word).toNat ≤ 2 ^ 20
        then ((0 : Word).toNat + (0xFFFFFFFF : Word).toNat - 1) / 256 else 4095) ∧
      4096 = 4095 - 0 + 1 ∧ 15 = 4095 / 256 - 0 / 256 ∧
      2 ^ 20 < (0 : Word).toNat + (0xFFFFFFFF : Word).toNat) :=
  ⟨⟨by decide, rfl, rfl, rfl⟩, by decide, by decide⟩

/-- `MountFlagMattersNot`: the flag at each value, with a step to take and an operation whose failure draws it. -/
theorem witness_mountFlagMattersNot :
    (∃ t, step (State.reset.withMounted true) = .next t) ∧
    (running .mnt .mount 0 0 0 0 0 [.reply 1]).withMounted false = running .mnt .mount 0 0 0 0 0 [.reply 1] ∧
    ∃ t, exec .mount ((running .mnt .mount 0 0 0 0 0 [.reply 1]).withMounted true) = .next t :=
  ⟨exists_next (by decide +kernel), rfl, exists_next (by decide +kernel)⟩

end Sys2Proof.Tests
end

