-- ==== Sys2Proof/Proofs/BigStepRuns.lean ====
section
/-! The FSM runs of the four commands are their big-step rules (R10). A big-step state and the FSM's state differ in
`st` only; where the big-step rule issues an operation the FSM takes one issuing step, and where it copies or advances
the FSM takes the internal step. -/

namespace Sys2Proof.Machine

/-! ## The FSM's state beside the big-step state -/

/-- The state in an FSM state: what the FSM stands in where a big-step rule stands in `s`. -/
def State.atFsm (s : State) (x : Fsm) : State := { s with st := x }

@[simp] theorem atFsm_st (s : State) (x : Fsm) : (s.atFsm x).st = x := rfl

/-- The end of a command does not depend on the FSM state it ends from. -/
@[simp] theorem atFsm_completeOk (s : State) (x : Fsm) : (s.atFsm x).completeOk = s.completeOk := rfl

/-- What the FSM does from `u` when the command in one piece does `r`: it reaches the end of a command that ends, and
a state it never leaves, with nothing more seen outside, of a command that hangs. No command is left going. -/
def FsmFollows (u : State) : Run → Prop
  | .ended t => Reaches u t ∧ t.st = .idle
  | .hung t =>
    ∃ v, Reaches u v ∧ step v = .next v ∧ v.st ≠ .idle ∧ v.trace = t.trace ∧ v.host = t.host ∧ v.dev = t.dev
  | .going _ => False

/-- A step before a run that follows the rule. -/
theorem FsmFollows.head {u v : State} {r : Run} (h : step u = .next v) (hf : FsmFollows v r) : FsmFollows u r := by
  cases r with
  | ended t => exact ⟨.head h hf.1, hf.2⟩
  | going t => exact hf
  | hung t =>
    obtain ⟨w, hvw, hw⟩ := hf
    exact ⟨w, .head h hvw, hw⟩

/-- A command that ends where the FSM already is. -/
theorem fsmFollows_ended {t : State} (h : t.st = .idle) : FsmFollows t (.ended t) := ⟨.refl t, h⟩

/-- A run that follows a rule is what the refinement statements ask for. -/
theorem FsmFollows.refines {i : Instr} {s u : State} {r : Run} (he : exec i s = .next u) (h : FsmFollows u r) :
    (∀ t, r = .ended t → ∃ u, exec i s = .next u ∧ Reaches u t ∧ t.st = .idle) ∧
    (∀ t, r = .hung t →
      ∃ u v, exec i s = .next u ∧ Reaches u v ∧ step v = .next v ∧ v.st ≠ .idle ∧
        v.trace = t.trace ∧ v.host = t.host ∧ v.dev = t.dev) ∧
    ∀ t, r ≠ .going t := by
  refine ⟨?_, ?_, ?_⟩
  · rintro t rfl
    exact ⟨u, he, h⟩
  · rintro t rfl
    obtain ⟨v, hv⟩ := h
    exact ⟨u, v, he, hv⟩
  · rintro t rfl
    exact h

/-! ## One operation -/

/-- What an operation answered with 0 may have changed: the buffer, the device, the trace and the draw counter (R101). -/
def AfterOperation (s t : State) : Prop :=
  ∃ buf dev trace draws, t = { s with buf := buf, dev := dev, trace := trace, draws := draws }

/-- The operation of a big-step rule beside the FSM's step that issues it: both wait, both end the command in the same
state, or both go on with the same answer. -/
theorem operate_step_cases {s : State} {x : Fsm} {w : Word} {kind : BufKind} {op : DeviceOp}
    {go : Block → State → State} (hs : step (s.atFsm x) = (s.atFsm x).issue w kind go)
    (ho : deviceOp s.params w = some op) :
    (s.operate w kind = .hung s ∧ step (s.atFsm x) = .next (s.atFsm x)) ∨
    (∃ t, s.operate w kind = .ended t ∧ step (s.atFsm x) = .next t ∧ t.st = .idle) ∨
    ∃ data t, s.operate w kind = .going (if kind = .fill then { t with buf := data } else t) ∧
      step (s.atFsm x) = .next (go data (t.atFsm x)) ∧ AfterOperation s t := by
  have ho' : deviceOp (s.atFsm x).params w = some op := ho
  rw [hs]
  rcases operate_cases (kind := kind) ho with ⟨ha, h⟩ | ⟨status, rest, ha, ⟨hf, h⟩ | ⟨hf, h⟩⟩
  · exact .inl ⟨h, issue_silent go ho' ha⟩
  · exact .inr (.inl ⟨_, h, issue_failed go ho' ha hf, rfl⟩)
  · exact .inr (.inr ⟨_, s.operated w kind op status rest, h, issue_ok go ho' ha hf, _, _, _, _, rfl⟩)

/-- An operation and what comes after it, when the FSM's issuing step goes on to follow what comes after. -/
theorem fsmFollows_operate {s : State} {x : Fsm} {w : Word} {kind : BufKind} {op : DeviceOp}
    {go : Block → State → State} {next : State → Run} (hx : x ≠ .idle)
    (hs : step (s.atFsm x) = (s.atFsm x).issue w kind go) (ho : deviceOp s.params w = some op)
    (hn : ∀ data t, AfterOperation s t →
      FsmFollows (go data (t.atFsm x)) (next (if kind = .fill then { t with buf := data } else t))) :
    FsmFollows (s.atFsm x) ((s.operate w kind).andThen next) := by
  rcases operate_step_cases hs ho with ⟨h, hstep⟩ | ⟨t, h, hstep, ht⟩ | ⟨data, t, h, hstep, ht⟩
  · rw [h]
    exact ⟨s.atFsm x, .refl _, hstep, hx, rfl, rfl, rfl⟩
  · rw [h]
    exact ⟨.one hstep, ht⟩
  · rw [h]
    exact .head hstep (hn data t ht)

/-! ## The loop's invariant -/

/-- What holds of a range command `c` each time round its loop and within it: the registers are those that `COPY`
accepts, and `turns` turns are enough to come to the end of the array. -/
structure LoopInv (c : Cmd) (turns : Nat) (s : State) : Prop where
  legal : s.params.wf = true
  released : s.resetLine = false
  running : s.cmd = c
  idx_le : s.idx.toNat ≤ 256
  count_le : s.count.toNat ≤ s.len.toNat
  reach : 4096 ≤ turns + (s.drum.toNat * 256 + s.block.toNat)

section loop
variable {c : Cmd} {turns : Nat} {s t : State} {next : State → Run}

theorem LoopInv.distinct (h : LoopInv c turns s) : s.params.opcodesDistinct = true :=
  Config.Params.distinct_of_wf h.legal

theorem LoopInv.turns_pos (h : LoopInv c turns s) : 0 < turns := by
  have := h.reach
  have := linear_lt s.drum s.block
  omega

theorem LoopInv.afterOperation (h : LoopInv c turns s) (ht : AfterOperation s t) : LoopInv c turns t := by
  obtain ⟨buf, dev, trace, draws, rfl⟩ := ht
  exact ⟨h.legal, h.released, h.running, h.idx_le, h.count_le, h.reach⟩

theorem LoopInv.atFsm (h : LoopInv c turns s) (x : Fsm) : LoopInv c turns (s.atFsm x) :=
  ⟨h.legal, h.released, h.running, h.idx_le, h.count_le, h.reach⟩

theorem LoopInv.withBuf (h : LoopInv c turns s) (data : Block) : LoopInv c turns { s with buf := data } :=
  h.afterOperation ⟨data, _, _, _, rfl⟩

/-- A copy moves neither `idx` past the buffer nor `count` past `len`. -/
theorem LoopInv.bumpCursor (h : LoopInv c turns s) : LoopInv c turns s.bumpCursor := by
  have hn : s.copyLength = min (256 - s.idx.toNat) (s.len.toNat - s.count.toNat) := rfl
  have hi := h.idx_le
  have hc := h.count_le
  have hl := s.len.isLt
  refine ⟨h.legal, h.released, h.running, ?_, ?_, h.reach⟩
  · simp only [bumpCursor_idx, BitVec.toNat_add, BitVec.toNat_ofNat]
    omega
  · simp only [bumpCursor_count, bumpCursor_len, BitVec.toNat_add, BitVec.toNat_ofNat]
    omega

theorem LoopInv.copyOut (h : LoopInv c turns s) : LoopInv c turns s.copyOut :=
  ⟨h.legal, h.released, h.running, h.bumpCursor.idx_le, h.bumpCursor.count_le, h.reach⟩

theorem LoopInv.copyIn (h : LoopInv c turns s) : LoopInv c turns s.copyIn :=
  ⟨h.legal, h.released, h.running, h.bumpCursor.idx_le, h.bumpCursor.count_le, h.reach⟩

theorem LoopInv.nextBlock (h : LoopInv c (turns + 1) s) (hb : s.block ≠ 255) :
    LoopInv c turns { s with block := s.block + 1, idx := 0 } := by
  refine ⟨h.legal, h.released, h.running, by simp, h.count_le, ?_⟩
  have hr := h.reach
  have hb' : (s.block + 1).toNat = s.block.toNat + 1 := by bv_omega
  simp only [hb']
  omega

theorem LoopInv.nextDrum (h : LoopInv c (turns + 1) s) (hb : s.block = 255) (hd : s.drum ≠ 15) :
    LoopInv c turns { s with block := 0, drum := s.drum + 1, idx := 0 } := by
  refine ⟨h.legal, h.released, h.running, by simp, h.count_le, ?_⟩
  have hr := h.reach
  have hb' : s.block.toNat = 255 := by rw [hb]; rfl
  have hd' : (s.drum + 1).toNat = s.drum.toNat + 1 := by bv_omega
  simp only [hd']
  omega

/-! ## The FSM states of a range command -/

theorem fsmFollows_seekDrum (h : LoopInv c turns s)
    (hn : ∀ t, LoopInv c turns t → FsmFollows (t.atFsm .seekB) (next t)) :
    FsmFollows (s.atFsm .seekD) (s.operateSeekDrum.andThen next) :=
  fsmFollows_operate (by decide) (step_seekD h.released rfl) (deviceOp_seekDrum h.distinct _ _)
    fun _ t ht => hn t (h.afterOperation ht)

theorem fsmFollows_seekBlock (h : LoopInv c turns s)
    (hn : ∀ t, LoopInv c turns t → FsmFollows (t.atFsm .rdblk) (next t)) :
    FsmFollows (s.atFsm .seekB) (s.operateSeekBlock.andThen next) :=
  fsmFollows_operate (by decide) (step_seekB h.released rfl) (deviceOp_seekBlock h.distinct _ _)
    fun _ t ht => hn t (h.afterOperation ht)

theorem fsmFollows_seekBlockBack (h : LoopInv c turns s)
    (hn : ∀ t, LoopInv c turns t → FsmFollows (t.atFsm .wrblk) (next t)) :
    FsmFollows (s.atFsm .seekB2) (s.operateSeekBlock.andThen next) :=
  fsmFollows_operate (by decide) (step_seekB2 h.released rfl) (deviceOp_seekBlock h.distinct _ _)
    fun _ t ht => hn t (h.afterOperation ht)

theorem fsmFollows_readBlock (h : LoopInv c turns s)
    (hn : ∀ t, LoopInv c turns t → FsmFollows (t.atFsm .copy) (next t)) :
    FsmFollows (s.atFsm .rdblk) (s.operateReadBlock.andThen next) :=
  fsmFollows_operate (by decide) (step_rdblk h.released rfl) (deviceOp_readBlock h.distinct _ _)
    fun data _ ht => hn _ ((h.afterOperation ht).withBuf data)

/-- The first SEEK_DRUM of a range command: the big-step rule stands in `SEEKD` as the FSM does. -/
theorem fsmFollows_firstSeek (h : LoopInv c turns s)
    (hn : ∀ t, LoopInv c turns t → FsmFollows (t.atFsm .seekB) (next t)) :
    FsmFollows (s.atFsm .seekD) ((s.atFsm .seekD).operateSeekDrum.andThen next) :=
  fsmFollows_seekDrum (h.atFsm .seekD) hn

/-- After a write-back the FSM ends the command or is in `ADV`, by the test of R147. -/
theorem fsmFollows_writeBlock (h : LoopInv c turns s)
    (hn : ∀ t, LoopInv c turns t →
      FsmFollows (if t.count = t.len then t.completeOk else t.atFsm .adv) (next t)) :
    FsmFollows (s.atFsm .wrblk) (s.operateWriteBlock.andThen next) :=
  fsmFollows_operate (by decide) (step_wrblk h.released rfl) (deviceOp_writeBlock h.distinct _ _)
    fun _ t ht => hn t (h.afterOperation ht)

theorem step_copyOut (h : LoopInv .read turns s) :
    step (s.atFsm .copy) =
      .next (if s.copyOut.count = s.copyOut.len then s.copyOut.completeOk else s.copyOut.atFsm .adv) :=
  (step_copy (s := s.atFsm .copy) h.released rfl).trans
    (copyStep_read (s := s.atFsm .copy) h.idx_le h.count_le h.running)

theorem step_copyIn (h : LoopInv .write turns s) : step (s.atFsm .copy) = .next (s.copyIn.atFsm .seekB2) :=
  (step_copy (s := s.atFsm .copy) h.released rfl).trans
    (copyStep_write (s := s.atFsm .copy) h.idx_le h.count_le h.running)

/-- The big-step rule clears `idx` after the SEEK_DRUM of a later drum (R130), the FSM before it (R31): no operation
reads `idx`, so it comes to the same. -/
theorem FsmFollows.clearIdxAfter {u : State}
    (h : FsmFollows u (({ s with idx := 0 } : State).operateSeekDrum.andThen next)) :
    FsmFollows u (s.operateSeekDrum.andThen fun t => next { t with idx := 0 }) := by
  simp only [State.operateSeekDrum, State.operate, State.devOp] at h ⊢
  cases ho : deviceOp s.params (encodeOperation s.params.opcSeekDrum s.drum s.block) with
  | none =>
    simp only [ho] at h ⊢
    exact h
  | some op =>
    cases ha : s.dev.nextAnswer with
    | none =>
      simp only [ho, ha] at h ⊢
      exact h
    | some a =>
      cases hf : statusFailed s.params a.1 <;>
      · simp only [ho, ha, hf] at h ⊢
        exact h

/-- The end of a turn: the FSM's `ADV` follows the advance of either loop. -/
theorem fsmFollows_advance {again : State → Run} (h : LoopInv c (turns + 1) s)
    (hagain : ∀ t, LoopInv c turns t → FsmFollows (t.atFsm .seekB) (again t)) :
    FsmFollows (s.atFsm .adv) (s.operateAdvance again) := by
  refine .head (step_adv h.released rfl) ?_
  unfold State.advStep State.operateAdvance
  by_cases hb : s.block = 255
  · by_cases hd : s.drum = 15
    · simp only [State.atFsm, hb, hd, ne_eq, not_true_eq_false, if_false]
      exact fsmFollows_ended rfl
    · simp only [State.atFsm, hb, hd, ne_eq, not_true_eq_false, not_false_eq_true, if_false, if_true]
      exact FsmFollows.clearIdxAfter (s := { s with block := 0, drum := s.drum + 1 })
        (fsmFollows_seekDrum (h.nextDrum hb hd) hagain)
  · simp only [State.atFsm, hb, ne_eq, not_false_eq_true, if_true]
    exact hagain _ (h.nextBlock hb)

/-- The end of a turn with the test for the end of the range before it. -/
theorem fsmFollows_endOfTurn {again : State → Run} (h : LoopInv c (turns + 1) s)
    (hagain : ∀ t, LoopInv c turns t → FsmFollows (t.atFsm .seekB) (again t)) :
    FsmFollows (if s.count = s.len then s.completeOk else s.atFsm .adv)
      (if s.count = s.len then .ended s.completeOk else s.operateAdvance again) := by
  by_cases hc : s.count = s.len
  · simp only [hc, if_true]
    exact fsmFollows_ended rfl
  · simp only [hc, if_false]
    exact fsmFollows_advance h hagain

end loop

/-! ## The loops and the range commands -/

theorem fsmFollows_readLoop (turns : Nat) :
    ∀ s, LoopInv .read turns s → FsmFollows (s.atFsm .seekB) (readLoop turns s) := by
  induction turns with
  | zero => exact fun s h => absurd h.turns_pos (Nat.lt_irrefl 0)
  | succ turns ih =>
    exact fun s h =>
      fsmFollows_seekBlock h fun t ht =>
      fsmFollows_readBlock ht fun t ht =>
      .head (step_copyOut ht) (fsmFollows_endOfTurn ht.copyOut ih)

theorem fsmFollows_writeLoop (turns : Nat) :
    ∀ s, LoopInv .write turns s → FsmFollows (s.atFsm .seekB) (writeLoop turns s) := by
  induction turns with
  | zero => exact fun s h => absurd h.turns_pos (Nat.lt_irrefl 0)
  | succ turns ih =>
    exact fun s h =>
      fsmFollows_seekBlock h fun t ht =>
      fsmFollows_readBlock ht fun t ht =>
      .head (step_copyIn ht) <|
      fsmFollows_seekBlockBack ht.copyIn fun t ht =>
      fsmFollows_writeBlock ht fun t ht =>
      fsmFollows_endOfTurn ht ih

/-- The cursor load of an accepted range begins the loop's invariant with a turn for every block of the array. -/
theorem loopInv_loadCursor {s : State} (c : Cmd) (d : BitVec 4) (b o : BitVec 8) (len : Word)
    (hp : s.params.wf = true) (hr : s.resetLine = false) (hc : s.cmd = c) :
    LoopInv c 4096 (s.loadCursor d b o len) := by
  refine ⟨hp, hr, hc, ?_, Nat.zero_le _, Nat.le_add_right _ _⟩
  have := o.isLt
  simp only [loadCursor_idx, BitVec.truncate_eq_setWidth, BitVec.toNat_setWidth]
  omega

/-- From its accept step on, the FSM follows the big-step rule of a range command whose loop it follows. -/
theorem fsmFollows_bigRange {s : State} {c : Cmd} {loop : State → Run} (addr len : Word)
    (hp : s.params.wf = true) (hr : s.resetLine = false)
    (hloop : ∀ t, LoopInv c 4096 t → FsmFollows (t.atFsm .seekB) (loop t)) :
    FsmFollows (s.acceptRange c addr len) (s.bigRange c addr len loop) := by
  unfold State.acceptRange State.bigRange
  by_cases hl : len = 0
  · simp only [hl, if_true]
    exact fsmFollows_ended rfl
  · simp only [hl, if_false]
    cases decodeAddress addr with
    | none => exact fsmFollows_ended rfl
    | some fields =>
      obtain ⟨d, b, o⟩ := fields
      exact fsmFollows_firstSeek (loopInv_loadCursor c d b o len hp hr rfl) hloop

/-! ## The mount commands -/

/-- From the state `a` in which a mount command is accepted, one step does what is left of its big-step rule `r`. -/
theorem step_is_rest_of_mount {a : State} {w : Word} {op : DeviceOp} {r : Run} (ha : a.st = .mnt)
    (hs : step a = a.issue w .noBuf fun _ t => t.completeOk) (ho : deviceOp a.params w = some op)
    (hr : r = (a.operate w .noBuf).andThen fun t => .ended t.completeOk) :
    (∀ t, r = .ended t → step a = .next t) ∧ (∀ t, r = .hung t → t = a ∧ step a = .next a) ∧
      ∀ t, r ≠ .going t := by
  subst hr
  have hmnt : a.atFsm .mnt = a := by rw [← ha]; rfl
  have hcases := operate_step_cases (s := a) (x := .mnt) (by rwa [hmnt]) ho
  rw [hmnt] at hcases
  rcases hcases with ⟨h, hstep⟩ | ⟨t, h, hstep, -⟩ | ⟨data, t, h, hstep, -⟩
  · simp [h, hstep, Run.andThen]
  · simp [h, hstep, Run.andThen]
  · simp [h, hstep, Run.andThen]

/-- Settles O44: the accept step leads to `MNT`, whose one step is the rest of the big-step rule. -/
theorem mountIsItsBigStep : Obligations.MountIsItsBigStep := by
  intro s u addr len hp hr hst
  have hd := Config.Params.distinct_of_wf hp
  have hbusy : s.busy = false := by simp [State.busy, hst]
  constructor
  · intro he
    have hu : u = s.acceptMount .mount addr len := by simpa [exec, execCmdMount, hbusy] using he.symm
    subst hu
    exact step_is_rest_of_mount rfl (step_mnt hr rfl) (deviceOp_mount 0 0) rfl
  · intro he
    have hu : u = s.acceptMount .unmount addr len := by simpa [exec, execCmdUnmount, hbusy] using he.symm
    subst hu
    exact step_is_rest_of_mount rfl (step_mnt hr rfl) (deviceOp_unmount hd 0 0) rfl

/-- Settles O45: by induction on the turns of the read loop, of which the array leaves enough. -/
theorem readIsItsBigStep : Obligations.ReadIsItsBigStep := by
  intro s addr len hp hr hst
  have he : exec (.cmdRead addr len) s = .next (s.acceptRange .read addr len) := by
    simp [exec, execCmdRead, State.busy, hst]
  exact (fsmFollows_bigRange addr len hp hr (fsmFollows_readLoop 4096)).refines he

/-- Settles O46: by induction on the turns of the write loop, of which the array leaves enough. -/
theorem writeIsItsBigStep : Obligations.WriteIsItsBigStep := by
  intro s addr len hp hr hst
  have he : exec (.cmdWrite addr len) s = .next (s.acceptRange .write addr len) := by
    simp [exec, execCmdWrite, State.busy, hst]
  exact (fsmFollows_bigRange addr len hp hr (fsmFollows_writeLoop 4096)).refines he

end Sys2Proof.Machine
end

/-! The invariants of R38, the canonical forms of the memories, what `params` and `status` go through, the two
noninterference statements (R37, R112), and the statements of tier 1 about accepting, issuing, raising and reset. The
step is taken apart once for legal parameters (`Row`) and once for any (`StepChange`); each invariant is then a case
analysis on how the step went. -/

namespace Sys2Proof.Machine

/-! ## What a step does, whatever the parameters -/

/-- A step that answers a next state, under any parameters, legal or not: `Row` without the knowledge of which
operation a word asks for, which needs distinct opcodes. -/
inductive StepChange (s : State) : State → Prop where
  | none : StepChange s s
  | reset : StepChange s s.takeReset
  | acceptMount (c : Call) (rest : List Call) (k : Cmd) (addr len : Word) :
      StepChange s ((s.takeCall c rest).acceptMount k addr len)
  | acceptRange (c : Call) (rest : List Call) (k : Cmd) (addr len : Word) :
      StepChange s ((s.takeCall c rest).acceptRange k addr len)
  | failed (w : Word) (kind : BufKind) (op : DeviceOp) (status : Nat) (rest : List Answer) :
      StepChange s ((s.operated w kind op status rest).raise .deviceFailure)
  | completed (w : Word) (kind : BufKind) (op : DeviceOp) (status : Nat) (rest : List Answer) :
      StepChange s (s.operated w kind op status rest).completeOk
  | wentOn (w : Word) (kind : BufKind) (op : DeviceOp) (status : Nat) (rest : List Answer) (buf : Block) (st : Fsm) :
      StepChange s { s.operated w kind op status rest with buf := buf, st := st }
  | copyDone (hl : s.count.toNat ≤ s.len.toNat) : StepChange s s.copyOut.completeOk
  | copyMore (hl : s.count.toNat ≤ s.len.toNat) : StepChange s { s.copyOut with st := .adv }
  | copyIn : StepChange s { s.copyIn with st := .seekB2 }
  | adv : StepChange s s.advStep

/-- An issuing step is a change if each way it goes on is. -/
theorem stepChange_of_issue {s t : State} {w : Word} {kind : BufKind} {go : Block → State → State}
    (h : s.issue w kind go = .next t)
    (hgo : ∀ data op status rest, StepChange s (go data (s.operated w kind op status rest))) : StepChange s t := by
  rcases issue_next h with rfl | ⟨op, status, rest, -, -, ⟨-, rfl⟩ | ⟨-, rfl⟩⟩
  · exact .none
  · exact .failed w kind op status rest
  · exact hgo _ op status rest

/-- `COPY` answers a next state only with `count` within `len` (R86). -/
theorem stepChange_of_copyStep {s t : State} (h : s.copyStep = .next t) : StepChange s t := by
  unfold State.copyStep at h
  split at h
  · cases h
  · next hb =>
    have hl : s.count.toNat ≤ s.len.toNat := by omega
    split at h
    · split at h <;> cases h
      · exact .copyDone hl
      · exact .copyMore hl
    · cases h
      exact .copyIn
    · cases h
    · cases h

/-- Every step that answers a next state is one of the changes, whatever the parameters. -/
theorem stepChange_of_step {s t : State} (h : step s = .next t) : StepChange s t := by
  cases hr : s.resetLine with
  | true =>
    rw [step_reset hr] at h
    cases h
    exact .reset
  | false =>
    cases hst : s.st with
    | idle =>
      cases hc : s.host.calls with
      | nil =>
        rw [step_idle_none hr hst hc] at h
        cases h
        exact .none
      | cons c rest =>
        rw [step_idle_call hr hst hc] at h
        rcases exec_decodePacket (s := s.takeCall c rest) c.packet hst with ⟨k, -, he⟩ | ⟨k, -, he⟩
        · cases he.symm.trans h
          exact .acceptMount c rest k _ _
        · cases he.symm.trans h
          exact .acceptRange c rest k _ _
    | mnt => exact stepChange_of_issue (step_mnt hr hst ▸ h) fun _ op status rest => .completed _ _ op status rest
    | seekD =>
      exact stepChange_of_issue (step_seekD hr hst ▸ h) fun _ op status rest => .wentOn _ _ op status rest _ _
    | seekB =>
      exact stepChange_of_issue (step_seekB hr hst ▸ h) fun _ op status rest => .wentOn _ _ op status rest _ _
    | rdblk =>
      exact stepChange_of_issue (step_rdblk hr hst ▸ h) fun _ op status rest => .wentOn _ _ op status rest _ _
    | copy => exact stepChange_of_copyStep (step_copy hr hst ▸ h)
    | seekB2 =>
      exact stepChange_of_issue (step_seekB2 hr hst ▸ h) fun _ op status rest => .wentOn _ _ op status rest _ _
    | wrblk =>
      refine stepChange_of_issue (step_wrblk hr hst ▸ h) fun _ op status rest => ?_
      split
      · exact .completed _ _ op status rest
      · exact .wentOn _ _ op status rest _ _
    | adv =>
      rw [step_adv hr hst] at h
      cases h
      exact .adv

/-! ## The accept step of a range command and the cursor advance, each said once -/

/-- The accept step of a range command ends it at once, or loads the cursor of a valid address (R121 to R123). -/
theorem acceptRange_finish_or_load (s : State) (c : Cmd) (addr len : Word) :
    (∃ code, s.acceptRange c addr len =
      ({ s with cmd := c, trace := s.trace ++ [Event.command c addr len] } : State).finish code) ∨
    ∃ d b o, decodeAddress addr = some (d, b, o) ∧ len ≠ 0 ∧
      s.acceptRange c addr len =
        { s with
          cmd := c, len := len, drum := d, block := b, idx := o.zeroExtend 9, count := 0, st := .seekD,
          trace := s.trace ++ [.command c addr len] } := by
  unfold State.acceptRange
  by_cases hl : len = 0
  · exact .inl ⟨.ok, by simp only [hl, if_true]; rfl⟩
  · simp only [if_neg hl]
    cases hd : decodeAddress addr with
    | none => exact .inl ⟨_, rfl⟩
    | some fields =>
      obtain ⟨d, b, o⟩ := fields
      exact .inr ⟨d, b, o, rfl, hl, rfl⟩

section frame
variable (s : State) (c : Cmd) (addr len : Word)

@[simp] theorem acceptRange_params : (s.acceptRange c addr len).params = s.params := by
  rcases acceptRange_finish_or_load s c addr len with ⟨code, h⟩ | ⟨d, b, o, -, -, h⟩ <;> simp [h]

@[simp] theorem acceptRange_dev : (s.acceptRange c addr len).dev = s.dev := by
  rcases acceptRange_finish_or_load s c addr len with ⟨code, h⟩ | ⟨d, b, o, -, -, h⟩ <;> simp [h]

@[simp] theorem acceptRange_host : (s.acceptRange c addr len).host = s.host := by
  rcases acceptRange_finish_or_load s c addr len with ⟨code, h⟩ | ⟨d, b, o, -, -, h⟩ <;> simp [h]

/-- The cursor advance moves the cursor, or ends the command (R129). -/
theorem advStep_move_or_finish :
    (∃ drum block st, s.advStep = { s with drum := drum, block := block, idx := 0, st := st }) ∨
      s.advStep = s.finish .outOfRange := by
  unfold State.advStep
  split
  · exact .inl ⟨_, _, _, rfl⟩
  · split
    · exact .inl ⟨_, _, _, rfl⟩
    · exact .inr rfl

@[simp] theorem advStep_params : s.advStep.params = s.params := by
  rcases advStep_move_or_finish s with ⟨drum, block, st, h⟩ | h <;> simp [h]

@[simp] theorem advStep_dev : s.advStep.dev = s.dev := by
  rcases advStep_move_or_finish s with ⟨drum, block, st, h⟩ | h <;> simp [h]

@[simp] theorem advStep_host : s.advStep.host = s.host := by
  rcases advStep_move_or_finish s with ⟨drum, block, st, h⟩ | h <;> simp [h]

end frame

/-! ## The parameters -/

/-- Settles O39: no change a step can make has a part in `params`. -/
theorem parametersNeverChange : Obligations.ParametersNeverChange := by
  intro s t h
  cases stepChange_of_step h with
  | none | reset | acceptMount | failed | completed | wentOn | copyDone | copyMore | copyIn => rfl
  | acceptRange => simp
  | adv => simp

/-! ## The status -/

/-- The end of a command delivers the status it writes (R165, R166). -/
theorem finish_reports (s : State) (code : Status) :
    (s.finish code).st = .idle ∧
      ((s.finish code).trace.getLast? = some (.completion (s.finish code).status) ∨
        (s.finish code).trace.getLast? = some .reset) := by
  simp

/-- Settles O40: a change that is neither a reset nor the end of a command keeps `status`. -/
theorem statusChangesOnlyAtEnd : Obligations.StatusChangesOnlyAtEnd := by
  intro s t h hne
  cases stepChange_of_step h with
  | none | acceptMount | wentOn | copyMore | copyIn => exact absurd rfl hne
  | reset => simp
  | failed | completed | copyDone => exact finish_reports _ _
  | acceptRange c rest k addr len =>
    rcases acceptRange_finish_or_load (s.takeCall c rest) k addr len with ⟨code, he⟩ | ⟨d, b, o, -, -, he⟩
    · rw [he]
      exact finish_reports _ _
    · rw [he] at hne
      exact absurd rfl hne
  | adv =>
    rcases advStep_move_or_finish s with ⟨drum, block, st, he⟩ | he
    · rw [he] at hne
      exact absurd rfl hne
    · rw [he]
      exact finish_reports _ _

/-! ## The canonical forms of the store and of the `out` buffers -/

/-- Whatever an operation does to the device, it writes a whole block of the array or none (R46, R98). -/
theorem succeed_store_wf {dev : Device} (h : dev.store.wf) (op : DeviceOp) (w : Word) (wdata : Block) (draw : Nat) :
    (dev.succeed op w wdata draw).store.wf := by
  cases op with
  | mount | unmount | seekDrum | seekBlock | readBlock => exact h
  | writeBlock => exact writeBlock_wf _ _ _ h (linearAddress_bound _ _)

theorem fail_store_wf {dev : Device} (h : dev.store.wf) (op : DeviceOp) (draw : Nat) :
    (dev.fail op draw).store.wf := by
  cases op with
  | mount | unmount | seekDrum | seekBlock | readBlock => exact h
  | writeBlock => exact writeBlock_wf _ _ _ h (linearAddress_bound _ _)

theorem operated_store_wf {s : State} (h : s.dev.store.wf) (w : Word) (kind : BufKind) (op : DeviceOp) (status : Nat)
    (rest : List Answer) : (s.operated w kind op status rest).dev.store.wf := by
  cases hf : statusFailed s.params status with
  | true =>
    rw [operated_dev_failed s w kind op status rest hf]
    exact fail_store_wf h op _
  | false =>
    rw [operated_dev_ok s w kind op status rest hf]
    exact succeed_store_wf h op w _ _

theorem deviceAfterReset_store_wf {s : State} (h : s.dev.store.wf) : s.deviceAfterReset.store.wf := by
  unfold State.deviceAfterReset
  split
  · split
    · split
      · split
        · exact succeed_store_wf h _ _ _ _
        · exact fail_store_wf h _ _
      · exact h
    · exact h
  · exact h

/-- A copy delivers no index of 32 bits or more, since it stays within `len` (R127). -/
theorem copyOut_outs_wf {s : State} (h : s.host.outs.wf) (hl : s.count.toNat ≤ s.len.toNat) :
    s.copyOut.host.outs.wf := by
  refine deliverTo_wf _ _ _ _ h ?_
  have hlen := s.len.isLt
  simp only [State.outgoing, List.length_map, List.length_range, State.copyLength]
  omega

/-- Settles O35: the store changes by whole blocks of the array, the buffers by bytes within `len`. -/
theorem memoryInvariantKept : Obligations.MemoryInvariantKept := by
  rintro s t ⟨hstore, houts⟩ h
  cases stepChange_of_step h with
  | none | acceptMount | copyIn => exact ⟨hstore, houts⟩
  | reset => exact ⟨deviceAfterReset_store_wf hstore, houts⟩
  | acceptRange =>
    rw [MemoryInv, acceptRange_dev, acceptRange_host]
    exact ⟨hstore, houts⟩
  | adv =>
    rw [MemoryInv, advStep_dev, advStep_host]
    exact ⟨hstore, houts⟩
  | failed w kind op status rest | completed w kind op status rest | wentOn w kind op status rest =>
    exact ⟨operated_store_wf hstore w kind op status rest, houts⟩
  | copyDone hl | copyMore hl => exact ⟨hstore, copyOut_outs_wf houts hl⟩

/-! ## The FSM's invariant: the accept step -/

/-- In `IDLE` the relations ask for nothing (R38). -/
theorem running_of_idle {a : Nat} {t : State} (h : t.st = .idle) : Running a t := by
  simp [Running, h]

/-- An accepted range command begins with the relations for its own start address (R38 I1, R123). -/
theorem acceptRange_running {s t : State} {c : Cmd} {addr len : Word} (hc : c = .read ∨ c = .write)
    (h : s.acceptRange c addr len = t) (ht : t.st ≠ .idle) :
    Running addr.toNat t ∧ addr.toNat < Config.capacity ∧ t.len = len := by
  subst h
  rcases acceptRange_finish_or_load s c addr len with ⟨code, h⟩ | ⟨d, b, o, hdecode, hlen, h⟩
  · rw [h] at ht
    exact absurd rfl ht
  · have hvalid : addr.toNat < Config.capacity := by
      by_contra hinvalid
      rw [decodeAddress_of_invalid addr (Nat.le_of_not_lt hinvalid)] at hdecode
      cases hdecode
    obtain ⟨d', b', o', hfields, hd, hb, ho⟩ := decodeAddress_of_valid addr hvalid
    obtain ⟨rfl, rfl, rfl⟩ : d = d' ∧ b = b' ∧ o = o' := by simpa [hdecode] using hfields
    have hpos : 0 < len.toNat := by bv_omega
    have hidx : (o.zeroExtend 9).toNat = addr.toNat % 256 := by
      rw [show o.zeroExtend 9 = o.setWidth 9 from rfl, BitVec.toNat_setWidth, ho]
      omega
    rw [h]
    refine ⟨⟨hc, hpos, ?_, ?_, fun _ => hidx, fun hcount => absurd rfl hcount⟩, hvalid, rfl⟩
    · show (o.zeroExtend 9).toNat ≤ 255
      omega
    · show linearAddress d b 0 + (o.zeroExtend 9).toNat = addr.toNat + 0
      rw [linearAddress, hidx]
      omega

/-! ## The FSM's invariant: the copy and the advance -/

/-- What a copy within bounds does to the two counters: neither wraps around, and it ends at the end of the buffer or
of the range (R127, R145). -/
theorem bumpCursor_toNat {s : State} (hi : s.idx.toNat ≤ 256) (hl : s.count.toNat ≤ s.len.toNat) :
    s.bumpCursor.idx.toNat = s.idx.toNat + s.copyLength ∧ s.bumpCursor.count.toNat = s.count.toNat + s.copyLength ∧
      s.bumpCursor.idx.toNat ≤ 256 ∧ s.bumpCursor.count.toNat ≤ s.len.toNat ∧
      (s.bumpCursor.idx.toNat = 256 ∨ s.bumpCursor.count = s.len) := by
  have hlen := s.len.isLt
  have hn : s.copyLength = min (256 - s.idx.toNat) (s.len.toNat - s.count.toNat) := rfl
  have hidx : s.bumpCursor.idx.toNat = s.idx.toNat + s.copyLength := by
    simp only [bumpCursor_idx, BitVec.toNat_add, BitVec.toNat_ofNat]
    omega
  have hcount : s.bumpCursor.count.toNat = s.count.toNat + s.copyLength := by
    simp only [bumpCursor_count, BitVec.toNat_add, BitVec.toNat_ofNat]
    omega
  refine ⟨hidx, hcount, by omega, by omega, ?_⟩
  rw [← BitVec.toNat_inj]
  omega

/-- A copy moves the cursor and the count by the same amount (R38 I2). -/
theorem bumpCursor_cursorAt {s : State} {a : Nat} (hi : s.idx.toNat ≤ 256) (hl : s.count.toNat ≤ s.len.toNat)
    (h : CursorAt a s) : CursorAt a s.bumpCursor := by
  obtain ⟨hidx, hcount, -⟩ := bumpCursor_toNat hi hl
  simp only [CursorAt] at h ⊢
  rw [hidx, hcount, bumpCursor_drum, bumpCursor_block]
  omega

/-- The cursor moved on by one block, from the end of the last one (R38 I1 after R129). -/
theorem running_nextBlock {s : State} {a : Nat} {drum : BitVec 4} {block : BitVec 8} {st : Fsm}
    (hst : s.st = .adv) (h : Running a s) (hst' : st = .seekB ∨ st = .seekD)
    (hnext : linearAddress drum block 0 = linearAddress s.drum s.block 0 + 256) :
    Running a { s with drum := drum, block := block, idx := 0, st := st } := by
  have hzero : (0 : BitVec 9).toNat = 0 := rfl
  simp only [Running, hst] at h
  obtain ⟨hrange, hlt, hidx, hpos⟩ := h
  rw [CursorAt, hidx, ← hnext] at hpos
  have hoffset : s.count = 0 → (0 : BitVec 9).toNat = a % 256 := fun hcount => by
    rw [hcount, show BitVec.toNat (0 : Word) = 0 from rfl, linearAddress] at hpos
    omega
  have hpos' : linearAddress drum block 0 + (0 : BitVec 9).toNat = a + s.count.toNat := by omega
  rcases hst' with rfl | rfl <;>
    exact ⟨hrange, hlt, Nat.zero_le _, hpos', hoffset, fun _ => rfl⟩

/-- `ADV` goes on at the next block, or ends the command past the last one (R129). -/
theorem advStep_running {s : State} {a : Nat} (hst : s.st = .adv) (h : Running a s) : Running a s.advStep := by
  unfold State.advStep
  split
  · next hblock =>
    have hnext : (s.block + 1).toNat = s.block.toNat + 1 := by bv_omega
    refine running_nextBlock hst h (.inl rfl) ?_
    rw [linearAddress, linearAddress, hnext]
    omega
  · next hblock =>
    split
    · next hdrum =>
      have hlast : s.block.toNat = 255 := by rw [not_ne_iff.1 hblock]; rfl
      have hnext : (s.drum + 1).toNat = s.drum.toNat + 1 := by bv_omega
      refine running_nextBlock hst h (.inr rfl) ?_
      rw [linearAddress, linearAddress, hnext, hlast, show BitVec.toNat (0 : BitVec 8) = 0 from rfl]
      omega
    · exact running_of_idle rfl

theorem advStep_len {s : State} (h : s.advStep.st ≠ .idle) : s.advStep.len = s.len := by
  rcases advStep_move_or_finish s with ⟨drum, block, st, he⟩ | he
  · rw [he]
  · rw [he] at h
    exact absurd rfl h

/-! ## The FSM's invariant: every step -/

/-- Every row of R31 taken while a command runs keeps the relations for its start address, and its length (I1 to I4). -/
theorem running_of_row {s t : State} {a : Nat} (hst : s.st ≠ .idle) (h : Running a s) (hrow : Row s t) :
    Running a t ∧ (t.st ≠ .idle → t.len = s.len) := by
  cases hrow with
  | reset | failed | mnt | copyDone | wrblkDone => exact ⟨running_of_idle rfl, fun ht => absurd rfl ht⟩
  | idle _ hidle | acceptMount _ _ _ _ hidle | acceptRange _ _ _ _ hidle => exact absurd hidle hst
  | silent => exact ⟨h, fun _ => rfl⟩
  | seekD _ hs | seekB _ hs | rdblk _ hs | seekB2 _ hs =>
    simp only [Running, hs] at h
    exact ⟨h, fun _ => rfl⟩
  | copyMore _ hs hc hi hl hd =>
    simp only [Running, hs] at h
    obtain ⟨hrange, -, -, hpos, -, -⟩ := h
    obtain ⟨-, -, -, hle, hend⟩ := bumpCursor_toNat hi hl
    have hne : s.bumpCursor.count.toNat ≠ s.len.toNat := fun he => hd (BitVec.toNat_inj.1 he)
    exact ⟨⟨hrange, Nat.lt_of_le_of_ne hle hne, hend.resolve_right hd, bumpCursor_cursorAt hi hl hpos⟩, fun _ => rfl⟩
  | copyIn _ hs hc hi hl =>
    simp only [Running, hs] at h
    obtain ⟨-, -, -, hpos, -, -⟩ := h
    obtain ⟨-, -, hidx, hle, hend⟩ := bumpCursor_toNat hi hl
    exact ⟨⟨hc, hle, hidx, hend, bumpCursor_cursorAt hi hl hpos⟩, fun _ => rfl⟩
  | wrblkMore _ hs _ _ _ _ hd =>
    simp only [Running, hs] at h
    obtain ⟨hc, hle, -, hend, hpos⟩ := h
    have hne : s.count.toNat ≠ s.len.toNat := fun he => hd (BitVec.toNat_inj.1 he)
    exact ⟨⟨.inr hc, Nat.lt_of_le_of_ne hle hne, hend.resolve_right hd, hpos⟩, fun _ => rfl⟩
  | adv _ hs => exact ⟨advStep_running hs h, advStep_len⟩

/-- From `IDLE` every step leads to a state whose command, if one runs, has a valid start address. -/
theorem running_of_row_idle {s t : State} (hst : s.st = .idle) (hrow : Row s t) :
    ∃ a, a < Config.capacity ∧ Running a t := by
  have hzero : 0 < Config.capacity := by decide
  by_cases ht : t.st = .idle
  · exact ⟨0, hzero, running_of_idle ht⟩
  · cases hrow with
    | reset | failed | mnt | copyDone | wrblkDone => exact absurd rfl ht
    | idle | silent => exact absurd hst ht
    | acceptMount _ _ _ _ _ _ hk => exact ⟨0, hzero, hk⟩
    | acceptRange _ _ _ _ _ _ hk =>
      obtain ⟨hrun, hvalid, -⟩ := acceptRange_running hk rfl ht
      exact ⟨_, hvalid, hrun⟩
    | seekD _ hs | seekB _ hs | rdblk _ hs | seekB2 _ hs | copyMore _ hs | copyIn _ hs | wrblkMore _ hs | adv _ hs =>
      rw [hst] at hs
      cases hs

/-- Settles O32: from `IDLE` by the accept step, and while a command runs for the start address it has. -/
theorem fsmInvariantKept : Obligations.FsmInvariantKept := by
  rintro s t ⟨hp, a, ha, hrun⟩ h
  refine ⟨parametersNeverChange s t h ▸ hp, ?_⟩
  by_cases hst : s.st = .idle
  · exact running_of_row_idle hst (step_row hp h)
  · exact ⟨a, ha, (running_of_row hst hrun (step_row hp h)).1⟩

/-- What I1 to I3 of R38 have in common, whichever FSM state a range command is in. -/
theorem cursorAt_of_running {s : State} {a : Nat} (hidle : s.st ≠ .idle) (hmnt : s.st ≠ .mnt) (h : Running a s) :
    CursorAt a s ∧ s.idx.toNat ≤ 256 := by
  cases hst : s.st with
  | idle => exact absurd hst hidle
  | mnt => exact absurd hst hmnt
  | seekD | seekB | rdblk | copy =>
    simp only [Running, hst] at h
    obtain ⟨-, -, hidx, hpos, -⟩ := h
    exact ⟨hpos, by omega⟩
  | seekB2 | wrblk =>
    simp only [Running, hst] at h
    obtain ⟨-, -, hidx, -, hpos⟩ := h
    exact ⟨hpos, hidx⟩
  | adv =>
    simp only [Running, hst] at h
    obtain ⟨-, -, hidx, hpos⟩ := h
    exact ⟨hpos, hidx.le⟩

/-- On entry to `COPY` there is at least one byte to move (R38 I5). -/
theorem one_le_copyLength {s : State} {a : Nat} (hst : s.st = .copy) (h : Running a s) : 1 ≤ s.copyLength := by
  simp only [Running, hst] at h
  obtain ⟨-, hlt, hidx, -⟩ := h
  simp only [State.copyLength, blockSize_eq]
  omega

/-- Settles O33: the accept step establishes the relations, every row keeps them, and each bounds the position. -/
theorem runningCommandKeepsInvariant : Obligations.RunningCommandKeepsInvariant := by
  refine ⟨fun s t addr len hst ht h => ?_, fun s t a hp _ hst hrun h => running_of_row hst hrun (step_row hp h),
    fun s a hidle hmnt hrun => ⟨?_, fun hst => one_le_copyLength hst hrun⟩⟩
  · have hbusy : s.busy = false := by simp [State.busy, hst]
    rcases h with h | h
    · exact acceptRange_running (.inl rfl) (by simpa [exec, execCmdRead, hbusy] using h) ht
    · exact acceptRange_running (.inr rfl) (by simpa [exec, execCmdWrite, hbusy] using h) ht
  · obtain ⟨hpos, hidx⟩ := cursorAt_of_running hidle hmnt hrun
    have hroom := linearAddress_bound s.drum s.block
    simp only [CursorAt, Config.capacity] at hpos hroom
    omega

/-! ## No fault and no refusal -/

/-- An issuing step whose word is one of the six operations answers a next state. -/
theorem issue_answers {s : State} {w : Word} {kind : BufKind} {op : DeviceOp} (go : Block → State → State)
    (ho : deviceOp s.params w = some op) : ∃ t, s.issue w kind go = .next t := by
  rcases issue_cases (kind := kind) go ho with ⟨-, h⟩ | ⟨_, _, -, ⟨-, h⟩ | ⟨-, h⟩⟩ <;> exact ⟨_, h⟩

/-- Settles O34: a call is accepted, the word of an issuing state is an operation, and `COPY` finds its registers
within bounds. -/
theorem invariantNeverStops : Obligations.InvariantNeverStops := by
  rintro s ⟨hp, a, -, hrun⟩
  have hd := Config.Params.distinct_of_wf hp
  cases hr : s.resetLine with
  | true => exact ⟨_, step_reset hr⟩
  | false =>
    cases hst : s.st with
    | idle =>
      cases hc : s.host.calls with
      | nil => exact ⟨s, step_idle_none hr hst hc⟩
      | cons c rest =>
        rw [step_idle_call hr hst hc]
        rcases exec_decodePacket (s := s.takeCall c rest) c.packet hst with ⟨_, -, he⟩ | ⟨_, -, he⟩ <;> exact ⟨_, he⟩
    | mnt =>
      rw [step_mnt hr hst]
      split
      · exact issue_answers _ (deviceOp_mount 0 0)
      · exact issue_answers _ (deviceOp_unmount hd 0 0)
    | seekD => exact step_seekD hr hst ▸ issue_answers _ (deviceOp_seekDrum hd _ _)
    | seekB => exact step_seekB hr hst ▸ issue_answers _ (deviceOp_seekBlock hd _ _)
    | rdblk => exact step_rdblk hr hst ▸ issue_answers _ (deviceOp_readBlock hd _ _)
    | copy =>
      simp only [Running, hst] at hrun
      obtain ⟨hrange, hlt, hidx, -⟩ := hrun
      rw [step_copy hr hst]
      rcases hrange with hc | hc
      · exact ⟨_, copyStep_read (by omega) hlt.le hc⟩
      · exact ⟨_, copyStep_write (by omega) hlt.le hc⟩
    | seekB2 => exact step_seekB2 hr hst ▸ issue_answers _ (deviceOp_seekBlock hd _ _)
    | wrblk => exact step_wrblk hr hst ▸ issue_answers _ (deviceOp_writeBlock hd _ _)
    | adv => exact ⟨_, step_adv hr hst⟩

/-! ## The registers of R37 -/

/-- The registers that R37 leaves unspecified outside a command: all but `st` and `status`. -/
structure Registers where
  cmd : Cmd
  len : BitVec 32
  drum : BitVec 4
  block : BitVec 8
  count : BitVec 32
  idx : BitVec 9
  buf : Block

/-- Those registers of a state. -/
def State.registers (s : State) : Registers := ⟨s.cmd, s.len, s.drum, s.block, s.count, s.idx, s.buf⟩

/-- The state with others in their place. -/
def State.withRegisters (s : State) (r : Registers) : State :=
  { s with cmd := r.cmd, len := r.len, drum := r.drum, block := r.block, count := r.count, idx := r.idx, buf := r.buf }

theorem withRegisters_registers (s : State) : s.withRegisters s.registers = s := rfl

theorem sameOutside_withRegisters (s : State) (r : Registers) : SameOutside s (s.withRegisters r) :=
  ⟨rfl, rfl, rfl, rfl, rfl, rfl, rfl, rfl⟩

/-- Agreeing on all but those registers is having others of them. -/
theorem eq_withRegisters_of_sameOutside {s t : State} (h : SameOutside s t) : t = s.withRegisters t.registers := by
  obtain ⟨hst, hstatus, hparams, hdev, hhost, hreset, htrace, hdraws⟩ := h
  cases t
  simp_all [State.withRegisters, State.registers]

/-! ## What a running command may read of them -/

/-- The registers `r` hold what the rest of the command can read in `s`: in `IDLE` nothing, in `MNT` the command, before
a block was read everything but the buffer, and from then on everything. -/
def LiveEq (s : State) (r : Registers) : Prop :=
  match s.st with
  | .idle => True
  | .mnt => r.cmd = s.cmd
  | .seekD | .seekB | .rdblk => r = { s.registers with buf := r.buf }
  | .copy | .seekB2 | .wrblk | .adv => r = s.registers

/-- Before a block was read they may differ in the buffer alone. -/
theorem LiveEq.exists_buf {s : State} {r : Registers} (h : LiveEq s r)
    (hst : s.st = .seekD ∨ s.st = .seekB ∨ s.st = .rdblk) : ∃ buf, r = { s.registers with buf := buf } := by
  refine ⟨r.buf, ?_⟩
  rcases hst with hst | hst | hst <;> simpa only [LiveEq, hst] using h

/-- Two states that differ in registers only, and in none that the rest of the command can read. Where a command ends,
the two are one state: `finish` and `takeReset` draw every one of these registers afresh (R37). -/
def Alike (s t : State) : Prop := ∃ r, t = s.withRegisters r ∧ LiveEq s r

theorem Alike.refl (s : State) : Alike s s := by
  refine ⟨s.registers, rfl, ?_⟩
  unfold LiveEq
  split <;> trivial

theorem Alike.sameOutside {s t : State} (h : Alike s t) : SameOutside s t := by
  obtain ⟨r, rfl, -⟩ := h
  exact sameOutside_withRegisters s r

theorem alike_of_idle {s t : State} (hst : s.st = .idle) (h : SameOutside s t) : Alike s t :=
  ⟨t.registers, eq_withRegisters_of_sameOutside h, by simp [LiveEq, hst]⟩

/-- Two steps that both answer a next state, alike. -/
def NextAlike (o p : Host.Outcome State Fault Refusal) : Prop := ∃ u v, o = .next u ∧ p = .next v ∧ Alike u v

/-! ## The accept step -/

theorem acceptMount_alike (s : State) (r : Registers) (c : Cmd) (addr len : Word) :
    Alike (s.acceptMount c addr len) ((s.withRegisters r).acceptMount c addr len) :=
  ⟨{ r with cmd := c }, rfl, rfl⟩

/-- The accept step of a range command ends it, or overwrites every register but the buffer (R123). -/
theorem acceptRange_alike (s : State) (r : Registers) (c : Cmd) (addr len : Word) :
    Alike (s.acceptRange c addr len) ((s.withRegisters r).acceptRange c addr len) := by
  unfold State.acceptRange
  by_cases hl : len = 0
  · simp only [hl, if_true]
    exact .refl _
  · simp only [hl, if_false]
    cases decodeAddress addr with
    | none => exact .refl _
    | some fields =>
      obtain ⟨d, b, o⟩ := fields
      exact ⟨⟨c, len, d, b, 0, o.zeroExtend 9, r.buf⟩, rfl, rfl⟩

/-- A host command in `IDLE` is its accept step. -/
theorem accept_alike {s : State} {r : Registers} (hst : s.st = .idle) (accept : State → State)
    (h : Alike (accept s) (accept (s.withRegisters r))) :
    NextAlike (if s.busy then .next s else .next (accept s))
      (if (s.withRegisters r).busy then .next (s.withRegisters r) else .next (accept (s.withRegisters r))) := by
  have hbusy : s.busy = false := by simp [State.busy, hst]
  have hbusy' : (s.withRegisters r).busy = false := hbusy
  rw [hbusy, hbusy']
  exact ⟨_, _, rfl, rfl, h⟩

/-- In `IDLE` the same packet is accepted alike. -/
theorem exec_decodePacket_alike {s : State} (r : Registers) (p : Packet) (hst : s.st = .idle) :
    NextAlike (exec (decodePacket p) s) (exec (decodePacket p) (s.withRegisters r)) := by
  unfold decodePacket
  split
  · exact accept_alike hst (fun t => t.acceptMount .mount _ _) (acceptMount_alike s r _ _ _)
  · split
    · exact accept_alike hst (fun t => t.acceptMount .unmount _ _) (acceptMount_alike s r _ _ _)
    · split
      · exact accept_alike hst (fun t => t.acceptRange .read _ _) (acceptRange_alike s r _ _ _)
      · exact accept_alike hst (fun t => t.acceptRange .write _ _) (acceptRange_alike s r _ _ _)

/-! ## The issuing states before a block was read -/

/-- No operation but a WRITE_BLOCK takes a register with it (R101). -/
theorem operated_withRegisters (s : State) (r : Registers) (w : Word) {kind : BufKind} {op : DeviceOp} (status : Nat)
    (rest : List Answer) (hkind : kind ≠ .drain) (hop : op ≠ .writeBlock) :
    (s.withRegisters r).operated w kind op status rest = (s.operated w kind op status rest).withRegisters r := by
  simp only [State.operated, State.withRegisters, if_neg hkind]
  cases op with
  | mount | unmount | seekDrum | seekBlock | readBlock => rfl
  | writeBlock => exact absurd rfl hop

/-- An issuing step of two such states: both wait, both end in the same state, or both go on. -/
theorem issue_alike {s : State} {r : Registers} {w : Word} {kind : BufKind} {op : DeviceOp}
    {go : Block → State → State} (hr : LiveEq s r) (hkind : kind ≠ .drain) (hop : op ≠ .writeBlock)
    (ho : deviceOp s.params w = some op)
    (hgo : ∀ data status rest, Alike (go data (s.operated w kind op status rest))
      (go data ((s.operated w kind op status rest).withRegisters r))) :
    NextAlike (s.issue w kind go) ((s.withRegisters r).issue w kind go) := by
  have ho' : deviceOp (s.withRegisters r).params w = some op := ho
  rcases issue_cases (kind := kind) go ho with ⟨ha, h⟩ | ⟨status, rest, ha, ⟨hf, h⟩ | ⟨hf, h⟩⟩
  · exact ⟨_, _, h, issue_silent go ho' ha, r, rfl, hr⟩
  · refine ⟨_, _, h, issue_failed go ho' ha hf, ?_⟩
    rw [operated_withRegisters s r w status rest hkind hop]
    exact .refl _
  · refine ⟨_, _, h, issue_ok go ho' ha hf, ?_⟩
    rw [operated_withRegisters s r w status rest hkind hop]
    exact hgo _ _ _

/-! ## Reset -/

/-- A reset finds the same operation in flight, and one that takes the buffer only where the buffers are equal. -/
theorem deviceAfterReset_withRegisters {s : State} {r : Registers} (hp : s.params.wf = true) (hr : LiveEq s r) :
    (s.withRegisters r).deviceAfterReset = s.deviceAfterReset := by
  have hd := Config.Params.distinct_of_wf hp
  cases hst : s.st with
  | idle => simp [State.deviceAfterReset, State.issued, State.withRegisters, hst]
  | mnt =>
    simp only [LiveEq, hst] at hr
    by_cases hm : s.cmd = .mount <;>
      simp [State.deviceAfterReset, State.issued, State.withRegisters, hst, hr, hm, encode, deviceOp_mount,
        deviceOp_unmount hd, Device.succeed]
  | seekD | seekB | rdblk =>
    simp only [LiveEq, hst] at hr
    rw [hr]
    simp [State.deviceAfterReset, State.issued, State.withRegisters, State.registers, hst, encode,
      deviceOp_seekDrum hd, deviceOp_seekBlock hd, deviceOp_readBlock hd, Device.succeed]
  | copy | seekB2 | wrblk | adv =>
    simp only [LiveEq, hst] at hr
    rw [hr, withRegisters_registers]

theorem takeReset_withRegisters {s : State} {r : Registers} (hp : s.params.wf = true) (hr : LiveEq s r) :
    (s.withRegisters r).takeReset = s.takeReset := by
  simp only [State.takeReset, deviceAfterReset_withRegisters hp hr]
  rfl

/-! ## Every step, and every run -/

/-- From alike states that keep the FSM's invariant a step leads to alike states. -/
theorem step_alike {s t : State} (hinv : FsmInv s) (h : Alike s t) : NextAlike (step s) (step t) := by
  obtain ⟨r, rfl, hlive⟩ := h
  have hp := hinv.1
  have hd := Config.Params.distinct_of_wf hp
  have hsame : r = s.registers → NextAlike (step s) (step (s.withRegisters r)) := by
    rintro rfl
    obtain ⟨u, hu⟩ := invariantNeverStops s hinv
    exact ⟨u, u, hu, hu, .refl u⟩
  cases hr : s.resetLine with
  | true =>
    refine ⟨_, _, step_reset hr, step_reset hr, ?_⟩
    rw [takeReset_withRegisters hp hlive]
    exact .refl _
  | false =>
    have hr' : (s.withRegisters r).resetLine = false := hr
    cases hst : s.st with
    | idle =>
      have hst' : (s.withRegisters r).st = .idle := hst
      cases hc : s.host.calls with
      | nil => exact ⟨_, _, step_idle_none hr hst hc, step_idle_none hr' hst' hc, r, rfl, hlive⟩
      | cons c rest =>
        rw [step_idle_call hr hst hc, step_idle_call hr' hst' hc]
        exact exec_decodePacket_alike (s := s.takeCall c rest) r c.packet hst
    | mnt =>
      have hcmd : r.cmd = s.cmd := by simpa only [LiveEq, hst] using hlive
      rw [step_mnt hr hst, step_mnt (s := s.withRegisters r) hr' hst, show (s.withRegisters r).cmd = s.cmd from hcmd]
      split
      · exact issue_alike hlive (by decide) (by decide) (deviceOp_mount 0 0) fun _ _ _ => .refl _
      · exact issue_alike hlive (by decide) (by decide) (deviceOp_unmount hd 0 0) fun _ _ _ => .refl _
    | seekD =>
      obtain ⟨buf, rfl⟩ := hlive.exists_buf (by simp [hst])
      rw [step_seekD hr hst, step_seekD (s := s.withRegisters _) hr' hst]
      exact issue_alike hlive (by decide) (by decide) (deviceOp_seekDrum hd s.drum s.block) fun _ _ _ =>
        ⟨{ s.registers with buf := buf }, rfl, rfl⟩
    | seekB =>
      obtain ⟨buf, rfl⟩ := hlive.exists_buf (by simp [hst])
      rw [step_seekB hr hst, step_seekB (s := s.withRegisters _) hr' hst]
      exact issue_alike hlive (by decide) (by decide) (deviceOp_seekBlock hd s.drum s.block) fun _ _ _ =>
        ⟨{ s.registers with buf := buf }, rfl, rfl⟩
    | rdblk =>
      obtain ⟨buf, rfl⟩ := hlive.exists_buf (by simp [hst])
      rw [step_rdblk hr hst, step_rdblk (s := s.withRegisters _) hr' hst]
      exact issue_alike hlive (by decide) (by decide) (deviceOp_readBlock hd s.drum s.block) fun _ _ _ => .refl _
    | copy | seekB2 | wrblk | adv => exact hsame (by simpa only [LiveEq, hst] using hlive)

theorem runSteps_alike {s t : State} (k : Nat) (hinv : FsmInv s) (h : Alike s t) :
    NextAlike (runSteps k s) (runSteps k t) := by
  induction k generalizing s t with
  | zero => exact ⟨s, t, rfl, rfl, h⟩
  | succ k ih =>
    obtain ⟨u, v, hu, hv, huv⟩ := step_alike hinv h
    simp only [runSteps, hu, hv]
    exact ih (fsmInvariantKept s u hinv hu) huv

/-- Settles O43: idle states that differ in those registers are alike, and every step keeps it so. -/
theorem idleRegistersCarryNothing : Obligations.IdleRegistersCarryNothing := by
  intro k s t hp hst h
  have hinv : FsmInv s := ⟨hp, 0, by decide, running_of_idle hst⟩
  obtain ⟨u, v, hu, hv, huv⟩ := runSteps_alike k hinv (alike_of_idle hst h)
  exact ⟨u, v, hu, hv, huv.sameOutside⟩

/-! ## The mount flag: the operations -/

theorem withMounted_ite (p : Prop) [Decidable p] (s t : State) (m : Bool) :
    (if p then s else t).withMounted m = if p then s.withMounted m else t.withMounted m :=
  apply_ite (fun u => u.withMounted m) p s t

/-- An issuing step reads the flag nowhere, if what follows an answer of 0 does not (R32, R112). -/
theorem issue_withMounted (s : State) (m : Bool) (w : Word) (kind : BufKind) {go : Block → State → State}
    (hgo : ∀ data t n, go data (t.withMounted n) = (go data t).withMounted n) :
    SameButMounted (s.issue w kind go) ((s.withMounted m).issue w kind go) := by
  cases ho : deviceOp s.params w with
  | none => simp [State.issue, State.devOp, ho, SameButMounted]
  | some op =>
    have ho' : deviceOp (s.withMounted m).params w = some op := ho
    rcases issue_cases (kind := kind) go ho with ⟨ha, h⟩ | ⟨status, rest, ha, ⟨hf, h⟩ | ⟨hf, h⟩⟩
    · rw [h, issue_silent go ho' ha]
      exact ⟨m, rfl⟩
    · obtain ⟨n, hn⟩ := operated_withMounted s m w kind op status rest
      rw [h, issue_failed go ho' ha hf, hn]
      exact ⟨n, rfl⟩
    · obtain ⟨n, hn⟩ := operated_withMounted s m w kind op status rest
      rw [h, issue_ok go ho' ha hf, hn, hgo]
      exact ⟨n, rfl⟩

/-- The accept step of a range command reads nothing of the device. -/
theorem acceptRange_withMounted (s : State) (m : Bool) (c : Cmd) (addr len : Word) :
    (s.withMounted m).acceptRange c addr len = (s.acceptRange c addr len).withMounted m := by
  unfold State.acceptRange
  by_cases hl : len = 0
  · simp only [hl, if_true]
    rfl
  · simp only [hl, if_false]
    cases decodeAddress addr <;> rfl

/-- A host command is refused while busy, or accepted by a step that reads nothing of the device (R205). -/
theorem accept_withMounted (s : State) (m : Bool) (accept : State → State)
    (h : accept (s.withMounted m) = (accept s).withMounted m) :
    SameButMounted (if s.busy then .next s else .next (accept s))
      (if (s.withMounted m).busy then .next (s.withMounted m) else .next (accept (s.withMounted m))) := by
  rw [show (s.withMounted m).busy = s.busy from rfl, h]
  cases s.busy <;> exact ⟨m, rfl⟩

/-- Every instruction has the same outcome but for the flag. -/
theorem exec_withMounted (i : Instr) (s : State) (m : Bool) :
    SameButMounted (exec i s) (exec i (s.withMounted m)) := by
  cases i with
  | cmdMount addr len => exact accept_withMounted s m (fun t => t.acceptMount .mount addr len) rfl
  | cmdUnmount addr len => exact accept_withMounted s m (fun t => t.acceptMount .unmount addr len) rfl
  | cmdRead addr len =>
    exact accept_withMounted s m (fun t => t.acceptRange .read addr len) (acceptRange_withMounted s m .read addr len)
  | cmdWrite addr len =>
    exact accept_withMounted s m (fun t => t.acceptRange .write addr len) (acceptRange_withMounted s m .write addr len)
  | mount =>
    simp only [exec, execMount, withMounted_st]
    cases s.st with
    | mnt => exact issue_withMounted s m _ _ fun _ _ _ => rfl
    | _ => exact rfl
  | unmount =>
    simp only [exec, execUnmount, withMounted_st]
    cases s.st with
    | mnt => exact issue_withMounted s m _ _ fun _ _ _ => rfl
    | _ => exact rfl
  | seekDrum drum block =>
    simp only [exec, execSeekDrum, withMounted_st]
    cases s.st with
    | seekD => exact issue_withMounted s m _ _ fun _ _ _ => rfl
    | _ => exact rfl
  | seekBlock drum block =>
    simp only [exec, execSeekBlock, withMounted_st]
    cases s.st with
    | seekB | seekB2 => exact issue_withMounted s m _ _ fun _ _ _ => rfl
    | _ => exact rfl
  | readBlock drum block =>
    simp only [exec, execReadBlock, withMounted_st]
    cases s.st with
    | rdblk => exact issue_withMounted s m _ _ fun _ _ _ => rfl
    | _ => exact rfl
  | writeBlock drum block =>
    simp only [exec, execWriteBlock, withMounted_st]
    cases s.st with
    | wrblk =>
      refine issue_withMounted s m _ _ fun _ _ _ => ?_
      rw [withMounted_ite]
      rfl
    | _ => exact rfl

/-! ## The mount flag: the internal steps, reset and runs -/

theorem copyStep_withMounted (s : State) (m : Bool) :
    SameButMounted s.copyStep (s.withMounted m).copyStep := by
  unfold State.copyStep
  simp only [withMounted_idx, withMounted_len, withMounted_count, withMounted_cmd]
  split
  · exact rfl
  · cases s.cmd with
    | read => exact ⟨m, by rw [withMounted_ite]; rfl⟩
    | write => exact ⟨m, rfl⟩
    | mount | unmount => exact rfl

theorem advStep_withMounted (s : State) (m : Bool) : (s.withMounted m).advStep = s.advStep.withMounted m := by
  simp only [State.advStep, withMounted_ite]
  rfl

theorem internalStep_withMounted (s : State) (m : Bool) :
    SameButMounted s.internalStep (s.withMounted m).internalStep := by
  unfold State.internalStep
  simp only [withMounted_st, advStep_withMounted]
  cases s.st with
  | copy => exact copyStep_withMounted s m
  | _ => exact ⟨m, rfl⟩

/-- What comes next does not depend on the flag. -/
theorem fetch_withMounted (s : State) (m : Bool) :
    (s.withMounted m).fetch = s.fetch.map fun coming => (coming.1, coming.2.withMounted m) := by
  have hissued : (s.withMounted m).issued = s.issued := rfl
  unfold State.fetch
  simp only [withMounted_st, withMounted_host, hissued]
  cases s.st with
  | idle => cases s.host.calls <;> rfl
  | copy | adv => rfl
  | mnt | seekD | seekB | rdblk | seekB2 | wrblk => cases s.issued <;> rfl

/-- A reset leaves the same device but for the flag, whether the operation in flight was issued, and carried out, or
not (R191). -/
theorem deviceAfterReset_withMounted (s : State) (m : Bool) :
    ∃ n, (s.withMounted m).deviceAfterReset = { s.deviceAfterReset with mounted := n } := by
  have hissued : (s.withMounted m).issued = s.issued := rfl
  cases hi : Config.resetWasIssued s.draws <;> cases hd : Config.resetWasDone s.draws <;>
    simp only [State.deviceAfterReset, hissued, withMounted_params, withMounted_draws, hi, hd, if_true, if_false,
      Bool.false_eq_true]
  all_goals
    split
    · split
      · next op _ => cases op <;> exact ⟨_, rfl⟩
      · exact ⟨m, rfl⟩
    · exact ⟨m, rfl⟩

theorem takeReset_withMounted (s : State) (m : Bool) :
    ∃ n, (s.withMounted m).takeReset = s.takeReset.withMounted n := by
  obtain ⟨n, hn⟩ := deviceAfterReset_withMounted s m
  refine ⟨n, ?_⟩
  simp only [State.takeReset, hn]
  rfl

theorem step_withMounted (s : State) (m : Bool) : SameButMounted (step s) (step (s.withMounted m)) := by
  unfold step
  simp only [withMounted_resetLine, fetch_withMounted]
  split
  · exact takeReset_withMounted s m
  · cases s.fetch with
    | none => exact internalStep_withMounted s m
    | some coming => exact exec_withMounted coming.1 coming.2 m

theorem runSteps_withMounted (k : Nat) (s : State) (m : Bool) :
    SameButMounted (runSteps k s) (runSteps k (s.withMounted m)) := by
  induction k generalizing s m with
  | zero => exact ⟨m, rfl⟩
  | succ k ih =>
    have hstep := step_withMounted s m
    unfold runSteps
    cases hs : step s <;> cases ht : step (s.withMounted m) <;> rw [hs, ht] at hstep
    case next.next t u =>
      obtain ⟨n, rfl⟩ := hstep
      exact ih t n
    case fault.fault | refused.refused => exact hstep
    all_goals exact hstep.elim

/-- Settles O53: instruction by instruction, and by induction on the steps of the run. -/
theorem mountFlagMattersNot : Obligations.MountFlagMattersNot :=
  fun s m => ⟨fun i => exec_withMounted i s m, fun k => runSteps_withMounted k s m⟩

/-! ## The host's call and the assembled word -/

/-- Settles O10: the accept step of R31's first row. -/
theorem mountCommandsAccepted : Obligations.MountCommandsAccepted := by
  intro s addr len hst
  have hbusy : s.busy = false := by simp [State.busy, hst]
  constructor
  · simp [exec, execCmdMount, hbusy, State.acceptMount]
  · simp [exec, execCmdUnmount, hbusy, State.acceptMount]

/-- Settles O26: every packet decodes to the instruction that the step takes from it. -/
theorem stepRunsHostCall : Obligations.StepRunsHostCall := by
  intro s hr hst
  refine ⟨step_idle_none hr hst, fun c rest i hc hdecode => ?_⟩
  obtain rfl : decodePacket c.packet = i := by simpa [decode] using hdecode
  exact step_idle_call hr hst hc

/-- In an issuing state a step runs the operation that the state issues (R31). -/
theorem step_of_issued {s : State} {i : Instr} (hr : s.resetLine = false) (hi : s.issued = some i) :
    step s = exec i s := by
  have hfetch : s.fetch = some (i, s) := by
    unfold State.fetch
    cases hst : s.st with
    | idle | copy | adv => simp [State.issued, hst] at hi
    | mnt | seekD | seekB | rdblk | seekB2 | wrblk => simp [hi]
  simp [step, hr, hfetch]

/-- With distinct opcodes the word of an operation decodes to it (R65, R70). -/
theorem decode_encode_word {p : Config.Params} {i : Instr} {w : Word} (hd : p.opcodesDistinct = true)
    (h : encode p i = .word w) : decode p (.word w) = .ok i := by
  have hne := (opcodesDistinct_iff p).1 hd
  cases i with
  | cmdMount | cmdUnmount | cmdRead | cmdWrite => cases h
  | mount | unmount | seekDrum | seekBlock | readBlock | writeBlock =>
    cases h
    simp [decode, decodeWord, hne, Ne.symm]

/-- Settles O27: the word of the operation a state issues decodes to that operation and to no other. -/
theorem stepRunsAssembledWord : Obligations.StepRunsAssembledWord := by
  intro s w i hp hr hword hdecode
  obtain ⟨j, hissued, hencode⟩ := Option.map_eq_some_iff.1 hword
  have hj := decode_encode_word (Config.Params.distinct_of_wf hp) hencode
  obtain rfl : j = i := by simpa [hj] using hdecode
  exact step_of_issued hr hissued

/-! ## The status codes -/

/-- Settles O29: `raise` writes the status of its error kind, ends the command and delivers it. -/
theorem statusCodes : Obligations.StatusCodes := by
  refine ⟨rfl, rfl, rfl, rfl, fun s => ⟨rfl, rfl, rfl, rfl, rfl, rfl, fun e => ⟨rfl, ?_, rfl, rfl⟩⟩⟩
  cases e <;> decide

/-! ## Reset -/

/-- A trace without transactions is disciplined. -/
theorem disciplined_nil (p : Config.Params) : Disciplined p [] := by
  intro before w kind data status after h
  simp at h

/-- Settles O31: reset is in `IDLE` with an empty trace, an empty store and no `out` buffer. -/
theorem invariantsHoldAtReset : Obligations.InvariantsHoldAtReset :=
  ⟨⟨by decide, 0, by decide, running_of_idle rfl⟩, ⟨by decide, by decide⟩, trivial, ⟨disciplined_nil _, trivial⟩,
    fun hbusy => absurd rfl hbusy⟩

end Sys2Proof.Machine

/-! What a running command has recorded (R55, R168), and a write followed by a read of the same range (R53). -/

namespace Sys2Proof.Machine

/-! ## The transactions of a running command -/

/-- The byte indices 0 to `n - 1`, in order. -/
def indicesBelow (n : Nat) : List Word := (List.range n).map (BitVec.ofNat 32)

/-- The trace ends in the acceptance of command `c` and, after it, answered operations and the bytes of `indices`:
what `TraceInv` asks of a running command. -/
def Recorded (p : Config.Params) (c : Cmd) (indices : List Word) (trace : List Event) : Prop :=
  ∃ before addr len since, trace = before ++ .command c addr len :: since ∧ (∀ e ∈ since, e.goesOn p) ∧
    since.filterMap hostIndex = indices

/-- A command just accepted has recorded nothing. -/
theorem recorded_accepted (p : Config.Params) (c : Cmd) (trace : List Event) (addr len : Word) :
    Recorded p c [] (trace ++ [.command c addr len]) :=
  ⟨trace, addr, len, [], rfl, List.forall_mem_nil _, rfl⟩

/-- More transactions of the running command add their byte indices. -/
theorem Recorded.append {p : Config.Params} {c : Cmd} {indices : List Word} {trace new : List Event}
    (h : Recorded p c indices trace) (hnew : ∀ e ∈ new, e.goesOn p) :
    Recorded p c (indices ++ new.filterMap hostIndex) (trace ++ new) := by
  obtain ⟨before, addr, len, since, rfl, hsince, rfl⟩ := h
  exact ⟨before, addr, len, since ++ new, by simp, List.forall_mem_append.2 ⟨hsince, hnew⟩, List.filterMap_append⟩

/-- A range command in an FSM state of its own has recorded the indices below `count`. -/
theorem TraceInv.recorded {s : State} (h : TraceInv s) (hidle : s.st ≠ .idle) (hmnt : s.st ≠ .mnt) :
    Recorded s.params s.cmd (indicesBelow s.count.toNat) s.trace := by
  obtain ⟨before, addr, len, since, htrace, hsince, hindices⟩ := h hidle
  rw [if_neg hmnt] at hindices
  exact ⟨before, addr, len, since, htrace, hsince, hindices⟩

/-- Where a range command has recorded the indices below `count`, the invariant holds. -/
theorem Recorded.traceInv {s : State} (h : Recorded s.params s.cmd (indicesBelow s.count.toNat) s.trace)
    (hmnt : s.st ≠ .mnt) : TraceInv s := by
  intro _
  rwa [if_neg hmnt]

/-- Nothing is asked of a block in `IDLE`. -/
theorem traceInv_of_idle {s : State} (h : s.st = .idle) : TraceInv s := fun hbusy => absurd h hbusy

/-- An operation answered with 0 is a transaction that lets the command go on, and moves no byte (R168). -/
theorem Recorded.answered {p : Config.Params} {c : Cmd} {indices : List Word} {trace : List Event}
    (h : Recorded p c indices trace) (w : Word) (kind : BufKind) (data : Option Block) {status : Nat}
    (hf : statusFailed p status = false) : Recorded p c indices (trace ++ [.devOp w kind data status]) := by
  have happend := h.append (new := [.devOp w kind data status]) (List.forall_mem_singleton.2 hf)
  exact (List.append_nil indices) ▸ happend

/-- The indices of the bytes of a copy are those from `count` on (R55). -/
theorem hostIndex_hostEvents {event : Word → Byte → Event} (hevent : ∀ i v, hostIndex (event i v) = some i)
    (count : Word) (bytes : List Byte) :
    (hostEvents event count bytes).filterMap hostIndex =
      (List.range bytes.length).map fun k => count + BitVec.ofNat 32 k := by
  induction bytes using List.reverseRecOn with
  | nil => rfl
  | append_singleton bytes v ih =>
    simp only [hostEvents] at ih
    simp [hostEvents, List.mapIdx_append, List.range_succ, ih, hevent]

/-- The indices below `count + n` are those below `count` and the `n` from `count` on. -/
theorem indicesBelow_add (count : Word) (n : Nat) :
    indicesBelow (count.toNat + n) =
      indicesBelow count.toNat ++ (List.range n).map fun k => count + BitVec.ofNat 32 k := by
  simp [indicesBelow, List.range_add, BitVec.ofNat_add, Function.comp_def]

/-- The bytes of a copy within bounds carry the record on to the new `count` (R127, R145). -/
theorem Recorded.copied {s : State} {event : Word → Byte → Event} {bytes : List Byte}
    (h : Recorded s.params s.cmd (indicesBelow s.count.toNat) s.trace)
    (hi : s.idx.toNat ≤ 256) (hl : s.count.toNat ≤ s.len.toNat) (hlength : bytes.length = s.copyLength)
    (hevent : ∀ i v, hostIndex (event i v) = some i) (hgoes : ∀ i v, (event i v).goesOn s.params) :
    Recorded s.params s.cmd (indicesBelow s.bumpCursor.count.toNat) (s.trace ++ hostEvents event s.count bytes) := by
  obtain ⟨-, hcount, -⟩ := bumpCursor_toNat hi hl
  rw [hcount, indicesBelow_add, ← hlength, ← hostIndex_hostEvents hevent]
  exact h.append (forall_hostEvents hgoes)

@[simp] theorem length_outgoing (s : State) : s.outgoing.length = s.copyLength := by simp [State.outgoing]

@[simp] theorem length_incoming (s : State) : s.incoming.length = s.copyLength := by simp [State.incoming]

/-- The accept step of a range command ends it, or leaves a command that has recorded nothing. -/
theorem acceptRange_traceInv (s : State) (c : Cmd) (addr len : Word) : TraceInv (s.acceptRange c addr len) := by
  rcases acceptRange_finish_or_load s c addr len with ⟨code, h⟩ | ⟨d, b, o, -, -, h⟩
  · exact traceInv_of_idle (by rw [h, finish_st])
  · rw [h]
    exact Recorded.traceInv (recorded_accepted _ _ _ _ _) (by simp)

/-- The cursor advance records nothing, and ends the command past the array. -/
theorem advStep_traceInv {s : State} (hst : s.st = .adv) (h : TraceInv s) : TraceInv s.advStep := by
  have hrec := h.recorded (by simp [hst]) (by simp [hst])
  unfold State.advStep
  split
  · exact Recorded.traceInv hrec (by simp)
  · split
    · exact Recorded.traceInv hrec (by simp)
    · exact traceInv_of_idle rfl

/-- Settles O38: a row of R31 ends the command, accepts one, or appends one answered operation or the bytes of one
copy. -/
theorem runningTraceKept : Obligations.RunningTraceKept := by
  intro s t hp h hstep
  cases step_row hp hstep with
  | reset | failed | mnt | copyDone | wrblkDone => exact traceInv_of_idle rfl
  | idle | silent => exact h
  | acceptMount c rest k => exact fun _ => recorded_accepted _ _ _ _ _
  | acceptRange => exact acceptRange_traceInv _ _ _ _
  | seekD _ hs _ _ _ hf | seekB _ hs _ _ _ hf | rdblk _ hs _ _ _ hf | seekB2 _ hs _ _ _ hf
  | wrblkMore _ hs _ _ _ hf =>
    have hrec := h.recorded (by simp [hs]) (by simp [hs])
    exact Recorded.traceInv (hrec.answered _ _ _ hf) (by simp)
  | copyMore _ hs _ hi hl =>
    have hrec := h.recorded (by simp [hs]) (by simp [hs])
    exact Recorded.traceInv (hrec.copied hi hl (length_outgoing s) (fun _ _ => rfl) fun _ _ => trivial) (by simp)
  | copyIn _ hs _ hi hl =>
    have hrec := h.recorded (by simp [hs]) (by simp [hs])
    exact Recorded.traceInv (hrec.copied hi hl (length_incoming s) (fun _ _ => rfl) fun _ _ => trivial) (by simp)
  | adv _ hs => exact advStep_traceInv hs h

/-! ## Operations of the ideal device -/

/-- Over the ideal device an operation of a big-step rule goes on (R47). -/
theorem operate_ideal {s : State} {w : Word} {op : DeviceOp} (kind : BufKind) (hideal : s.ideal)
    (ho : deviceOp s.params w = some op) :
    s.operate w kind =
      .going (if kind = .fill then
          { s.operated w kind op 0 [] with buf := s.dev.store.readBlock s.dev.position }
        else s.operated w kind op 0 []) := by
  rcases operate_cases (kind := kind) ho with ⟨ha, -⟩ | ⟨status, rest, ha, h⟩
  · cases (nextAnswer_ideal hideal).symm.trans ha
  · cases (nextAnswer_ideal hideal).symm.trans ha
    simpa using h

/-- The ideal device after an operation is the ideal device (R47). -/
theorem operated_dev_ideal (s : State) (w : Word) (kind : BufKind) (op : DeviceOp) :
    (s.operated w kind op 0 []).dev = { s.dev.succeed op w s.buf s.draws with answers := [] } :=
  operated_dev_ok s w kind op 0 [] (statusFailed_zero _)

/-- SEEK_DRUM over the ideal device: it stands on the drum of the cursor (R95). -/
theorem operateSeekDrum_ideal {s : State} (hd : s.params.opcodesDistinct = true) (hideal : s.ideal) :
    ∃ t, s.operateSeekDrum = .going t ∧ AfterOperation s t ∧ t.ideal ∧ t.dev.drum = s.drum ∧
      t.dev.store = s.dev.store :=
  ⟨_, operate_ideal .noBuf hideal (deviceOp_seekDrum hd _ _), ⟨_, _, _, _, rfl⟩, rfl,
    by simp [operated_dev_ideal, Device.succeed], operated_store _ _ _ _ _ _ (by simp)⟩

/-! ## The loop of a range command over the ideal device -/

/-- What holds of a range command `c` over `len` bytes from address `a`, each time round its loop over the ideal
device: the device stands on the drum of the cursor, and the cursor at `a + count` (R92, R38). -/
structure IdealLoop (c : Cmd) (a : Nat) (len : Word) (turns : Nat) (s : State) : Prop extends LoopInv c turns s where
  ideal : s.ideal
  onDrum : s.dev.drum = s.drum
  cursor : CursorAt a s
  range : s.len = len

section loop
variable {c : Cmd} {a : Nat} {len : Word} {turns : Nat} {s t : State}

/-- An operation that leaves the device's drum keeps it all. -/
theorem IdealLoop.afterOperation (h : IdealLoop c a len turns s) (ht : AfterOperation s t) (hideal : t.ideal)
    (hdrum : t.dev.drum = s.dev.drum) : IdealLoop c a len turns t := by
  have hloop := h.toLoopInv.afterOperation ht
  obtain ⟨buf, dev, trace, draws, rfl⟩ := ht
  exact ⟨hloop, hideal, hdrum.trans h.onDrum, h.cursor, h.range⟩

theorem IdealLoop.copyOut (h : IdealLoop c a len turns s) : IdealLoop c a len turns s.copyOut :=
  ⟨h.toLoopInv.copyOut, h.ideal, h.onDrum,
    by simpa [CursorAt] using bumpCursor_cursorAt h.idx_le h.count_le h.cursor, h.range⟩

theorem IdealLoop.copyIn (h : IdealLoop c a len turns s) : IdealLoop c a len turns s.copyIn :=
  ⟨h.toLoopInv.copyIn, h.ideal, h.onDrum,
    by simpa [CursorAt] using bumpCursor_cursorAt h.idx_le h.count_le h.cursor, h.range⟩

/-- SEEK_BLOCK brings the device to the block of the cursor (R92, R96). -/
theorem IdealLoop.seekBlock (h : IdealLoop c a len turns s) :
    ∃ t, s.operateSeekBlock = .going t ∧ IdealLoop c a len turns t ∧ AfterOperation s t ∧
      t.dev.store = s.dev.store ∧ t.buf = s.buf ∧ t.dev.position = linearAddress s.drum s.block 0 := by
  have hdev := operated_dev_ideal s (encodeOperation s.params.opcSeekBlock s.drum s.block) .noBuf .seekBlock
  refine ⟨_, operate_ideal .noBuf h.ideal (deviceOp_seekBlock h.distinct _ _),
    h.afterOperation ⟨_, _, _, _, rfl⟩ rfl (by simp [hdev, Device.succeed]), ⟨_, _, _, _, rfl⟩,
    operated_store _ _ _ _ _ _ (by simp), rfl, ?_⟩
  simp [hdev, Device.succeed, Device.position, h.onDrum]

/-- READ_BLOCK fills the buffer with the block under the device cursor (R97). -/
theorem IdealLoop.readBlock (h : IdealLoop c a len turns s) :
    ∃ t, s.operateReadBlock = .going t ∧ IdealLoop c a len turns t ∧ AfterOperation s t ∧
      t.dev.store = s.dev.store ∧ t.buf = s.dev.store.readBlock s.dev.position := by
  have hdev := operated_dev_ideal s (encodeOperation s.params.opcReadBlock s.drum s.block) .fill .readBlock
  exact ⟨_, operate_ideal .fill h.ideal (deviceOp_readBlock h.distinct _ _),
    h.afterOperation ⟨_, _, _, _, rfl⟩ rfl (by simp [hdev, Device.succeed]), ⟨_, _, _, _, rfl⟩,
    by simp [hdev, Device.succeed], rfl⟩

/-- WRITE_BLOCK stores the buffer in the block under the device cursor (R98). -/
theorem IdealLoop.writeBlock (h : IdealLoop c a len turns s) :
    ∃ t, s.operateWriteBlock = .going t ∧ IdealLoop c a len turns t ∧ AfterOperation s t ∧
      t.dev.store = s.dev.store.writeBlock s.dev.position s.buf := by
  have hdev := operated_dev_ideal s (encodeOperation s.params.opcWriteBlock s.drum s.block) .drain .writeBlock
  exact ⟨_, operate_ideal .drain h.ideal (deviceOp_writeBlock h.distinct _ _),
    h.afterOperation ⟨_, _, _, _, rfl⟩ rfl (by simp [hdev, Device.succeed]), ⟨_, _, _, _, rfl⟩,
    by simp [hdev, Device.succeed]⟩

/-- The block of the cursor sought and read into the buffer: the beginning of a turn (R130, R148). -/
theorem IdealLoop.fetchBlock (h : IdealLoop c a len turns s) :
    ∃ t, (∀ next, (s.operateSeekBlock.andThen fun u => u.operateReadBlock.andThen next) = next t) ∧
      IdealLoop c a len turns t ∧ AfterOperation s t ∧ t.dev.store = s.dev.store ∧
      t.buf = s.dev.store.readBlock (linearAddress s.drum s.block 0) := by
  obtain ⟨u, hseek, hu, ⟨_, _, _, _, rfl⟩, hstore, -, hpos⟩ := h.seekBlock
  obtain ⟨t, hread, ht, ⟨_, _, _, _, rfl⟩, hstore', hbuf⟩ := hu.readBlock
  exact ⟨_, fun next => by rw [hseek, Run.andThen, hread, Run.andThen], ht, ⟨_, _, _, _, rfl⟩,
    hstore'.trans hstore, by rw [hbuf, hstore, hpos]⟩

/-- The buffer written back to the block of the cursor, which is sought again (R146, R148). -/
theorem IdealLoop.writeBack (h : IdealLoop c a len turns s) :
    ∃ t, (∀ next, (s.operateSeekBlock.andThen fun u => u.operateWriteBlock.andThen next) = next t) ∧
      IdealLoop c a len turns t ∧ AfterOperation s t ∧
      t.dev.store = s.dev.store.writeBlock (linearAddress s.drum s.block 0) s.buf := by
  obtain ⟨u, hseek, hu, ⟨_, _, _, _, rfl⟩, hstore, hbuf, hpos⟩ := h.seekBlock
  obtain ⟨t, hwrite, ht, ⟨_, _, _, _, rfl⟩, hstore'⟩ := hu.writeBlock
  exact ⟨_, fun next => by rw [hseek, Run.andThen, hwrite, Run.andThen], ht, ⟨_, _, _, _, rfl⟩,
    by rw [hstore', hstore, hbuf, hpos]⟩

/-- The range never passes the end of the array (R38 I6). -/
theorem IdealLoop.within (h : IdealLoop c a len turns s) : a + s.count.toNat ≤ Config.capacity := by
  have hcursor : linearAddress s.drum s.block 0 + s.idx.toNat = a + s.count.toNat := h.cursor
  have hroom := linearAddress_bound s.drum s.block
  have hidx := h.idx_le
  omega

/-! ## The end of a turn -/

theorem linearAddress_nextBlock {d : BitVec 4} {b : BitVec 8} (hb : b ≠ 255) :
    linearAddress d (b + 1) 0 = linearAddress d b 0 + 256 := by
  have hnext : (b + 1).toNat = b.toNat + 1 := by bv_omega
  rw [linearAddress, linearAddress, hnext]
  omega

theorem linearAddress_nextDrum {d : BitVec 4} (hd : d ≠ 15) :
    linearAddress (d + 1) 0 0 = linearAddress d 255 0 + 256 := by
  have hnext : (d + 1).toNat = d.toNat + 1 := by bv_omega
  have hlast : (255 : BitVec 8).toNat = 255 := rfl
  have hfirst : (0 : BitVec 8).toNat = 0 := rfl
  rw [linearAddress, linearAddress, hnext, hlast, hfirst]
  omega

/-- The cursor moved on by one block, from the end of the last one (R129). -/
theorem CursorAt.next (h : CursorAt a s) (hidx : s.idx.toNat = 256)
    (hpos : linearAddress t.drum t.block 0 = linearAddress s.drum s.block 0 + 256) (hzero : t.idx = 0)
    (hcount : t.count = s.count) : CursorAt a t := by
  rw [CursorAt, hidx] at h
  rw [CursorAt, hpos, hzero, hcount, h]
  rfl

/-- What the cursor advance keeps: what was moved so far and where it went. -/
def SameProgress (s t : State) : Prop := t.host = s.host ∧ t.count = s.count ∧ t.dev.store = s.dev.store

theorem AfterOperation.cursor_kept (h : AfterOperation s t) :
    t.drum = s.drum ∧ t.block = s.block ∧ t.count = s.count ∧ t.len = s.len ∧ t.host = s.host := by
  obtain ⟨_, _, _, _, rfl⟩ := h
  exact ⟨rfl, rfl, rfl, rfl, rfl⟩

theorem AfterOperation.sameProgress (h : AfterOperation s t) (hstore : t.dev.store = s.dev.store) :
    SameProgress s t := by
  obtain ⟨_, _, _, _, rfl⟩ := h
  exact ⟨rfl, rfl, hstore⟩

/-- From the end of a block the advance goes to the next turn, or past the array's last block ends the command (R129). -/
theorem IdealLoop.advance (h : IdealLoop c a len (turns + 1) s) (hidx : s.idx.toNat = 256) :
    (∃ t, (∀ again, s.operateAdvance again = again t) ∧ IdealLoop c a len turns t ∧ SameProgress s t) ∨
      (∀ again, s.operateAdvance again = .ended (s.raise .outOfRange)) ∧ a + s.count.toNat = Config.capacity := by
  by_cases hb : s.block = 255
  · by_cases hd : s.drum = 15
    · refine .inr ⟨fun again => by simp [State.operateAdvance, hb, hd], ?_⟩
      have hcursor := h.cursor
      rw [CursorAt, hidx, hb, hd] at hcursor
      exact hcursor.symm
    · obtain ⟨t, hseek, ht, hideal, hon, hstore⟩ :=
        operateSeekDrum_ideal (s := { s with block := 0, drum := s.drum + 1 }) h.distinct h.ideal
      have hnext (again : State → Run) : s.operateAdvance again = again { t with idx := 0 } := by
        rw [State.operateAdvance, if_neg (not_not_intro hb), if_pos hd, hseek, Run.andThen]
      obtain ⟨hdrum, hblock, hcount, hlen, hhost⟩ := ht.cursor_kept
      have hloop := (h.toLoopInv.nextDrum hb hd).afterOperation (t := { t with idx := 0 })
        (by obtain ⟨_, _, _, _, rfl⟩ := ht; exact ⟨_, _, _, _, rfl⟩)
      have hpos : linearAddress t.drum t.block 0 = linearAddress s.drum s.block 0 + 256 := by
        rw [hdrum, hblock, hb, ← linearAddress_nextDrum hd]
      exact .inl ⟨_, hnext, ⟨hloop, hideal, hon.trans hdrum.symm, h.cursor.next hidx hpos rfl hcount,
        hlen.trans h.range⟩, hhost, hcount, hstore⟩
  · exact .inl ⟨_, fun again => by rw [State.operateAdvance, if_pos hb],
      ⟨h.toLoopInv.nextBlock hb, h.ideal, h.onDrum, h.cursor.next hidx (linearAddress_nextBlock hb) rfl rfl, h.range⟩,
      rfl, rfl, rfl⟩

/-- The status that ends a range command over the ideal device (R132, R150, R134 h). -/
def rangeStatus (a : Nat) (len : Word) : Status := if a + len.toNat ≤ Config.capacity then .ok else .outOfRange

/-- Where a range command ends over the ideal device: all bytes of the range that lie in the array have been moved,
and the block can take the next command. -/
structure RangeMoved (a : Nat) (len : Word) (s : State) : Prop where
  legal : s.params.wf = true
  released : s.resetLine = false
  ideal : s.ideal
  moved : a + s.count.toNat = min (a + len.toNat) Config.capacity

theorem IdealLoop.rangeMoved (h : IdealLoop c a len turns s)
    (hmoved : a + s.count.toNat = min (a + len.toNat) Config.capacity) : RangeMoved a len s :=
  ⟨h.legal, h.released, h.ideal, hmoved⟩

/-- A turn ends at the end of the buffer or of the range. The command then ends with all of the range moved, or goes
on to the next turn. -/
theorem IdealLoop.endOfTurn (h : IdealLoop c a len (turns + 1) s) (hend : s.idx.toNat = 256 ∨ s.count = s.len)
    (again : State → Run) :
    (if s.count = s.len then .ended s.completeOk else s.operateAdvance again) = .ended (s.finish (rangeStatus a len)) ∧
        RangeMoved a len s ∨
      ∃ t, (if s.count = s.len then .ended s.completeOk else s.operateAdvance again) = again t ∧
        IdealLoop c a len turns t ∧ SameProgress s t := by
  have hwithin := h.within
  by_cases hc : s.count = s.len
  · rw [if_pos hc]
    rw [hc, h.range] at hwithin
    refine .inl ⟨by rw [rangeStatus, if_pos hwithin]; rfl, h.rangeMoved ?_⟩
    rw [hc, h.range]
    omega
  · rw [if_neg hc]
    rcases h.advance (hend.resolve_right hc) with ⟨t, hnext, ht, hsame⟩ | ⟨hlast, hfull⟩
    · exact .inr ⟨t, hnext again, ht, hsame⟩
    · have hlt : s.count.toNat < len.toNat := by
        have hle := h.count_le
        have hne : s.count.toNat ≠ s.len.toNat := fun he => hc (BitVec.toNat_inj.1 he)
        rw [h.range] at hle hne
        omega
      refine .inl ⟨?_, h.rangeMoved (by omega)⟩
      rw [hlast again, rangeStatus, if_neg (by omega)]
      rfl

/-- The induction over the turns of either loop, said once: what a turn extends and the advance keeps holds where the
command ends. -/
theorem loop_ends {loop : Nat → State → Run} {P : State → Prop}
    (hkeep : ∀ s t, P s → SameProgress s t → P t)
    (hturn : ∀ turns s, IdealLoop c a len (turns + 1) s → P s →
      ∃ t, loop (turns + 1) s = (if t.count = t.len then .ended t.completeOk else t.operateAdvance (loop turns)) ∧
        IdealLoop c a len (turns + 1) t ∧ P t ∧ (t.idx.toNat = 256 ∨ t.count = t.len)) (turns : Nat) :
    ∀ s, IdealLoop c a len turns s → P s →
      ∃ t, loop turns s = .ended (t.finish (rangeStatus a len)) ∧ RangeMoved a len t ∧ P t := by
  induction turns with
  | zero => exact fun s h => absurd h.turns_pos (Nat.lt_irrefl 0)
  | succ turns ih =>
    intro s h hP
    obtain ⟨t, hloop, ht, hPt, hend⟩ := hturn turns s h hP
    rw [hloop]
    rcases ht.endOfTurn hend (loop turns) with ⟨he, hmoved⟩ | ⟨u, he, hu, hsame⟩
    · exact ⟨t, he, hmoved, hPt⟩
    · rw [he]
      exact ih u hu (hkeep t u hPt hsame)

end loop

/-! ## A read -/

theorem byteAt_readBlock (m : Memory) (base : Nat) {i : Nat} (hi : i < 256) :
    byteAt (m.readBlock base) i = m.read (base + i) := by
  simp [byteAt, hi]

/-- What a read of the bytes from address `a` on has done since state `s₀`: the first `count` bytes are in the running
`out` buffer, and nothing else has changed at the host or in the store (R132). -/
structure ReadSoFar (s₀ : State) (a : Nat) (s : State) : Prop where
  store : s.dev.store = s₀.dev.store
  host : s.host = { s₀.host with outs := s.host.outs }
  bytes : ∀ name i, s.host.outs.get name i =
    if name = s₀.host.outName ∧ i < s.count.toNat then some (s₀.storeByte (a + i)) else s₀.host.outs.get name i

section read
variable {s₀ s t : State} {a : Nat} {len : Word} {turns : Nat}

theorem ReadSoFar.sameProgress (h : ReadSoFar s₀ a s) (hsame : SameProgress s t) : ReadSoFar s₀ a t := by
  obtain ⟨hhost, hcount, hstore⟩ := hsame
  exact ⟨hstore.trans h.store, by rw [hhost]; exact h.host, by rw [hhost, hcount]; exact h.bytes⟩

/-- A copy out of the block of the cursor delivers the bytes that the range has at the next indices (R127). -/
theorem ReadSoFar.copyOut (h : ReadSoFar s₀ a s) (hs : IdealLoop .read a len turns s)
    (hbuf : s.buf = s₀.dev.store.readBlock (linearAddress s.drum s.block 0)) : ReadSoFar s₀ a s.copyOut := by
  obtain ⟨hidx, hcount, hidx_le, -⟩ := bumpCursor_toNat hs.idx_le hs.count_le
  have hcursor : linearAddress s.drum s.block 0 + s.idx.toNat = a + s.count.toNat := hs.cursor
  have houtName : s.host.outName = s₀.host.outName := by rw [h.host]
  refine ⟨h.store, ?_, fun name i => ?_⟩
  · rw [copyOut_host, h.host]
  · have hcount' : s.copyOut.count.toNat = s.count.toNat + s.copyLength := hcount
    rw [copyOut_host, get_deliverTo, length_outgoing, h.bytes, hcount', houtName]
    by_cases hnew : s.count.toNat ≤ i ∧ i < s.count.toNat + s.copyLength
    · have hk : i - s.count.toNat < s.copyLength := by omega
      have haddr : linearAddress s.drum s.block 0 + (s.idx.toNat + (i - s.count.toNat)) = a + i := by omega
      have hlt : s.idx.toNat + (i - s.count.toNat) < 256 := by omega
      have hbyte : s.outgoing[i - s.count.toNat]? = some (s₀.storeByte (a + i)) := by
        simp [State.outgoing, hk, hbuf, State.storeByte, byteAt_readBlock _ _ hlt, haddr]
      simp [hnew, hbyte, show ¬ i < s.count.toNat by omega]
    · have hiff : i < s.count.toNat + s.copyLength ↔ i < s.count.toNat := by omega
      simp [hiff]

/-- The loop of a read over the ideal device delivers the range (R130, R132). -/
theorem readLoop_ideal (turns : Nat) : ∀ s, IdealLoop .read a len turns s → ReadSoFar s₀ a s →
    ∃ t, readLoop turns s = .ended (t.finish (rangeStatus a len)) ∧ RangeMoved a len t ∧ ReadSoFar s₀ a t := by
  refine loop_ends (fun _ _ h hsame => h.sameProgress hsame) (fun turns s hs h => ?_) turns
  obtain ⟨t, hfetch, ht, hafter, hstore, hbuf⟩ := hs.fetchBlock
  have hread := h.sameProgress (hafter.sameProgress hstore)
  obtain ⟨_, _, _, _, rfl⟩ := hafter
  obtain ⟨-, -, -, -, hend⟩ := bumpCursor_toNat ht.idx_le ht.count_le
  exact ⟨_, hfetch _, ht.copyOut, hread.copyOut ht (by rw [hbuf, h.store]), hend⟩

end read

/-! ## A write -/

/-- What a write of the bytes from address `a` on has done since state `s₀`: the first `count` bytes of `in` are in the
store, and nothing else has changed in it or at the host (R150). -/
structure WrittenSoFar (s₀ : State) (a : Nat) (s : State) : Prop where
  host : s.host = s₀.host
  bytes : ∀ x, s.storeByte x =
    if a ≤ x ∧ x < a + s.count.toNat then s₀.host.inBuf.getD (x - a) 0 else s₀.storeByte x

section write
variable {s₀ s t : State} {a : Nat} {len : Word} {turns : Nat}

theorem WrittenSoFar.sameProgress (h : WrittenSoFar s₀ a s) (hsame : SameProgress s t) : WrittenSoFar s₀ a t := by
  obtain ⟨hhost, hcount, hstore⟩ := hsame
  exact ⟨hhost.trans h.host, fun x => by rw [State.storeByte, hstore, hcount]; exact h.bytes x⟩

/-- A byte of the buffer after a copy in: the caller's where the copy went, what it was elsewhere (R145). -/
theorem getElem_copyIn_buf (s : State) {i : Nat} (hi : i < 256) :
    s.copyIn.buf[i] =
      if s.idx.toNat ≤ i ∧ i < s.idx.toNat + s.copyLength then s.hostIn (s.count.toNat + (i - s.idx.toNat))
      else s.buf[i] := by
  by_cases hlow : s.idx.toNat ≤ i
  · by_cases hhigh : i - s.idx.toNat < s.copyLength
    · simp [State.copyIn, State.incoming, hlow, hhigh, show i < s.idx.toNat + s.copyLength by omega]
    · simp [State.copyIn, State.incoming, hlow, hhigh, show ¬ i < s.idx.toNat + s.copyLength by omega]
  · simp [State.copyIn, hlow]

/-- Within the bytes the caller supplied `HostIn` is the caller's byte (R34, R198). -/
theorem hostIn_supplied {s : State} {i : Nat} (hi : i < s.host.inBuf.length) : s.hostIn i = s.host.inBuf.getD i 0 := by
  simp [State.hostIn, List.getD_eq_getElem?_getD, hi]

/-- The block of the cursor with the copy in it: a byte of the store once it is written back (R145, R146). -/
theorem IdealLoop.read_writeBack (hs : IdealLoop .write a len turns s)
    (hbuf : s.buf = s.dev.store.readBlock (linearAddress s.drum s.block 0)) (x : Nat) :
    (s.dev.store.writeBlock (linearAddress s.drum s.block 0) s.copyIn.buf).read x =
      if a + s.count.toNat ≤ x ∧ x < a + s.copyIn.count.toNat then s.hostIn (x - a) else s.storeByte x := by
  obtain ⟨hidx, hcount, hidx_le, -⟩ := bumpCursor_toNat hs.idx_le hs.count_le
  have hcursor : linearAddress s.drum s.block 0 + s.idx.toNat = a + s.count.toNat := hs.cursor
  have hcount' : s.copyIn.count.toNat = s.count.toNat + s.copyLength := hcount
  generalize linearAddress s.drum s.block 0 = pos at hbuf hcursor
  rw [read_writeBlock, hcount']
  by_cases hx : pos ≤ x ∧ x < pos + 256
  · have hlt : x - pos < 256 := by omega
    rw [dif_pos hx, getElem_copyIn_buf s hlt]
    by_cases hnew : a + s.count.toNat ≤ x ∧ x < a + (s.count.toNat + s.copyLength)
    · rw [if_pos hnew, if_pos (by omega), show s.count.toNat + (x - pos - s.idx.toNat) = x - a by omega]
    · have haddr : pos + (x - pos) = x := by omega
      rw [if_neg hnew, if_neg (by omega)]
      simp [hbuf, haddr, State.storeByte]
  · rw [dif_neg hx, if_neg (by omega), State.storeByte]

/-- A copy into the block of the cursor and its write-back store the caller's next bytes (R145, R146). -/
theorem WrittenSoFar.writeBack (h : WrittenSoFar s₀ a s) (hs : IdealLoop .write a len turns s)
    (hsupplied : len.toNat ≤ s₀.host.inBuf.length)
    (hbuf : s.buf = s.dev.store.readBlock (linearAddress s.drum s.block 0)) (hafter : AfterOperation s.copyIn t)
    (hstore : t.dev.store = s.dev.store.writeBlock (linearAddress s.drum s.block 0) s.copyIn.buf) :
    WrittenSoFar s₀ a t := by
  obtain ⟨-, hcount, -, hcount_le, -⟩ := bumpCursor_toNat hs.idx_le hs.count_le
  have hgrows : s.count.toNat ≤ s.copyIn.count.toNat := hcount ▸ Nat.le_add_right _ _
  have hle : s.copyIn.count.toNat ≤ len.toNat := hs.range ▸ hcount_le
  obtain ⟨-, -, htcount, -, hthost⟩ := hafter.cursor_kept
  refine ⟨hthost.trans h.host, fun x => ?_⟩
  rw [State.storeByte, hstore, hs.read_writeBack hbuf, h.bytes, htcount]
  by_cases hnew : a + s.count.toNat ≤ x ∧ x < a + s.copyIn.count.toNat
  · have hin : x - a < s.host.inBuf.length := by rw [h.host]; omega
    rw [if_pos hnew, hostIn_supplied hin, h.host, if_pos (by omega)]
  · have hiff : (a ≤ x ∧ x < a + s.copyIn.count.toNat) ↔ a ≤ x ∧ x < a + s.count.toNat := by omega
    simp only [hnew, hiff, if_false]

/-- The loop of a write over the ideal device stores the range (R148, R150). -/
theorem writeLoop_ideal (hsupplied : len.toNat ≤ s₀.host.inBuf.length) (turns : Nat) :
    ∀ s, IdealLoop .write a len turns s → WrittenSoFar s₀ a s →
    ∃ t, writeLoop turns s = .ended (t.finish (rangeStatus a len)) ∧ RangeMoved a len t ∧ WrittenSoFar s₀ a t := by
  refine loop_ends (fun _ _ h hsame => h.sameProgress hsame) (fun turns s hs h => ?_) turns
  obtain ⟨t, hfetch, ht, hafter, hstore, hbuf⟩ := hs.fetchBlock
  have hwritten := h.sameProgress (hafter.sameProgress hstore)
  obtain ⟨_, _, _, _, rfl⟩ := hafter
  obtain ⟨-, -, -, -, hend⟩ := bumpCursor_toNat ht.idx_le ht.count_le
  obtain ⟨u, hback, hu, hafter', hstore'⟩ := ht.copyIn.writeBack
  have hwritten' := hwritten.writeBack ht hsupplied (by rw [hbuf, hstore]) hafter' hstore'
  obtain ⟨_, _, _, _, rfl⟩ := hafter'
  exact ⟨_, (hfetch _).trans (hback _), hu, hwritten', hend⟩

end write

/-! ## Range commands over the ideal device -/

/-- An idle block with legal parameters before the ideal device: where a whole command over that device begins. -/
structure Ready (s : State) : Prop where
  legal : s.params.wf = true
  released : s.resetLine = false
  idle : s.st = .idle
  ideal : s.ideal

theorem Ready.takeCall {s : State} (h : Ready s) (k : Call) (rest : List Call) : Ready (s.takeCall k rest) :=
  ⟨h.legal, h.released, h.idle, h.ideal⟩

/-- The end of a range command leaves the block ready for the next. -/
theorem RangeMoved.ready {a : Nat} {len : Word} {s : State} (h : RangeMoved a len s) (code : Status) :
    Ready (s.finish code) :=
  ⟨h.legal, h.released, rfl, h.ideal⟩

/-- An accepted range comes to its loop with nothing moved (R123, R130, R148). -/
theorem bigRange_ideal {s : State} {c : Cmd} {addr len : Word} (loop : State → Run) (hc : c = .read ∨ c = .write)
    (hs : Ready s) (hlen : 1 ≤ len.toNat) (hvalid : addr.toNat < Config.capacity) :
    ∃ t, s.bigRange c addr len loop = loop t ∧ IdealLoop c addr.toNat len 4096 t ∧ t.count = 0 ∧
      t.host = s.host ∧ t.dev.store = s.dev.store := by
  obtain ⟨d, b, o, hdecode, -⟩ := decodeAddress_of_valid addr hvalid
  have hne : len ≠ 0 := by bv_omega
  have haccept : s.acceptRange c addr len =
      (({ s with cmd := c, trace := s.trace ++ [.command c addr len] } : State).loadCursor d b o len).atFsm .seekD := by
    simp only [State.acceptRange, hne, hdecode, if_false, State.atFsm]
  have hloop := (loopInv_loadCursor (s := { s with cmd := c, trace := s.trace ++ [.command c addr len] })
    c d b o len hs.legal hs.released rfl).atFsm .seekD
  have hrun := (acceptRange_running hc haccept (by simp)).1
  obtain ⟨hcursor, -⟩ := cursorAt_of_running (by simp) (by simp) hrun
  obtain ⟨t, hseek, ht, htideal, hon, hstore⟩ := operateSeekDrum_ideal hloop.distinct hs.ideal
  obtain ⟨_, _, _, _, rfl⟩ := ht
  refine ⟨_, ?_, ⟨hloop.afterOperation ⟨_, _, _, _, rfl⟩, htideal, hon, hcursor, rfl⟩, rfl, rfl, hstore⟩
  simp only [State.bigRange, hne, hdecode, if_false]
  exact congrArg (Run.andThen · loop) hseek

/-- CMD_READ over the ideal device delivers the range (R132). -/
theorem bigRead_ideal {s : State} {addr len : Word} (hs : Ready s) (hlen : 1 ≤ len.toNat)
    (hvalid : addr.toNat < Config.capacity) :
    ∃ t, bigRead addr len s = .ended (t.finish (rangeStatus addr.toNat len)) ∧ RangeMoved addr.toNat len t ∧
      ReadSoFar s addr.toNat t := by
  obtain ⟨t, hloop, ht, hcount, hhost, hstore⟩ := bigRange_ideal (readLoop 4096) (.inl rfl) hs hlen hvalid
  rw [bigRead, hloop]
  exact readLoop_ideal 4096 t ht ⟨hstore, by rw [hhost], by simp [hcount, hhost]⟩

/-- CMD_WRITE over the ideal device stores the caller's bytes (R150). -/
theorem bigWrite_ideal {s : State} {addr len : Word} (hs : Ready s) (hlen : 1 ≤ len.toNat)
    (hvalid : addr.toNat < Config.capacity) (hsupplied : len.toNat ≤ s.host.inBuf.length) :
    ∃ t, bigWrite addr len s = .ended (t.finish (rangeStatus addr.toNat len)) ∧ RangeMoved addr.toNat len t ∧
      WrittenSoFar s addr.toNat t := by
  obtain ⟨t, hloop, ht, hcount, hhost, hstore⟩ := bigRange_ideal (writeLoop 4096) (.inr rfl) hs hlen hvalid
  rw [bigWrite, hloop]
  refine writeLoop_ideal hsupplied 4096 t ht ⟨hhost, fun x => ?_⟩
  rw [hcount, if_neg (by simp), State.storeByte, hstore, State.storeByte]

/-! ## A write call and a read call -/

/-- An idle block takes the host's next call and runs its command (R196). -/
theorem reaches_of_call {s t u : State} {k : Call} {rest : List Call} (hs : Ready s)
    (hcalls : s.host.calls = k :: rest) (hexec : exec (decodePacket k.packet) (s.takeCall k rest) = .next u)
    (hreach : Reaches u t) : Reaches s t :=
  .head ((step_idle_call hs.released hs.idle hcalls).trans hexec) hreach

/-- A read call over the ideal device is run to its end (R10, R132). -/
theorem readCall_ideal {s : State} {addr len : Word} {k : Call} {rest : List Call} (hs : Ready s)
    (hlen : 1 ≤ len.toNat) (hvalid : addr.toNat < Config.capacity) (hcalls : s.host.calls = k :: rest)
    (hpacket : decodePacket k.packet = .cmdRead addr len) :
    ∃ t, Reaches s (t.finish (rangeStatus addr.toNat len)) ∧ RangeMoved addr.toNat len t ∧
      ReadSoFar (s.takeCall k rest) addr.toNat t := by
  obtain ⟨t, hbig, ht⟩ := bigRead_ideal (hs.takeCall k rest) hlen hvalid
  obtain ⟨hended, -⟩ := readIsItsBigStep (s.takeCall k rest) addr len hs.legal hs.released hs.idle
  obtain ⟨u, hexec, hreach, -⟩ := hended _ hbig
  exact ⟨t, reaches_of_call hs hcalls (hpacket ▸ hexec) hreach, ht⟩

/-- A write call over the ideal device is run to its end (R10, R150). -/
theorem writeCall_ideal {s : State} {addr len : Word} {k : Call} {rest : List Call} (hs : Ready s)
    (hlen : 1 ≤ len.toNat) (hvalid : addr.toNat < Config.capacity) (hcalls : s.host.calls = k :: rest)
    (hpacket : decodePacket k.packet = .cmdWrite addr len) (hsupplied : len.toNat ≤ k.inBuf.length) :
    ∃ t, Reaches s (t.finish (rangeStatus addr.toNat len)) ∧ RangeMoved addr.toNat len t ∧
      WrittenSoFar (s.takeCall k rest) addr.toNat t := by
  obtain ⟨t, hbig, ht⟩ := bigWrite_ideal (hs.takeCall k rest) hlen hvalid hsupplied
  obtain ⟨hended, -⟩ := writeIsItsBigStep (s.takeCall k rest) addr len hs.legal hs.released hs.idle
  obtain ⟨u, hexec, hreach, -⟩ := hended _ hbig
  exact ⟨t, reaches_of_call hs hcalls (hpacket ▸ hexec) hreach, ht⟩

/-- A range inside the array is moved whole, and ends with `OK` (R132, R150). -/
theorem RangeMoved.inside {a : Nat} {len : Word} {s : State} (h : RangeMoved a len s)
    (hin : a + len.toNat ≤ Config.capacity) : s.count.toNat = len.toNat ∧ rangeStatus a len = .ok := by
  have hmoved := h.moved
  exact ⟨by omega, if_pos hin⟩

/-- Settles O50: the write call leaves the bytes in the store and the block ready, and the read call delivers what the
store then holds. -/
theorem writeThenRead : Obligations.WriteThenRead := by
  intro s addr len bytes other out hp hr hst hideal hlen hin hlength hcalls
  have hvalid : addr.toNat < Config.capacity := by simp only [Config.capacity]; omega
  obtain ⟨w, hwrite, hw, hwritten⟩ := writeCall_ideal ⟨hp, hr, hst, hideal⟩ hlen hvalid hcalls
    (Laws.FrameShape.cmdWrite addr len s.params) hlength.ge
  have hwcalls : (w.finish (rangeStatus addr.toNat len)).host.calls = [⟨encodePacket 2 addr len, [], out⟩] := by
    rw [finish_host, hwritten.host]
    rfl
  obtain ⟨r, hread, hmoved, hdelivered⟩ := readCall_ideal (hw.ready _) hlen hvalid hwcalls
    (Laws.FrameShape.cmdRead addr len s.params)
  obtain ⟨hwcount, hok⟩ := hw.inside hin
  obtain ⟨hrcount, -⟩ := hmoved.inside hin
  refine ⟨_, hwrite.trans hread, rfl, by rw [finish_host, hdelivered.host]; rfl, hok, fun name i => ?_⟩
  have hstored (hi : i < len.toNat) : w.storeByte (addr.toNat + i) = bytes[i] := by
    rw [hwritten.bytes, hwcount, if_pos (by omega), Nat.add_sub_cancel_left]
    simp [hlength, hi]
  have houts : w.host.outs = s.host.outs := by rw [hwritten.host]; rfl
  rw [finish_host, hdelivered.bytes, hrcount]
  simp only [takeCall_host, finish_host, houts]
  by_cases hmem : name = out ∧ i < len.toNat
  · rw [if_pos hmem, if_pos hmem, List.getElem?_eq_getElem (by omega)]
    exact congrArg some (hstored hmem.2)
  · rw [if_neg hmem, if_neg hmem]

end Sys2Proof.Machine

/-! Both formats' decoder and encoder are inverse to each other (30_encoding.md R62 to R71). The decoder's branches on a
word are walked once, in `decodeWord_outcome`; what decodes, and to what, is read off its cases. -/

namespace Sys2Proof.Machine

/-! ## What the decoder answers for a word -/

/-- What the decoder can answer for a word, with the fields that lead to each answer. The two mount opcodes come
before the other four, which matters only where the parameters are not distinct. -/
inductive WordOutcome (c : Config.Params) (w : Word) : Except Reject Instr → Prop where
  | reservedBits (hr : wordReserved w ≠ 0) : WordOutcome c w (.error (.reservedBits w))
  | mountFields (ho : wordOpcode w = c.opcMount ∨ wordOpcode w = c.opcUnmount)
      (hf : ¬(wordDrum w = 0 ∧ wordBlock w = 0)) : WordOutcome c w (.error (.mountFields w))
  | unusedOpcode (ho : wordOpcode w ∉ c.opcodes) : WordOutcome c w (.error (.unusedOpcode w))
  | mount (hr : wordReserved w = 0) (ho : wordOpcode w = c.opcMount) (hf : wordDrum w = 0 ∧ wordBlock w = 0) :
      WordOutcome c w (.ok .mount)
  | unmount (hr : wordReserved w = 0) (ho : wordOpcode w = c.opcUnmount) (hf : wordDrum w = 0 ∧ wordBlock w = 0) :
      WordOutcome c w (.ok .unmount)
  | seekDrum (hr : wordReserved w = 0) (hn : ¬(wordOpcode w = c.opcMount ∨ wordOpcode w = c.opcUnmount))
      (ho : wordOpcode w = c.opcSeekDrum) : WordOutcome c w (.ok (.seekDrum (wordDrum w) (wordBlock w)))
  | seekBlock (hr : wordReserved w = 0) (hn : ¬(wordOpcode w = c.opcMount ∨ wordOpcode w = c.opcUnmount))
      (ho : wordOpcode w = c.opcSeekBlock) : WordOutcome c w (.ok (.seekBlock (wordDrum w) (wordBlock w)))
  | readBlock (hr : wordReserved w = 0) (hn : ¬(wordOpcode w = c.opcMount ∨ wordOpcode w = c.opcUnmount))
      (ho : wordOpcode w = c.opcReadBlock) : WordOutcome c w (.ok (.readBlock (wordDrum w) (wordBlock w)))
  | writeBlock (hr : wordReserved w = 0) (hn : ¬(wordOpcode w = c.opcMount ∨ wordOpcode w = c.opcUnmount))
      (ho : wordOpcode w = c.opcWriteBlock) : WordOutcome c w (.ok (.writeBlock (wordDrum w) (wordBlock w)))

/-- Each branch of the decoder is one of the outcomes (R65, R70). -/
theorem decodeWord_outcome (c : Config.Params) (w : Word) : WordOutcome c w (decodeWord c w) := by
  unfold decodeWord
  split_ifs with hr hm hf hu hf hd hb hrd hwr
  · exact .reservedBits hr
  · exact .mount (not_not.1 hr) hm hf
  · exact .mountFields (.inl hm) hf
  · exact .unmount (not_not.1 hr) hu hf
  · exact .mountFields (.inr hu) hf
  · exact .seekDrum (not_not.1 hr) (not_or.2 ⟨hm, hu⟩) hd
  · exact .seekBlock (not_not.1 hr) (not_or.2 ⟨hm, hu⟩) hb
  · exact .readBlock (not_not.1 hr) (not_or.2 ⟨hm, hu⟩) hrd
  · exact .writeBlock (not_not.1 hr) (not_or.2 ⟨hm, hu⟩) hwr
  · exact .unusedOpcode (by simp [Config.Params.opcodes, hm, hu, hd, hb, hrd, hwr])

/-- The decoder takes a word exactly when its fields have one of R65's six patterns (R70). -/
theorem decodeWord_ok_iff (c : Config.Params) (w : Word) :
    (∃ i, decodeWord c w = .ok i) ↔
      wordReserved w = 0 ∧ wordOpcode w ∈ c.opcodes ∧
        (wordOpcode w = c.opcMount ∨ wordOpcode w = c.opcUnmount → wordDrum w = 0 ∧ wordBlock w = 0) := by
  have houtcome := decodeWord_outcome c w
  generalize decodeWord c w = answer at houtcome
  cases houtcome with
  | reservedBits hr => exact iff_of_false (by simp) fun ⟨hz, _⟩ => hr hz
  | mountFields ho hf => exact iff_of_false (by simp) fun ⟨_, _, hz⟩ => hf (hz ho)
  | unusedOpcode ho => exact iff_of_false (by simp) fun ⟨_, hmem, _⟩ => ho hmem
  | mount hr ho hf | unmount hr ho hf =>
    exact iff_of_true ⟨_, rfl⟩ ⟨hr, by simp [Config.Params.opcodes, ho], fun _ => hf⟩
  | seekDrum hr hn ho | seekBlock hr hn ho | readBlock hr hn ho | writeBlock hr hn ho =>
    exact iff_of_true ⟨_, rfl⟩ ⟨hr, by simp [Config.Params.opcodes, ho], fun h => absurd h hn⟩

/-- Settles O8: no packet is refused (R71), and a word is when its fields say so. -/
theorem whatDecodes : Obligations.WhatDecodes :=
  fun c => ⟨fun p => ⟨decodePacket p, rfl⟩, decodeWord_ok_iff c⟩

/-! ## Decoding and encoding -/

/-- A word is the encoding of the values its fields have. -/
theorem encodeOperation_of_fields {w : Word} {o : BitVec 6} {d : BitVec 4} {b : BitVec 8} (hr : wordReserved w = 0)
    (ho : wordOpcode w = o) (hd : wordDrum w = d) (hb : wordBlock w = b) : encodeOperation o d b = w := by
  subst ho hd hb
  exact encodeOperation_fields w hr

/-- The operation a word decodes to is encoded as that word, also where two operations share an opcode. -/
theorem encode_of_decodeWord {c : Config.Params} {w : Word} {i : Instr} (h : decodeWord c w = .ok i) :
    encode c i = .word w := by
  have houtcome := decodeWord_outcome c w
  rw [h] at houtcome
  cases houtcome with
  | mount hr ho hf | unmount hr ho hf => exact congrArg Frame.word (encodeOperation_of_fields hr ho hf.1 hf.2)
  | seekDrum hr _ ho | seekBlock hr _ ho | readBlock hr _ ho | writeBlock hr _ ho =>
    exact congrArg Frame.word (encodeOperation_of_fields hr ho rfl rfl)

/-- A packet is the encoding of the address and length it carries under the operation it names. -/
theorem encodePacket_of_op {p : Packet} {op : BitVec 2} (h : packetOp p = op) :
    encodePacket op (packetAddr p) (packetLen p) = p := by
  subst h
  exact encodePacket_fields p

/-- The command a packet decodes to is encoded as that packet: the four values of `cmd_op` are all there are (R67). -/
theorem encode_decodePacket (c : Config.Params) (p : Packet) : encode c (decodePacket p) = .packet p := by
  unfold decodePacket
  split_ifs with h0 h1 h2
  · exact congrArg Frame.packet (encodePacket_of_op h0)
  · exact congrArg Frame.packet (encodePacket_of_op h1)
  · exact congrArg Frame.packet (encodePacket_of_op h2)
  · have h3 : packetOp p = 3 := by bv_omega
    exact congrArg Frame.packet (encodePacket_of_op h3)

/-- Settles O7, format by format. -/
theorem encodeDecodeAgree : Obligations.EncodeDecodeAgree := by
  intro c f i h
  cases f with
  | packet p =>
    obtain rfl : decodePacket p = i := Except.ok.inj h
    exact encode_decodePacket c p
  | word w => exact encode_of_decodeWord h

/-- Settles O6: a command's packet decodes under any parameters, and an operation's word where the opcodes are
distinct, which is what well-formedness asks of an operation. -/
theorem decodeEncodeAgree : Obligations.DecodeEncodeAgree := by
  intro c i hwf
  cases i with
  | cmdMount addr len => exact congrArg Except.ok (Laws.FrameShape.cmdMount addr len c)
  | cmdUnmount addr len => exact congrArg Except.ok (Laws.FrameShape.cmdUnmount addr len c)
  | cmdRead addr len => exact congrArg Except.ok (Laws.FrameShape.cmdRead addr len c)
  | cmdWrite addr len => exact congrArg Except.ok (Laws.FrameShape.cmdWrite addr len c)
  | mount | unmount | seekDrum | seekBlock | readBlock | writeBlock => exact decode_encode_word hwf rfl

/-! ## The words of the test vectors -/

/-- Settles O9: V-ENC's words, the refused word with bit 8 set, and the packets of M4 and P1, each decoded. -/
theorem specWordsDecode : Obligations.SpecWordsDecode := by
  unfold Obligations.SpecWordsDecode
  decide

end Sys2Proof.Machine

/-! The address decoder as arithmetic on the address (40_address_codec.md R80 to R85). `decodeAddress` answers a triple
exactly where the address is the triple's linear address, so that it is a bijection is read off that equivalence. -/

namespace Sys2Proof.Machine

/-! ## The fields of an address that always exist -/

/-- Settles O1: a mask of low ones is a remainder, and a mask shifted down is the shifted value masked. -/
theorem offsetAndBlockAreMasks : Obligations.OffsetAndBlockAreMasks := by
  intro addr
  have hwiden (x : BitVec 8) : (x.zeroExtend 32).toNat = x.toNat := BitVec.toNat_setWidth_of_le (by omega)
  have hlow (n : Nat) : n &&& 255 = n % 256 := Nat.and_two_pow_sub_one_eq_mod n 8
  constructor <;> apply BitVec.eq_of_toNat_eq
  · calc ((decomposeOffset addr).zeroExtend 32).toNat = addr.toNat % 256 := by
          rw [hwiden, toNat_decomposeOffset]
      _ = (addr &&& 0xFF).toNat := (hlow _).symm
  · calc ((decomposeBlock addr).zeroExtend 32).toNat = addr.toNat / 256 % 256 := by
          rw [hwiden, toNat_decomposeBlock]
      _ = addr.toNat >>> 8 &&& 0xFF00 >>> 8 := by
          rw [Nat.shiftRight_eq_div_pow]
          exact (hlow _).symm
      _ = ((addr &&& 0x0000FF00) >>> 8).toNat := Nat.shiftRight_and_distrib.symm

/-! ## The drum, and the addresses that have none -/

/-- The drum of an address as arithmetic on it (R82). -/
theorem decomposeDrum_eq (addr : Word) :
    decomposeDrum addr =
      if addr.toNat / 65536 ≤ 15 then some (BitVec.ofNat 4 (addr.toNat / 65536)) else none := by
  have hdrum : (rawDrum addr).extractLsb' 0 4 = BitVec.ofNat 4 (addr.toNat / 65536) := by
    rw [eq_field_iff, toNat_rawDrum, BitVec.toNat_ofNat, Nat.pow_zero, Nat.div_one]
  rw [decomposeDrum, toNat_rawDrum, hdrum, Config.maxDrum]

theorem decomposeDrum_eq_some_iff (addr : Word) (d : BitVec 4) :
    decomposeDrum addr = some d ↔ addr.toNat / 65536 = d.toNat := by
  have hd := d.isLt
  rw [decomposeDrum_eq, Option.ite_none_right_eq_some, Option.some_inj, ← BitVec.toNat_inj, BitVec.toNat_ofNat]
  omega

theorem decomposeDrum_eq_none_iff (addr : Word) : decomposeDrum addr = none ↔ Config.capacity ≤ addr.toNat := by
  rw [decomposeDrum_eq, ite_eq_right_iff, Config.capacity]
  simp only [reduceCtorEq, imp_false]
  omega

/-- `addr[31:20] != 0` says that the address is past the array (R82). -/
theorem highBits_ne_zero_iff (addr : Word) : addr.extractLsb' 20 12 ≠ 0 ↔ Config.capacity ≤ addr.toNat := by
  have haddr := addr.isLt
  rw [ne_eq, eq_field_iff, show BitVec.toNat (0 : BitVec 12) = 0 from rfl, Config.capacity]
  omega

/-- Settles O2: `addr >> 16` is the quotient by 65536. -/
theorem decomposeDrumRange : Obligations.DecomposeDrumRange := by
  intro addr
  have hshift : (addr >>> 16).toNat = addr.toNat / 65536 := by
    rw [BitVec.toNat_ushiftRight, Nat.shiftRight_eq_div_pow]
  refine ⟨?_, (decomposeDrum_eq_none_iff addr).trans (highBits_ne_zero_iff addr).symm⟩
  rw [hshift, decomposeDrum_eq]

/-! ## Decode and the linear address -/

/-- An address decodes to the answers of the three decoder functions (R83). -/
theorem decodeAddress_eq_some_iff_fields (addr : Word) (d : BitVec 4) (b o : BitVec 8) :
    decodeAddress addr = some (d, b, o) ↔
      decomposeDrum addr = some d ∧ decomposeBlock addr = b ∧ decomposeOffset addr = o := by
  simp [decodeAddress]

theorem decodeAddress_eq_none_iff (addr : Word) : decodeAddress addr = none ↔ Config.capacity ≤ addr.toNat := by
  rw [decodeAddress, Option.map_eq_none_iff, decomposeDrum_eq_none_iff]

/-- The triple an address decodes to is the one whose linear address it is (R83): its digits to base 256. -/
theorem decodeAddress_eq_some_iff (addr : Word) (d : BitVec 4) (b o : BitVec 8) :
    decodeAddress addr = some (d, b, o) ↔ addr.toNat = linearAddress d b o.toNat := by
  have hb := b.isLt
  have ho := o.isLt
  rw [decodeAddress_eq_some_iff_fields, decomposeDrum_eq_some_iff, ← BitVec.toNat_inj, toNat_decomposeBlock,
    ← BitVec.toNat_inj, toNat_decomposeOffset, linearAddress]
  omega

/-- The linear address of a byte of a block lies in the array, so 32 bits hold it. -/
theorem toNat_ofNat_linearAddress (d : BitVec 4) (b o : BitVec 8) :
    (BitVec.ofNat 32 (linearAddress d b o.toNat)).toNat = linearAddress d b o.toNat := by
  have hd := d.isLt
  have hb := b.isLt
  have ho := o.isLt
  rw [BitVec.toNat_ofNat, Nat.mod_eq_of_lt]
  rw [linearAddress]
  omega

theorem decodeAddress_linearAddress (d : BitVec 4) (b o : BitVec 8) :
    decodeAddress (BitVec.ofNat 32 (linearAddress d b o.toNat)) = some (d, b, o) :=
  (decodeAddress_eq_some_iff _ d b o).2 (toNat_ofNat_linearAddress d b o)

/-- Settles O3: both directions are the one equivalence between decoding to a triple and being its linear address. -/
theorem decodeAddressBijective : Obligations.DecodeAddressBijective :=
  ⟨decodeAddress_linearAddress, fun addr d b o => (decodeAddress_eq_some_iff addr d b o).1,
    fun addr => (decodeAddress_eq_none_iff addr).trans (highBits_ne_zero_iff addr).symm⟩

/-! ## The operation word -/

/-- The concatenation of R63, as arithmetic on its fields. -/
theorem toNat_operationFields (opc : BitVec 6) (d : BitVec 4) (b : BitVec 8) :
    (opc ++ d ++ (0 : BitVec 14) ++ b).toNat = opc.toNat * 2 ^ 26 + d.toNat * 2 ^ 22 + b.toNat := by
  have hd := d.isLt
  have hb := b.isLt
  rw [BitVec.toNat_append, BitVec.toNat_append, BitVec.toNat_append,
    show BitVec.toNat (0 : BitVec 14) = 0 from rfl, Nat.or_zero, ← Nat.shiftLeft_add_eq_or_of_lt hd,
    ← Nat.shiftLeft_add_eq_or_of_lt hb]
  simp only [Nat.shiftLeft_eq]
  omega

/-- Settles O4: the shifted or is the model's definition, and the concatenation has the same number. -/
theorem operationWordIsConcatenation : Obligations.OperationWordIsConcatenation := by
  intro opc d b
  refine ⟨rfl, BitVec.eq_of_toNat_eq ?_⟩
  exact (toNat_encodeOperation opc d b).trans (toNat_operationFields opc d b).symm

/-- Settles O5: the linear address decodes to its triple, and the word has the fields it was encoded from. -/
theorem addressToWordRoundTrip : Obligations.AddressToWordRoundTrip := by
  rintro opc d b o addr rfl
  obtain ⟨hdrum, hblock, hoffset⟩ :=
    (decodeAddress_eq_some_iff_fields _ d b o).1 (decodeAddress_linearAddress d b o)
  refine ⟨hdrum, hblock, hoffset, ?_⟩
  rintro w rfl
  exact ⟨wordDrum_encodeOperation opc d _, (wordBlock_encodeOperation opc d _).trans hblock,
    wordOpcode_encodeOperation opc d _, wordReserved_encodeOperation opc d _⟩

end Sys2Proof.Machine

/-! The device gateway (R92 to R103): where the device stands, the seek discipline of the trace, what each operation
word does when the device answers, which words a step presents and which stored bytes it can change. What a row of R31
adds to the trace and what it does to the device are said once (`traceGrows_of_row`, `device_of_row`). -/

namespace Sys2Proof.Machine

/-! ## The words that a state presents -/

/-- `w` is the word of the operation that the FSM state issues (R31, R99). -/
def State.issuesWord (s : State) (w : Word) : Prop := s.issued.map (encode s.params) = some (.word w)

/-- R102: the six words, each with the one or two FSM states that present it. -/
theorem issuesWord_iff (s : State) (w : Word) :
    s.issuesWord w ↔
      (s.st = .mnt ∧ s.cmd = .mount ∧ w = encodeOperation s.params.opcMount 0 0) ∨
      (s.st = .mnt ∧ s.cmd ≠ .mount ∧ w = encodeOperation s.params.opcUnmount 0 0) ∨
      (s.st = .seekD ∧ w = encodeOperation s.params.opcSeekDrum s.drum s.block) ∨
      ((s.st = .seekB ∨ s.st = .seekB2) ∧ w = encodeOperation s.params.opcSeekBlock s.drum s.block) ∨
      (s.st = .rdblk ∧ w = encodeOperation s.params.opcReadBlock s.drum s.block) ∨
      (s.st = .wrblk ∧ w = encodeOperation s.params.opcWriteBlock s.drum s.block) := by
  unfold State.issuesWord State.issued
  cases hst : s.st with
  | idle | copy | adv => simp
  | mnt => by_cases hc : s.cmd = .mount <;> simp [hc, encode, eq_comm]
  | seekD | seekB | rdblk | seekB2 | wrblk => simp [encode, eq_comm]

/-! ## What a step adds to the trace -/

/-- The trace grows by at most one device operation, with a word of the state's own, and by other transactions. -/
def TraceGrows (s : State) (trace : List Event) : Prop :=
  ∃ quiet, devWords quiet = [] ∧
    (trace = s.trace ++ quiet ∨
      ∃ w kind data status, s.issuesWord w ∧ trace = s.trace ++ .devOp w kind data status :: quiet)

theorem traceGrows_quiet {s : State} (quiet : List Event) (h : devWords quiet = []) :
    TraceGrows s (s.trace ++ quiet) :=
  ⟨quiet, h, .inl rfl⟩

theorem traceGrows_operated {s : State} {w : Word} (hw : s.issuesWord w) (kind : BufKind) (op : DeviceOp)
    (status : Nat) (rest : List Answer) (quiet : List Event) (h : devWords quiet = []) :
    TraceGrows s ((s.operated w kind op status rest).trace ++ quiet) :=
  ⟨quiet, h, .inr ⟨w, kind, _, status, hw, List.append_assoc _ _ _⟩⟩

/-- An operation that lets the command go on is the only transaction of its step. -/
theorem traceGrows_wentOn {s : State} {w : Word} (hw : s.issuesWord w) (kind : BufKind) (op : DeviceOp) (status : Nat)
    (rest : List Answer) : TraceGrows s (s.operated w kind op status rest).trace :=
  List.append_nil (s.operated w kind op status rest).trace ▸ traceGrows_operated hw kind op status rest [] rfl

/-- Every row of R31 is of that form. -/
theorem traceGrows_of_row {s t : State} (h : Row s t) : TraceGrows s t.trace := by
  have hword := fun w => (issuesWord_iff s w).2
  cases h with
  | reset => exact traceGrows_quiet [.reset] rfl
  | idle | silent => exact ⟨[], rfl, .inl (List.append_nil _).symm⟩
  | acceptMount c => exact traceGrows_quiet [.command _ _ _] rfl
  | acceptRange c rest k =>
    rcases acceptRange_finish_or_load (s.takeCall c rest) k (packetAddr c.packet) (packetLen c.packet) with
      ⟨code, he⟩ | ⟨d, b, o, -, -, he⟩ <;> rw [he]
    · exact ⟨[.command k (packetAddr c.packet) (packetLen c.packet), .completion code], rfl, .inl (by simp)⟩
    · exact traceGrows_quiet [.command _ _ _] rfl
  | failed _ i w kind op status rest hi hw =>
    exact traceGrows_operated (by simp [State.issuesWord, hi, hw]) kind op status rest [.completion _] rfl
  | mnt _ hs op opcode status rest ho =>
    refine traceGrows_operated (hword _ ?_) .noBuf op status rest [.completion _] rfl
    rcases ho with ⟨hc, -, rfl⟩ | ⟨hc, -, rfl⟩ <;> simp [hs, hc]
  | seekD _ hs status rest => exact traceGrows_wentOn (hword _ (by simp [hs])) .noBuf .seekDrum status rest
  | seekB _ hs status rest | seekB2 _ hs status rest =>
    exact traceGrows_wentOn (hword _ (by simp [hs])) .noBuf .seekBlock status rest
  | rdblk _ hs status rest => exact traceGrows_wentOn (hword _ (by simp [hs])) .fill .readBlock status rest
  | wrblkMore _ hs status rest => exact traceGrows_wentOn (hword _ (by simp [hs])) .drain .writeBlock status rest
  | wrblkDone _ hs status rest =>
    exact traceGrows_operated (hword _ (by simp [hs])) .drain .writeBlock status rest [.completion _] rfl
  | copyDone =>
    exact ⟨hostEvents .outByte s.count s.outgoing ++ [.completion .ok], by simp, .inl (by simp)⟩
  | copyMore => exact traceGrows_quiet _ (devWords_outBytes _ _)
  | copyIn => exact traceGrows_quiet _ (devWords_inBytes _ _)
  | adv =>
    rcases advStep_move_or_finish s with ⟨drum, block, st, he⟩ | he <;> rw [he]
    · exact ⟨[], rfl, .inl (List.append_nil _).symm⟩
    · exact traceGrows_quiet [.completion _] rfl

/-! ## What a step does to the device -/

/-- A row of R31 leaves the device alone or has it answer one operation, a WRITE_BLOCK in `WRBLK` only. -/
theorem device_of_row {s t : State} (hr : s.resetLine = false) (h : Row s t) :
    t.dev = s.dev ∨ ∃ w kind op status rest, (op = .writeBlock → s.st = .wrblk) ∧
      t.dev = (s.operated w kind op status rest).dev := by
  cases h with
  | reset hreset => rw [hr] at hreset; cases hreset
  | idle | acceptMount | silent | copyDone | copyMore | copyIn => exact .inl rfl
  | acceptRange | adv => exact .inl (by simp)
  | failed _ _ w kind op status rest _ _ _ hop => exact .inr ⟨w, kind, op, status, rest, hop.1, rfl⟩
  | mnt _ _ op opcode status rest ho =>
    refine .inr ⟨_, .noBuf, op, status, rest, fun hop => ?_, rfl⟩
    rcases ho with ⟨-, rfl, -⟩ | ⟨-, rfl, -⟩ <;> cases hop
  | seekD _ _ status rest => exact .inr ⟨_, .noBuf, .seekDrum, status, rest, nofun, rfl⟩
  | seekB _ _ status rest | seekB2 _ _ status rest => exact .inr ⟨_, .noBuf, .seekBlock, status, rest, nofun, rfl⟩
  | rdblk _ _ status rest => exact .inr ⟨_, .fill, .readBlock, status, rest, nofun, rfl⟩
  | wrblkDone _ hs status rest | wrblkMore _ hs status rest =>
    exact .inr ⟨_, .drain, .writeBlock, status, rest, fun _ => hs, rfl⟩

/-! ## Where the device stands -/

/-- The cursor advance stays on the drum, or the drum is sought anew, or the command ends (R129). -/
theorem advStep_headInv {s : State} (h : s.dev.drum = s.drum) : HeadInv s.advStep := by
  unfold State.advStep
  split
  · exact h
  · split
    · exact trivial
    · exact trivial

/-- The accept step seeks no drum yet. -/
theorem acceptRange_headInv (s : State) (c : Cmd) (addr len : Word) : HeadInv (s.acceptRange c addr len) := by
  rcases acceptRange_finish_or_load s c addr len with ⟨code, h⟩ | ⟨d, b, o, -, -, h⟩ <;> rw [h] <;> exact trivial

/-- Settles O36: SEEK_DRUM takes the device to the cursor's drum, SEEK_BLOCK to its block, and until the drum changes
no other operation answered with 0 leaves the drum. -/
theorem deviceFollowsCursor : Obligations.DeviceFollowsCursor := by
  intro s t hp h hstep
  cases step_row hp hstep with
  | reset | acceptMount | failed | mnt | copyDone | wrblkDone => exact trivial
  | idle | silent => exact h
  | acceptRange => exact acceptRange_headInv _ _ _ _
  | seekD _ _ _ _ _ hf =>
    simp only [HeadInv, operated_dev_ok _ _ _ _ _ _ hf]
    exact wordDrum_encodeOperation _ _ _
  | seekB _ hs _ _ _ hf | seekB2 _ hs _ _ _ hf =>
    simp only [HeadInv, hs] at h
    simp only [HeadInv, operated_dev_ok _ _ _ _ _ _ hf]
    exact ⟨h, wordBlock_encodeOperation _ _ _⟩
  | rdblk _ hs _ _ _ hf | wrblkMore _ hs _ _ _ hf =>
    simp only [HeadInv, hs] at h
    obtain ⟨hdrum, -⟩ := h
    simp only [HeadInv, operated_dev_ok _ _ _ _ _ _ hf]
    exact hdrum
  | copyMore _ hs | copyIn _ hs =>
    simp only [HeadInv, hs] at h
    exact h
  | adv _ hs =>
    simp only [HeadInv, hs] at h
    exact advStep_headInv h

/-! ## The seek discipline: which word may come next -/

/-- What `Disciplined` asks of a word presented after the transactions `before` (R100 a, b, c). -/
def MayFollow (p : Config.Params) (before : List Event) (w : Word) : Prop :=
  (wordOpcode w = p.opcReadBlock ∨ wordOpcode w = p.opcWriteBlock → BlockSought p before (wordDrum w) (wordBlock w)) ∧
  (wordOpcode w = p.opcSeekBlock → DrumSought p before (wordDrum w)) ∧
  ∀ earlier c addr len since, before = earlier ++ .command c addr len :: since →
    c = .read ∨ c = .write → (∀ e ∈ since, ¬ e.starts) → wordOpcode w = p.opcSeekDrum

theorem disciplined_iff (p : Config.Params) (trace : List Event) :
    Disciplined p trace ↔ ∀ before w kind data status after,
      trace = before ++ .devOp w kind data status :: after → MayFollow p before w :=
  Iff.rfl

/-- An entry of two traces put together stands in the second or in the first. -/
theorem append_eq_append_cons {α : Type} {l r before after : List α} {e : α} (h : l ++ r = before ++ e :: after) :
    (∃ mid, r = mid ++ e :: after ∧ before = l ++ mid) ∨ ∃ after', l = before ++ e :: after' ∧ after = after' ++ r := by
  rcases List.append_eq_append_iff.1 h with ⟨mid, hbefore, hr⟩ | ⟨mid, hl, hcons⟩
  · exact .inl ⟨mid, hr, hbefore⟩
  · rcases List.append_eq_cons_iff.1 hcons.symm with ⟨rfl, hr⟩ | ⟨after', rfl, hafter⟩
    · exact .inl ⟨[], hr, by simpa using hl.symm⟩
    · exact .inr ⟨after', hl, hafter⟩

/-- Transactions that are no device operations leave the discipline as it is. -/
theorem Disciplined.append_quiet {p : Config.Params} {trace quiet : List Event} (h : Disciplined p trace)
    (hquiet : devWords quiet = []) : Disciplined p (trace ++ quiet) := by
  intro before w kind data status after heq
  rcases append_eq_append_cons heq with ⟨mid, rfl, -⟩ | ⟨after', htrace, -⟩
  · simp at hquiet
  · exact h before w kind data status after' htrace

/-- A device operation keeps the discipline when its word may come next. -/
theorem Disciplined.append_devOp {p : Config.Params} {trace : List Event} {w : Word} (h : Disciplined p trace)
    (hw : MayFollow p trace w) (kind : BufKind) (data : Option Block) (status : Nat) :
    Disciplined p (trace ++ [.devOp w kind data status]) := by
  intro before w' kind' data' status' after heq
  rcases append_eq_append_cons heq with ⟨mid, hlast, rfl⟩ | ⟨after', htrace, -⟩
  · obtain ⟨rfl, hlast⟩ | ⟨_, -, hnil⟩ := List.cons_eq_append_iff.1 hlast
    · cases hlast
      exact (List.append_nil trace).symm ▸ hw
    · simp at hnil
  · exact h before w' kind' data' status' after' htrace

/-! ## The seek discipline: the drum sought last -/

/-- The drum sought stays so through transactions that are neither a SEEK_DRUM, a MOUNT or an UNMOUNT nor a command. -/
theorem DrumSought.append {p : Config.Params} {trace new : List Event} {d : BitVec 4} (h : DrumSought p trace d)
    (hnew : ∀ e ∈ new, ¬ e.repositions p) : DrumSought p (trace ++ new) d := by
  obtain ⟨before, w, kind, data, status, since, rfl, hop, hdrum, hsince⟩ := h
  exact ⟨before, w, kind, data, status, since ++ new, by simp, hop, hdrum, List.forall_mem_append.2 ⟨hsince, hnew⟩⟩

theorem drumSought_append_seekDrum (p : Config.Params) (trace : List Event) (d : BitVec 4) (b : BitVec 8)
    (kind : BufKind) (data : Option Block) (status : Nat) :
    DrumSought p (trace ++ [.devOp (encodeOperation p.opcSeekDrum d b) kind data status]) d :=
  ⟨trace, _, kind, data, status, [], rfl, wordOpcode_encodeOperation _ _ _, wordDrum_encodeOperation _ _ _,
    List.forall_mem_nil _⟩

/-- Where a drum is sought, the running command has presented its first operation already. -/
theorem DrumSought.started {p : Config.Params} {earlier since : List Event} {c : Cmd} {addr len : Word} {d : BitVec 4}
    (h : DrumSought p (earlier ++ .command c addr len :: since) d) : ∃ e ∈ since, e.starts := by
  obtain ⟨before, w, kind, data, status, after, heq, -, -, hafter⟩ := h
  rcases append_eq_append_cons heq with ⟨mid, hcons, -⟩ | ⟨after', -, rfl⟩
  · obtain ⟨-, hcons⟩ | ⟨mid', rfl, rfl⟩ := List.cons_eq_append_iff.1 hcons
    · cases hcons
    · exact ⟨.devOp w kind data status, by simp, trivial⟩
  · exact absurd trivial (hafter (.command c addr len) (by simp))

section words
variable {p : Config.Params} {trace : List Event} {d : BitVec 4}

/-- SEEK_BLOCK, READ_BLOCK and WRITE_BLOCK leave the drum that was sought (R92). -/
theorem DrumSought.append_operation (hd : p.opcodesDistinct = true) (h : DrumSought p trace d) {opcode : BitVec 6}
    (hop : opcode = p.opcSeekBlock ∨ opcode = p.opcReadBlock ∨ opcode = p.opcWriteBlock) (d' : BitVec 4)
    (b : BitVec 8) (kind : BufKind) (data : Option Block) (status : Nat) :
    DrumSought p (trace ++ [.devOp (encodeOperation opcode d' b) kind data status]) d := by
  have hne := (opcodesDistinct_iff p).1 hd
  refine h.append (List.forall_mem_singleton.2 ?_)
  rcases hop with rfl | rfl | rfl <;> simp [Event.repositions, hne, Ne.symm]

/-- The bytes of a copy leave the drum that was sought. -/
theorem DrumSought.append_hostEvents (h : DrumSought p trace d) {event : Word → Byte → Event}
    (hevent : ∀ i v, ¬ (event i v).repositions p) (count : Word) (bytes : List Byte) :
    DrumSought p (trace ++ hostEvents event count bytes) d :=
  h.append (forall_hostEvents hevent)

/-! ## The seek discipline: the words of each FSM state -/

/-- After a SEEK_DRUM no operation is the first of its command, so R100 (c) asks for nothing more. -/
theorem mayFollow_of_drumSought {w : Word} (h : DrumSought p trace d)
    (htransfer : wordOpcode w = p.opcReadBlock ∨ wordOpcode w = p.opcWriteBlock →
      BlockSought p trace (wordDrum w) (wordBlock w))
    (hseek : wordOpcode w = p.opcSeekBlock → DrumSought p trace (wordDrum w)) : MayFollow p trace w := by
  refine ⟨htransfer, hseek, ?_⟩
  rintro earlier c addr len since rfl - hnone
  obtain ⟨e, hmem, hstarts⟩ := h.started
  exact absurd hstarts (hnone e hmem)

/-- After the command of a mount or unmount its one operation may come, which is neither a seek nor a transfer. -/
theorem mayFollow_mountCommand (hd : p.opcodesDistinct = true) {c : Cmd} (hc : c = .mount ∨ c = .unmount)
    (addr len : Word) {opcode : BitVec 6} (hop : opcode = p.opcMount ∨ opcode = p.opcUnmount) :
    MayFollow p (trace ++ [.command c addr len]) (encodeOperation opcode 0 0) := by
  have hne := (opcodesDistinct_iff p).1 hd
  refine ⟨?_, ?_, fun earlier c' addr' len' since heq hrange hnone => ?_⟩
  · rcases hop with rfl | rfl <;> simp [hne]
  · rcases hop with rfl | rfl <;> simp [hne]
  · rcases append_eq_append_cons heq with ⟨mid, hlast, -⟩ | ⟨since', -, rfl⟩
    · obtain ⟨-, hlast⟩ | ⟨_, -, hnil⟩ := List.cons_eq_append_iff.1 hlast
      · cases hlast
        rcases hc with rfl | rfl <;> simp at hrange
      · simp at hnil
    · exact absurd trivial (hnone (.command c addr len) (by simp))

/-- The word a state issues may come next in its trace (R100). -/
theorem SeekInv.mayFollow {s : State} {w : Word} (hd : s.params.opcodesDistinct = true) (h : SeekInv s)
    (hw : s.issuesWord w) : MayFollow s.params s.trace w := by
  have hne := (opcodesDistinct_iff s.params).1 hd
  obtain ⟨-, hst⟩ := h
  rcases (issuesWord_iff s w).1 hw with ⟨hs, -, rfl⟩ | ⟨hs, -, rfl⟩ | ⟨hs, rfl⟩ | ⟨hs | hs, rfl⟩ | ⟨hs, rfl⟩ |
    ⟨hs, rfl⟩ <;> simp only [hs] at hst
  · obtain ⟨before, c, addr, len, htrace, hc⟩ := hst
    exact htrace ▸ mayFollow_mountCommand hd hc addr len (.inl rfl)
  · obtain ⟨before, c, addr, len, htrace, hc⟩ := hst
    exact htrace ▸ mayFollow_mountCommand hd hc addr len (.inr rfl)
  · simp [MayFollow, hne]
  · exact mayFollow_of_drumSought hst (by simp [hne]) (by simpa using hst)
  · exact mayFollow_of_drumSought hst (by simp [hne]) (by simpa using hst)
  · obtain ⟨hdrum, hblock⟩ := hst
    exact mayFollow_of_drumSought hdrum (by simpa using hblock) (by simp [hne, Ne.symm])
  · obtain ⟨hdrum, hblock⟩ := hst
    exact mayFollow_of_drumSought hdrum (by simpa using hblock) (by simp [hne, Ne.symm])

end words

/-! ## The seek discipline: every step -/

/-- What a row adds to the trace keeps the discipline. -/
theorem disciplined_of_row {s t : State} (hd : s.params.opcodesDistinct = true) (h : SeekInv s) (hrow : Row s t) :
    Disciplined s.params t.trace := by
  obtain ⟨quiet, hquiet, htrace | ⟨w, kind, data, status, hw, htrace⟩⟩ := traceGrows_of_row hrow <;> rw [htrace]
  · exact h.1.append_quiet hquiet
  · rw [List.append_cons]
    exact (h.1.append_devOp (h.mayFollow hd hw) kind data status).append_quiet hquiet

/-- The trace is what the FSM state takes it to be: the part of `SeekInv` beside the discipline. -/
def TraceFitsState (s : State) : Prop :=
  match s.st with
  | .idle | .seekD => True
  | .mnt => ∃ before c addr len, s.trace = before ++ [.command c addr len] ∧ (c = .mount ∨ c = .unmount)
  | .seekB | .copy | .seekB2 | .adv => DrumSought s.params s.trace s.drum
  | .rdblk | .wrblk => DrumSought s.params s.trace s.drum ∧ BlockSought s.params s.trace s.drum s.block

theorem seekInv_iff (s : State) : SeekInv s ↔ Disciplined s.params s.trace ∧ TraceFitsState s := Iff.rfl

theorem acceptRange_traceFitsState (s : State) (c : Cmd) (addr len : Word) :
    TraceFitsState (s.acceptRange c addr len) := by
  rcases acceptRange_finish_or_load s c addr len with ⟨code, h⟩ | ⟨d, b, o, -, -, h⟩ <;> rw [h] <;> exact trivial

/-- The cursor advance stays on the drum sought, or asks for another seek, or ends the command (R129). -/
theorem advStep_traceFitsState {s : State} (h : DrumSought s.params s.trace s.drum) : TraceFitsState s.advStep := by
  unfold State.advStep
  split
  · exact h
  · split
    · exact trivial
    · exact trivial

/-- A row leads to a state that its trace fits. -/
theorem traceFitsState_of_row {s t : State} (hd : s.params.opcodesDistinct = true) (h : TraceFitsState s)
    (hrow : Row s t) : TraceFitsState t := by
  cases hrow with
  | reset | failed | mnt | copyDone | wrblkDone => exact trivial
  | idle | silent => exact h
  | acceptMount _ _ _ _ _ _ hk => exact ⟨s.trace, _, _, _, rfl, hk⟩
  | acceptRange => exact acceptRange_traceFitsState _ _ _ _
  | seekD => exact drumSought_append_seekDrum _ _ _ _ _ _ _
  | seekB _ hs | seekB2 _ hs =>
    simp only [TraceFitsState, hs] at h
    exact ⟨h.append_operation hd (.inl rfl) _ _ _ _ _, s.trace, _, _, _, rfl⟩
  | rdblk _ hs =>
    simp only [TraceFitsState, hs] at h
    obtain ⟨hdrum, -⟩ := h
    exact hdrum.append_operation hd (.inr (.inl rfl)) _ _ _ _ _
  | wrblkMore _ hs =>
    simp only [TraceFitsState, hs] at h
    obtain ⟨hdrum, -⟩ := h
    exact hdrum.append_operation hd (.inr (.inr rfl)) _ _ _ _ _
  | copyMore _ hs =>
    simp only [TraceFitsState, hs] at h
    exact h.append_hostEvents (event := .outByte) (fun _ _ => not_false) _ _
  | copyIn _ hs =>
    simp only [TraceFitsState, hs] at h
    exact h.append_hostEvents (event := .inByte) (fun _ _ => not_false) _ _
  | adv _ hs =>
    simp only [TraceFitsState, hs] at h
    exact advStep_traceFitsState h

/-- Settles O37: the word a state issues may come next, and the trace goes on to fit the FSM state. -/
theorem seekDisciplineKept : Obligations.SeekDisciplineKept := by
  intro s t hp h hstep
  have hd := Config.Params.distinct_of_wf hp
  have hrow := step_row hp hstep
  rw [seekInv_iff, parametersNeverChange s t hstep]
  exact ⟨disciplined_of_row hd h hrow, traceFitsState_of_row hd h.2 hrow⟩

/-! ## The words of a step -/

/-- A word of WRITE_BLOCK is issued in `WRBLK` only, so never while a read runs (R38, R102). -/
theorem not_writeBlock_of_read {s : State} {w : Word} (hinv : FsmInv s) (hc : s.cmd = .read) (hw : s.issuesWord w) :
    wordOpcode w ≠ s.params.opcWriteBlock := by
  obtain ⟨hp, a, -, hrun⟩ := hinv
  have hne := (opcodesDistinct_iff s.params).1 (Config.Params.distinct_of_wf hp)
  rcases (issuesWord_iff s w).1 hw with ⟨-, -, rfl⟩ | ⟨-, -, rfl⟩ | ⟨-, rfl⟩ | ⟨-, rfl⟩ | ⟨-, rfl⟩ | ⟨hs, -⟩
  · simp [hne]
  · simp [hne]
  · simp [hne]
  · simp [hne]
  · simp [hne]
  · simp [Running, hs, hc] at hrun

/-- Settles O41: a step adds no word or one that its state issues. -/
theorem wordsEmittedByState : Obligations.WordsEmittedByState := by
  intro s t hp hstep
  obtain ⟨quiet, hquiet, htrace | ⟨w, kind, data, status, hw, htrace⟩⟩ := traceGrows_of_row (step_row hp hstep)
  · have hwords : devWords t.trace = devWords s.trace := by simp [htrace, hquiet]
    exact ⟨.inl hwords, fun _ _ _ w h => by simp [hwords] at h⟩
  · have hwords : devWords t.trace = devWords s.trace ++ [w] := by simp [htrace, hquiet]
    refine ⟨.inr ⟨w, hwords, (issuesWord_iff s w).1 hw⟩, fun hinv hc _ w' h => ?_⟩
    obtain rfl : w = w' := by simpa [hwords] using h
    exact not_writeBlock_of_read hinv hc hw

/-! ## The stored bytes -/

/-- An operation, answered with 0 or not, changes no byte outside the block under the device cursor (R92 e, R153). -/
theorem operated_read_outside (s : State) (w : Word) (kind : BufKind) (op : DeviceOp) (status : Nat)
    (rest : List Answer) {a : Nat} (ha : a < s.dev.position ∨ s.dev.position + 256 ≤ a) :
    (s.operated w kind op status rest).dev.store.read a = s.dev.store.read a := by
  by_cases hop : op = .writeBlock
  · subst hop
    cases hf : statusFailed s.params status with
    | true =>
      rw [operated_dev_failed s w kind .writeBlock status rest hf]
      exact read_writeBlock_outside _ _ _ _ ha
    | false =>
      rw [operated_dev_ok s w kind .writeBlock status rest hf]
      exact read_writeBlock_outside _ _ _ _ ha
  · rw [operated_store s w kind op status rest hop]

/-- Settles O42: a step does one operation to the device or none, and only `WRBLK` does a WRITE_BLOCK. -/
theorem storeChangesOnlyAtWriteBlock : Obligations.StoreChangesOnlyAtWriteBlock := by
  intro s t hp hr hstep
  obtain hdev | ⟨w, kind, op, status, rest, hop, hdev⟩ := device_of_row hr (step_row hp hstep) <;> rw [hdev]
  · exact ⟨fun _ => rfl, fun _ _ => rfl⟩
  · exact ⟨fun hne => operated_store s w kind op status rest fun h => hne (hop h),
      fun a ha => operated_read_outside s w kind op status rest ha⟩

/-! ## The operations in the states that issue them: what is issued -/

/-- How `WRBLK` goes on after a WRITE_BLOCK answered with 0 (R147). -/
def State.afterWriteBlock (u : State) : State := if u.count = u.len then u.completeOk else { u with st := .adv }

theorem afterWriteBlock_done {u : State} (h : u.count = u.len) : u.afterWriteBlock = u.completeOk := if_pos h

theorem afterWriteBlock_more {u : State} (h : u.count ≠ u.len) : u.afterWriteBlock = { u with st := .adv } := if_neg h

/-- It leaves the device and everything outside the block alone. -/
theorem afterWriteBlock_frame (u : State) :
    u.afterWriteBlock.dev = u.dev ∧ u.afterWriteBlock.host = u.host ∧ u.afterWriteBlock.params = u.params ∧
      u.afterWriteBlock.resetLine = u.resetLine := by
  unfold State.afterWriteBlock
  split <;> exact ⟨rfl, rfl, rfl, rfl⟩

section issued
variable {s : State} (d : BitVec 4) (b : BitVec 8)

/-- MOUNT in `MNT` (R93). -/
theorem exec_mount (hs : s.st = .mnt) :
    exec .mount s = s.issue (encodeOperation s.params.opcMount 0 0) .noBuf fun _ t => t.completeOk := by
  simp [exec, execMount, hs]

/-- UNMOUNT in `MNT` (R94). -/
theorem exec_unmount (hs : s.st = .mnt) :
    exec .unmount s = s.issue (encodeOperation s.params.opcUnmount 0 0) .noBuf fun _ t => t.completeOk := by
  simp [exec, execUnmount, hs]

/-- SEEK_DRUM in `SEEKD` (R95). -/
theorem exec_seekDrum (hs : s.st = .seekD) :
    exec (.seekDrum d b) s =
      s.issue (encodeOperation s.params.opcSeekDrum d b) .noBuf fun _ t => { t with st := .seekB } := by
  simp [exec, execSeekDrum, hs]

/-- SEEK_BLOCK in `SEEKB` and `SEEKB2` (R96). -/
theorem exec_seekBlock {next : Fsm} (h : (s.st = .seekB ∧ next = .rdblk) ∨ (s.st = .seekB2 ∧ next = .wrblk)) :
    exec (.seekBlock d b) s =
      s.issue (encodeOperation s.params.opcSeekBlock d b) .noBuf fun _ t => { t with st := next } := by
  rcases h with ⟨hs, rfl⟩ | ⟨hs, rfl⟩ <;> simp [exec, execSeekBlock, hs]

/-- READ_BLOCK in `RDBLK` (R97). -/
theorem exec_readBlock (hs : s.st = .rdblk) :
    exec (.readBlock d b) s =
      s.issue (encodeOperation s.params.opcReadBlock d b) .fill fun data t => { t with buf := data, st := .copy } := by
  simp [exec, execReadBlock, hs]

/-- WRITE_BLOCK in `WRBLK` (R98). -/
theorem exec_writeBlock (hs : s.st = .wrblk) :
    exec (.writeBlock d b) s =
      s.issue (encodeOperation s.params.opcWriteBlock d b) .drain fun _ t => t.afterWriteBlock := by
  simp [exec, execWriteBlock, hs, State.afterWriteBlock]

end issued

/-! ## The operations in the states that issue them: what an answer brings about -/

section answered
variable {s : State} {status : Nat} {rest : List Answer}

/-- The block tests the status bits of the port (R91, D5). -/
theorem statusFailed_eq_false {p : Config.Params} (h : BitVec.ofNat p.statusW status = 0) :
    statusFailed p status = false :=
  decide_eq_false (not_not.2 h)

theorem statusFailed_eq_true {p : Config.Params} (h : BitVec.ofNat p.statusW status ≠ 0) :
    statusFailed p status = true :=
  decide_eq_true h

/-- The state after an operation answered with 0. -/
theorem operated_eq_of_ok (w : Word) (kind : BufKind) (op : DeviceOp) (hf : statusFailed s.params status = false) :
    s.operated w kind op status rest =
      { s with
        dev := { s.dev.succeed op w s.buf s.draws with answers := rest }
        trace := s.trace ++ [.devOp w kind (if kind = .drain then some s.buf else none) status]
        draws := s.draws + 1 } := by
  simp [State.operated, hf]

/-- The state after an operation answered with nonzero. -/
theorem operated_eq_of_failed (w : Word) (kind : BufKind) (op : DeviceOp) (hf : statusFailed s.params status = true) :
    s.operated w kind op status rest =
      { s with
        dev := { s.dev.fail op s.draws with answers := rest }
        trace := s.trace ++ [.devOp w kind (if kind = .drain then some s.buf else none) status]
        draws := s.draws + 1 } := by
  simp [State.operated, hf]

/-- Byte `offset` of the block under the device cursor, counted from its first (R41). -/
theorem linearAddress_eq_position_add (dev : Device) (offset : Nat) :
    linearAddress dev.drum dev.block offset = dev.position + offset := by
  simp [Device.position, linearAddress]

/-- `s` at the end of its command, after a device operation with no buffer: `t` gives the device and the values of the
registers that are unspecified from there on (R37, R166). -/
def State.endedAfter (s t : State) (dev : Device) (w : Word) (status : Nat) (code : Status) : State :=
  { s with
    st := .idle, status := code, cmd := t.cmd, len := t.len, drum := t.drum, block := t.block, count := t.count,
    idx := t.idx, buf := t.buf, draws := t.draws, dev := dev,
    trace := s.trace ++ [.devOp w .noBuf none status, .completion code] }

/-- R93, R94: the word of a MOUNT or UNMOUNT answered with 0 completes the command, the cursor and the store kept. -/
theorem issue_mountOperation_ok {w : Word} {op : DeviceOp} (ho : deviceOp s.params w = some op)
    (hop : op = .mount ∨ op = .unmount) (ha : s.dev.nextAnswer = some (status, rest))
    (hf : statusFailed s.params status = false) :
    ∃ t, s.issue w .noBuf (fun _ t => t.completeOk) = .next t ∧
      t = s.endedAfter t { s.dev with mounted := t.dev.mounted, answers := rest } w status .ok := by
  refine ⟨_, issue_ok _ ho ha hf, ?_⟩
  rw [operated_eq_of_ok w .noBuf op hf]
  rcases hop with rfl | rfl <;> simp [State.endedAfter, State.completeOk, State.finish,
    State.discardRegisters, Device.succeed]

/-- R162: the word of a MOUNT or UNMOUNT answered with nonzero ends the command with `DeviceFailure`, the store kept. -/
theorem issue_mountOperation_failed {w : Word} {op : DeviceOp} (go : Block → State → State)
    (ho : deviceOp s.params w = some op) (hop : op = .mount ∨ op = .unmount)
    (ha : s.dev.nextAnswer = some (status, rest)) (hf : statusFailed s.params status = true) :
    ∃ t, s.issue w .noBuf go = .next t ∧
      t = s.endedAfter t { t.dev with store := s.dev.store, answers := rest } w status .deviceFailure := by
  refine ⟨_, issue_failed go ho ha hf, ?_⟩
  rw [operated_eq_of_failed w .noBuf op hf]
  rcases hop with rfl | rfl <;> simp [State.endedAfter, State.raise, ErrorKind.status, State.finish,
    State.discardRegisters, Device.fail]

end answered

/-- Settles O15: both operations are an issue that completes the command, and differ in their word alone. -/
theorem mountOperations : Obligations.MountOperations := by
  intro s status rest hp hs ha
  have hmount := deviceOp_mount (p := s.params) 0 0
  have hunmount := deviceOp_unmount (Config.Params.distinct_of_wf hp) 0 0
  rw [exec_mount hs, exec_unmount hs]
  refine ⟨fun hok => ?_, fun hfail => ?_⟩
  · have hf := statusFailed_eq_false hok
    exact ⟨issue_mountOperation_ok hmount (.inl rfl) ha hf, issue_mountOperation_ok hunmount (.inr rfl) ha hf⟩
  · have hf := statusFailed_eq_true hfail
    exact ⟨issue_mountOperation_failed _ hmount (.inl rfl) ha hf,
      issue_mountOperation_failed _ hunmount (.inr rfl) ha hf⟩

/-- Settles O16: in `SEEKD` the step goes on to `SEEKB` with the device on the word's drum. -/
theorem seekDrumMovesDevice : Obligations.SeekDrumMovesDevice := by
  intro s d b status rest hp hs ha hok
  have hf := statusFailed_eq_false hok
  have hop := deviceOp_seekDrum (Config.Params.distinct_of_wf hp) d b
  refine ⟨_, (exec_seekDrum d b hs).trans (issue_ok _ hop ha hf), ?_⟩
  rw [operated_eq_of_ok _ _ _ hf]
  simp [Device.succeed]

/-- Settles O17: in `SEEKB` and `SEEKB2` alike the step goes on with the device on the word's block. -/
theorem seekBlockMovesDevice : Obligations.SeekBlockMovesDevice := by
  intro s d b status rest hp ha hok next hnext
  have hf := statusFailed_eq_false hok
  have hop := deviceOp_seekBlock (Config.Params.distinct_of_wf hp) d b
  refine ⟨_, (exec_seekBlock d b hnext).trans (issue_ok _ hop ha hf), ?_⟩
  rw [operated_eq_of_ok _ _ _ hf]
  simp [Device.succeed]

/-- Settles O18: in `RDBLK` the data that the gateway returns is the block under the device cursor. -/
theorem readBlockFillsBuffer : Obligations.ReadBlockFillsBuffer := by
  intro s d b status rest hp hs ha hok
  have hf := statusFailed_eq_false hok
  have hop := deviceOp_readBlock (Config.Params.distinct_of_wf hp) d b
  refine ⟨_, (exec_readBlock d b hs).trans (issue_ok _ hop ha hf), ?_, fun i hi => ?_⟩
  · rw [operated_eq_of_ok _ _ _ hf]
    simp [Device.succeed]
  · simp [linearAddress_eq_position_add]

/-- Settles O19: the store is the old one with `buf` written at the device's position, and `count` decides how the step
goes on. -/
theorem writeBlockStoresBuffer : Obligations.WriteBlockStoresBuffer := by
  intro s d b status rest hp hs ha hok
  have hf := statusFailed_eq_false hok
  have hop := deviceOp_writeBlock (Config.Params.distinct_of_wf hp) d b
  refine ⟨_, (exec_writeBlock d b hs).trans (issue_ok _ hop ha hf), ?_⟩
  obtain ⟨hdev, hhost, hparams, hreset⟩ := afterWriteBlock_frame
    (s.operated (encodeOperation s.params.opcWriteBlock d b) .drain .writeBlock status rest)
  rw [hdev, hhost, hparams, hreset, operated_eq_of_ok _ _ _ hf]
  refine ⟨fun a => read_writeBlock _ _ _ a, rfl, rfl, rfl, rfl, fun hmore => ?_, fun hdone => ?_⟩
  · rw [afterWriteBlock_more]
    · rfl
    · exact hmore
  · rw [afterWriteBlock_done]
    · simp
    · exact hdone

/-! ## The operations in the other states -/

/-- Settles O22: the arm of each operation answers in the states that issue it and refuses in every other. -/
theorem operationsOnlyFromTheirStates : Obligations.OperationsOnlyFromTheirStates := by
  intro s d b
  refine ⟨fun hs => ⟨?_, ?_⟩, fun hs => ?_, fun ⟨hB, hB2⟩ => ?_, fun hs => ?_, fun hs => ?_⟩
  · change execMount s = _
    unfold execMount
    split
    · contradiction
    · rfl
  · change execUnmount s = _
    unfold execUnmount
    split
    · contradiction
    · rfl
  · change execSeekDrum d b s = _
    unfold execSeekDrum
    split
    · contradiction
    · rfl
  · change execSeekBlock d b s = _
    unfold execSeekBlock
    split
    · contradiction
    · contradiction
    · rfl
  · change execReadBlock d b s = _
    unfold execReadBlock
    split
    · contradiction
    · rfl
  · change execWriteBlock d b s = _
    unfold execWriteBlock
    split
    · contradiction
    · rfl

end Sys2Proof.Machine

/-! The single steps of a range command (R121 to R123, R127 to R129, R133): what the accept step answers for each
address and length, what `COPY` of a read delivers, where `ADV` goes, and that a silent device holds the block. -/

namespace Sys2Proof.Machine

/-! ## The accept step -/

/-- CMD_READ in `IDLE` is its accept step (R120). -/
theorem exec_cmdRead {s : State} (addr len : Word) (hst : s.st = .idle) :
    exec (.cmdRead addr len) s = .next (s.acceptRange .read addr len) := by
  simp [exec, execCmdRead, State.busy, hst]

/-- CMD_WRITE in `IDLE` is its accept step (R140). -/
theorem exec_cmdWrite {s : State} (addr len : Word) (hst : s.st = .idle) :
    exec (.cmdWrite addr len) s = .next (s.acceptRange .write addr len) := by
  simp [exec, execCmdWrite, State.busy, hst]

section accept
variable (s : State) (c : Cmd) {addr len : Word}

/-- Length zero, whatever the address (R121, R141). -/
theorem acceptRange_of_zero (addr : Word) :
    s.acceptRange c addr 0 = ({ s with cmd := c, trace := s.trace ++ [.command c addr 0] } : State).completeOk := by
  simp [State.acceptRange]

/-- An address above the array (R122, R142). -/
theorem acceptRange_of_invalid (hlen : len ≠ 0) (hinvalid : Config.capacity ≤ addr.toNat) :
    s.acceptRange c addr len =
      ({ s with cmd := c, trace := s.trace ++ [.command c addr len] } : State).raise .invalidDrum := by
  simp only [State.acceptRange, if_neg hlen, decodeAddress_of_invalid addr hinvalid]

/-- A valid address decodes to its bits 19..16, 15..8 and 7..0 (R123). -/
theorem decodeAddress_eq_fields (hvalid : addr.toNat < Config.capacity) :
    decodeAddress addr = some (addr.extractLsb' 16 4, addr.extractLsb' 8 8, addr.extractLsb' 0 8) := by
  rw [Config.capacity] at hvalid
  rw [decodeAddress_eq_some_iff, linearAddress, toNat_field, toNat_field, toNat_field]
  omega

/-- A valid address (R123, R143). -/
theorem acceptRange_of_valid (hlen : len ≠ 0) (hvalid : addr.toNat < Config.capacity) :
    s.acceptRange c addr len = { s with
      cmd := c, len := len, drum := addr.extractLsb' 16 4, block := addr.extractLsb' 8 8,
      idx := (addr.extractLsb' 0 8).zeroExtend 9, count := 0, st := .seekD,
      trace := s.trace ++ [.command c addr len] } := by
  simp only [State.acceptRange, if_neg hlen, decodeAddress_eq_fields hvalid, State.loadCursor]

end accept

/-- Settles O11: the address has no bit above 19, so it decodes, to its own fields. -/
theorem rangeCommandsLoadCursor : Obligations.RangeCommandsLoadCursor := by
  intro s addr len hst hlen haddr
  have hvalid : addr.toNat < Config.capacity :=
    Nat.lt_of_not_le fun hinvalid => (highBits_ne_zero_iff addr).2 hinvalid haddr
  rw [exec_cmdRead addr len hst, exec_cmdWrite addr len hst, acceptRange_of_valid s .read hlen hvalid,
    acceptRange_of_valid s .write hlen hvalid]
  exact ⟨rfl, rfl⟩

/-- Where a command ends in its accept step: of what is specified from there on (R37), `status` and the trace alone have
changed. -/
theorem finish_in_acceptStep {s : State} (hst : s.st = .idle) (c : Cmd) (addr len : Word) (code : Status) :
    ∃ t, ({ s with cmd := c, trace := s.trace ++ [.command c addr len] } : State).finish code = t ∧
      t = { s with
        status := code, cmd := t.cmd, len := t.len, drum := t.drum, block := t.block, count := t.count,
        idx := t.idx, buf := t.buf, draws := t.draws,
        trace := s.trace ++ [.command c addr len, .completion code] } := by
  refine ⟨_, rfl, ?_⟩
  simp [State.finish, State.discardRegisters, hst]

/-- Settles O12: the length is tested first, and the command completes where it was accepted. -/
theorem zeroLengthCompletes : Obligations.ZeroLengthCompletes := by
  intro s addr hst
  rw [exec_cmdRead addr 0 hst, exec_cmdWrite addr 0 hst, acceptRange_of_zero, acceptRange_of_zero]
  simp only [Host.Outcome.next.injEq]
  exact ⟨finish_in_acceptStep hst .read addr 0 .ok, finish_in_acceptStep hst .write addr 0 .ok⟩

/-- Settles O13: an address with a bit above 19 lies past the array and does not decode. -/
theorem invalidDrumRaised : Obligations.InvalidDrumRaised := by
  intro s addr len hst hlen haddr
  have hinvalid := (highBits_ne_zero_iff addr).1 haddr
  rw [exec_cmdRead addr len hst, exec_cmdWrite addr len hst, acceptRange_of_invalid s .read hlen hinvalid,
    acceptRange_of_invalid s .write hlen hinvalid]
  simp only [Host.Outcome.next.injEq]
  exact ⟨finish_in_acceptStep hst .read addr len .invalidDrum,
    finish_in_acceptStep hst .write addr len .invalidDrum⟩

/-! ## A silent device -/

/-- The instruction that a state issues presents one word, of the six operations (R31, R102). -/
theorem exec_issued {s : State} {i : Instr} (hd : s.params.opcodesDistinct = true) (hi : s.issued = some i) :
    ∃ w kind op go, deviceOp s.params w = some op ∧ exec i s = s.issue w kind go := by
  cases hst : s.st with
  | idle | copy | adv => simp [State.issued, hst] at hi
  | mnt =>
    by_cases hc : s.cmd = .mount
    · obtain rfl : .mount = i := by simpa [State.issued, hst, hc] using hi
      exact ⟨_, _, _, _, deviceOp_mount 0 0, exec_mount hst⟩
    · obtain rfl : .unmount = i := by simpa [State.issued, hst, hc] using hi
      exact ⟨_, _, _, _, deviceOp_unmount hd 0 0, exec_unmount hst⟩
  | seekD =>
    obtain rfl : .seekDrum s.drum s.block = i := by simpa [State.issued, hst] using hi
    exact ⟨_, _, _, _, deviceOp_seekDrum hd _ _, exec_seekDrum _ _ hst⟩
  | seekB =>
    obtain rfl : .seekBlock s.drum s.block = i := by simpa [State.issued, hst] using hi
    exact ⟨_, _, _, _, deviceOp_seekBlock hd _ _, exec_seekBlock _ _ (.inl ⟨hst, rfl⟩)⟩
  | seekB2 =>
    obtain rfl : .seekBlock s.drum s.block = i := by simpa [State.issued, hst] using hi
    exact ⟨_, _, _, _, deviceOp_seekBlock hd _ _, exec_seekBlock _ _ (.inr ⟨hst, rfl⟩)⟩
  | rdblk =>
    obtain rfl : .readBlock s.drum s.block = i := by simpa [State.issued, hst] using hi
    exact ⟨_, _, _, _, deviceOp_readBlock hd _ _, exec_readBlock _ _ hst⟩
  | wrblk =>
    obtain rfl : .writeBlock s.drum s.block = i := by simpa [State.issued, hst] using hi
    exact ⟨_, _, _, _, deviceOp_writeBlock hd _ _, exec_writeBlock _ _ hst⟩

/-- A step to the same state is repeated for ever. -/
theorem runSteps_of_stuck {s : State} (h : step s = .next s) (k : Nat) : runSteps k s = .next s := by
  induction k with
  | zero => rfl
  | succ k ih => rw [runSteps, h]; exact ih

/-- Settles O21: the word presented is an operation, which the device leaves unanswered, so that the step comes back to
where it began. -/
theorem silentDeviceHangsBlock : Obligations.SilentDeviceHangsBlock := by
  intro s i hp hr hi hsilent
  obtain ⟨w, kind, op, go, hop, hexec⟩ := exec_issued (Config.Params.distinct_of_wf hp) hi
  have hstays : exec i s = .next s := hexec.trans (issue_silent go hop hsilent)
  exact ⟨hstays, runSteps_of_stuck ((step_of_issued hr hi).trans hstays)⟩

/-! ## The copy of a read -/

/-- One transaction per byte of a run of bytes, in order (R55). -/
theorem hostEvents_map_range (event : Word → Byte → Event) (count : Word) (n : Nat) (byte : Nat → Byte) :
    hostEvents event count ((List.range n).map byte) =
      (List.range n).map fun k => event (count + BitVec.ofNat 32 k) (byte k) := by
  apply List.ext_getElem <;> simp [hostEvents]

theorem copyOut_trace_eq (s : State) :
    s.copyOut.trace = s.trace ++ (List.range s.copyLength).map fun k =>
      .outByte (s.count + BitVec.ofNat 32 k) (byteAt s.buf (s.idx.toNat + k)) := by
  rw [copyOut_trace, State.outgoing, hostEvents_map_range]

/-- What each index of each buffer holds after the copy of a read (R127). -/
theorem copyOut_get (s : State) (name j : Nat) :
    s.copyOut.host.outs.get name j =
      if name = s.host.outName ∧ s.count.toNat ≤ j ∧ j < s.count.toNat + s.copyLength
      then some (byteAt s.buf (s.idx.toNat + (j - s.count.toNat)))
      else s.host.outs.get name j := by
  rw [copyOut_host, get_deliverTo, length_outgoing]
  by_cases hin : name = s.host.outName ∧ s.count.toNat ≤ j ∧ j < s.count.toNat + s.copyLength
  · rw [if_pos hin, if_pos hin]
    simp [State.outgoing, show j - s.count.toNat < s.copyLength by omega]
  · rw [if_neg hin, if_neg hin]

/-- Settles O23: the step is the copy and the test of `count` after it; the bytes and the transactions are the copy's
either way. -/
theorem copyOutDelivers : Obligations.CopyOutDelivers := by
  intro s n hr hst hc hidx hcount hn
  obtain rfl : n = s.copyLength := hn
  obtain ⟨hidx', hcount', -⟩ := bumpCursor_toNat hidx hcount
  have hdone : s.copyOut.count = s.copyOut.len ↔ s.count.toNat + s.copyLength = s.len.toNat := by
    rw [← BitVec.toNat_inj, ← hcount']
    rfl
  have hmoves : s.idx.toNat ≤ 255 → s.count.toNat < s.len.toNat → 1 ≤ s.copyLength := by
    rw [State.copyLength, blockSize_eq]
    omega
  refine ⟨_, (step_copy hr hst).trans (copyStep_read hidx hcount hc), ?_⟩
  by_cases hend : s.count.toNat + s.copyLength = s.len.toNat
  · rw [if_pos (hdone.2 hend)]
    exact ⟨copyOut_get s, rfl, rfl, rfl, fun hne => absurd hend hne,
      fun _ => ⟨rfl, rfl, by rw [completeOk_trace, copyOut_trace_eq]⟩, hmoves⟩
  · rw [if_neg (mt hdone.1 hend)]
    refine ⟨copyOut_get s, rfl, rfl, rfl, fun _ => ⟨?_, hidx', hcount'⟩, fun he => absurd he hend, hmoves⟩
    rw [← copyOut_trace_eq]
    rfl

/-! ## The cursor advance -/

/-- Settles O25: the three cases are the branches of `ADV`, in their order. -/
theorem advanceCursor : Obligations.AdvanceCursor := by
  intro s hr hst
  rw [step_adv hr hst, State.advStep]
  refine ⟨fun hb => ?_, fun hb hd => ?_, fun hb hd => ?_⟩
  · rw [if_pos hb]
  · rw [if_neg (not_not_intro hb), if_pos hd]
  · rw [if_neg (not_not_intro hb), if_neg (not_not_intro hd)]
    exact ⟨_, rfl, rfl, rfl, rfl, rfl, rfl, rfl⟩

/-! ## What a read delivers -/

/-- Settles O48: the big-step rule delivers the range over the ideal device, and the FSM's run ends where it ends. -/
theorem readResult : Obligations.ReadResult := by
  intro s addr len hp hr hst hideal hlen hvalid
  obtain ⟨t, hbig, hmoved, hread⟩ := bigRead_ideal ⟨hp, hr, hst, hideal⟩ hlen hvalid
  obtain ⟨hended, -⟩ := readIsItsBigStep s addr len hp hr hst
  obtain ⟨u, hexec, hreach, hidle⟩ := hended _ hbig
  refine ⟨u, _, hexec, hreach, hidle, rfl, fun name i => ?_, hread.store, hread.host⟩
  have hcount : addr.toNat + t.count.toNat = min (addr.toNat + len.toNat) (2 ^ 20) := hmoved.moved
  have hiff : i < t.count.toNat ↔ i < len.toNat ∧ addr.toNat + i < 2 ^ 20 := by omega
  rw [finish_host, hread.bytes]
  simp only [hiff]

end Sys2Proof.Machine

/-! The device operations of a range command (R131, R133, R149, R154). Over a device that answers, a big-step rule
presents the first of one list of words, and the whole list unless an operation fails; that list is computed from the
cursor. The shape of the trace, its length, and the bound on every run are read off it. -/

namespace Sys2Proof.Machine

/-! ## The words that a run presents -/

/-- From `s` on to the end of its command in `t` the words presented are the first of `ws`, over the ideal device all
of them, and no call was taken. -/
structure Presented (s : State) (ws : List Word) (t : State) : Prop where
  calls : t.host.calls = s.host.calls
  words : ∃ done, devWords t.trace = devWords s.trace ++ done ∧ done <+: ws ∧ (s.ideal → done = ws)

/-- The run from `s` ends, with these words presented. -/
def Run.Presents (s : State) (ws : List Word) (r : Run) : Prop := ∃ t, r = .ended t ∧ Presented s ws t

theorem ideal_responsive {s : State} (h : s.ideal) : s.responsive := by
  rw [State.responsive, show s.dev.answers = [] from h]
  exact List.not_mem_nil

/-- A command that ends where it stands presents no more words. -/
theorem presents_ended {s t : State} (hcalls : t.host.calls = s.host.calls)
    (hwords : devWords t.trace = devWords s.trace) : (Run.ended t).Presents s [] :=
  ⟨t, rfl, hcalls, [], by simp [hwords], List.prefix_refl _, fun _ => rfl⟩

/-- The words `new` presented on the way from `s` to `t`, before those of a run from `t`. -/
theorem Run.Presents.after {s t : State} {r : Run} {new ws : List Word} (h : r.Presents t ws)
    (hcalls : t.host.calls = s.host.calls) (hwords : devWords t.trace = devWords s.trace ++ new)
    (hideal : s.ideal → t.ideal) : r.Presents s (new ++ ws) := by
  obtain ⟨u, rfl, hucalls, done, hdone, hfirst, hall⟩ := h
  refine ⟨u, rfl, hucalls.trans hcalls, new ++ done, ?_, List.prefix_append_right_inj new |>.2 hfirst,
    fun hs => congrArg (new ++ ·) (hall (hideal hs))⟩
  rw [hdone, hwords, List.append_assoc]

/-- What changes neither the device nor the words of the trace takes no part in it. -/
theorem Run.Presents.before {s t : State} {r : Run} {ws : List Word} (h : r.Presents t ws)
    (hcalls : t.host.calls = s.host.calls) (hwords : devWords t.trace = devWords s.trace) (hdev : t.dev = s.dev) :
    r.Presents s ws :=
  h.after (new := []) hcalls (by simp [hwords]) fun hs => (congrArg Device.answers hdev).trans hs

/-- An operation over a device that answers: its word, and then the words of what comes after it, or none where it
failed (R162). -/
theorem presents_operate {s : State} {w : Word} {kind : BufKind} {op : DeviceOp} {next : State → Run} {ws : List Word}
    (hs : s.responsive) (ho : deviceOp s.params w = some op)
    (hn : ∀ t, AfterOperation s t → t.responsive → (next t).Presents t ws) :
    ((s.operate w kind).andThen next).Presents s (w :: ws) := by
  obtain ⟨status, rest, ha, hrest⟩ := nextAnswer_responsive hs
  have hideal (h : s.ideal) : (0, []) = (status, rest) := Option.some_inj.1 ((nextAnswer_ideal h).symm.trans ha)
  rcases operate_cases (kind := kind) ho with ⟨hnone, -⟩ | ⟨status', rest', ha', h⟩
  · cases hnone.symm.trans ha
  · cases ha'.symm.trans ha
    rcases h with ⟨hf, h⟩ | ⟨hf, h⟩
    · rw [h]
      refine ⟨_, rfl, rfl, [w], by simp, List.prefix_append [w] ws, fun hs => ?_⟩
      cases hideal hs
      simp at hf
    · rw [h]
      have hnext (t : State) (ht : AfterOperation s t) (hanswers : t.dev.answers = rest)
          (hwords : devWords t.trace = devWords s.trace ++ [w]) : (next t).Presents s (w :: ws) := by
        obtain ⟨-, -, -, -, hhost⟩ := ht.cursor_kept
        refine (hn t ht (by rwa [State.responsive, hanswers])).after (by rw [hhost]) hwords fun hs => ?_
        cases hideal hs
        exact hanswers
      split
      · exact hnext _ ⟨_, _, _, _, rfl⟩ rfl (by simp)
      · exact hnext _ ⟨_, _, _, _, rfl⟩ rfl (by simp)

/-! ## The words of a range, block by block -/

/-- The number of the cursor's block, `drum * 256 + block` (R131). -/
def State.linearBlock (s : State) : Nat := s.drum.toNat * 256 + s.block.toNat

/-- The word with the cursor in both fields is the word for the cursor's block (R99, R131). -/
theorem encodeOperation_cursor (s : State) (opcode : BitVec 6) :
    encodeOperation opcode s.drum s.block = blockWord opcode s.linearBlock := by
  have hb := s.block.isLt
  rw [blockWord, State.linearBlock, show (s.drum.toNat * 256 + s.block.toNat) / 256 = s.drum.toNat by omega,
    show (s.drum.toNat * 256 + s.block.toNat) % 256 = s.block.toNat by omega, BitVec.ofNat_toNat, BitVec.ofNat_toNat,
    BitVec.setWidth_eq, BitVec.setWidth_eq]

theorem linearAddress_eq_linearBlock (s : State) : linearAddress s.drum s.block 0 = s.linearBlock * 256 := by
  rw [linearAddress, State.linearBlock]
  omega

/-- The last block of a range, or of the array where the range runs past it (R131, R149). -/
def lastBlock (a l : Nat) : Nat := if a + l ≤ Config.capacity then (a + l - 1) / 256 else 4095

theorem blocksTouched_eq (a l : Nat) : blocksTouched a l = lastBlock a l - a / 256 + 1 := rfl

/-- The last block of a range that begins in the array is not before its first. -/
theorem first_le_lastBlock {a l : Nat} (hl : 1 ≤ l) (ha : a < Config.capacity) : a / 256 ≤ lastBlock a l := by
  rw [Config.capacity] at ha
  rw [lastBlock]
  split <;> omega

theorem lastBlock_le (a l : Nat) : lastBlock a l ≤ 4095 := by
  rw [lastBlock, Config.capacity]
  split <;> omega

/-- The words of a read for one block (R131). -/
def readBlockWords (p : Config.Params) (B : Nat) : List Word := [blockWord p.opcSeekBlock B, blockWord p.opcReadBlock B]

/-- The words of a write for one block (R149). -/
def writeBlockWords (p : Config.Params) (B : Nat) : List Word :=
  [blockWord p.opcSeekBlock B, blockWord p.opcReadBlock B, blockWord p.opcSeekBlock B, blockWord p.opcWriteBlock B]

/-- The words of a range command over `n` blocks from `B0` on: what `readWords` and `writeWords` have in common. -/
def commandWords (p : Config.Params) (perBlock : Nat → List Word) (B0 n : Nat) : List Word :=
  blockWord p.opcSeekDrum B0 :: blockWords p perBlock B0 n

theorem readWords_eq (p : Config.Params) (B0 n : Nat) :
    readWords p B0 n = commandWords p (readBlockWords p) B0 n := rfl

theorem writeWords_eq (p : Config.Params) (B0 n : Nat) :
    writeWords p B0 n = commandWords p (writeBlockWords p) B0 n := rfl

/-- The words for the `n` blocks after block `B`. -/
def wordsAfter (p : Config.Params) (perBlock : Nat → List Word) (B n : Nat) : List Word :=
  (List.range n).flatMap fun k =>
    (if (B + 1 + k) % 256 = 0 then [blockWord p.opcSeekDrum (B + 1 + k)] else []) ++ perBlock (B + 1 + k)

section words
variable (p : Config.Params) (perBlock : Nat → List Word) (B n : Nat)

theorem blockWords_succ : blockWords p perBlock B (n + 1) = perBlock B ++ wordsAfter p perBlock B n := by
  rw [blockWords, wordsAfter, List.range_succ_eq_map]
  simp [List.flatMap_map, Nat.add_assoc, Nat.add_comm 1]

theorem wordsAfter_zero : wordsAfter p perBlock B 0 = [] := rfl

/-- The next block has a SEEK_DRUM of its own if it begins a drum (R131). -/
theorem wordsAfter_succ :
    wordsAfter p perBlock B (n + 1) =
      (if (B + 1) % 256 = 0 then [blockWord p.opcSeekDrum (B + 1)] else []) ++
        blockWords p perBlock (B + 1) (n + 1) := by
  rw [blockWords_succ, wordsAfter, wordsAfter, List.range_succ_eq_map]
  simp [List.flatMap_map, Nat.add_comm, Nat.add_left_comm]

variable {perBlock}

/-- The blocks after `B` have their own words, and as many SEEK_DRUMs as drums begin there. -/
theorem length_wordsAfter {m : Nat} (hm : ∀ B, (perBlock B).length = m) :
    (wordsAfter p perBlock B n).length = m * n + ((B + n) / 256 - B / 256) := by
  induction n with
  | zero => simp [wordsAfter_zero]
  | succ n ih =>
    have hsucc : (wordsAfter p perBlock B (n + 1)).length =
        (wordsAfter p perBlock B n).length + ((if (B + 1 + n) % 256 = 0 then 1 else 0) + m) := by
      rw [wordsAfter, List.range_succ, List.flatMap_append, ← wordsAfter, List.length_append]
      simp [hm, apply_ite List.length]
    rw [hsucc, ih, Nat.mul_succ]
    split <;> omega

/-- R131, R149: one SEEK_DRUM, the words of each block, and one more SEEK_DRUM per drum rollover. -/
theorem length_commandWords {m : Nat} (hm : ∀ B, (perBlock B).length = m) :
    (commandWords p perBlock B (n + 1)).length = 1 + m * (n + 1) + ((B + n) / 256 - B / 256) := by
  rw [commandWords, List.length_cons, blockWords_succ, List.length_append, hm, length_wordsAfter p B n hm, Nat.mul_succ]
  omega

/-- `1 + m * N + V` device operations, with `N` blocks touched and `V` drum rollovers between the first block and the
last (R131, R149). -/
theorem length_commandWords_range {m : Nat} (hm : ∀ B, (perBlock B).length = m) {a l : Nat} (hl : 1 ≤ l)
    (ha : a < Config.capacity) :
    (commandWords p perBlock (a / 256) (blocksTouched a l)).length =
      1 + m * (lastBlock a l - a / 256 + 1) + (lastBlock a l / 256 - a / 256 / 256) := by
  rw [blocksTouched_eq, length_commandWords p _ _ hm, Nat.add_sub_cancel' (first_le_lastBlock hl ha)]

end words

/-! ## The loop of a range command over a device that answers -/

/-- What holds of a range command `c` over `len` bytes from address `a` within its loop over a device that answers: the
cursor stands at `a + count` (R38). -/
structure RangeLoop (p : Config.Params) (c : Cmd) (a : Nat) (len : Word) (turns : Nat) (s : State) : Prop
    extends LoopInv c turns s where
  params : s.params = p
  responsive : s.responsive
  cursor : CursorAt a s
  range : s.len = len

/-- What holds besides at the beginning of a turn: there are bytes to move, in the block and in the range (R38 I1). -/
structure TurnBegins (p : Config.Params) (c : Cmd) (a : Nat) (len : Word) (turns : Nat) (s : State) : Prop
    extends RangeLoop p c a len turns s where
  inBlock : s.idx.toNat ≤ 255
  inRange : s.count.toNat < len.toNat

/-- What holds besides at its end: bytes were moved, to the end of the block or of the range (R38 I2). -/
structure TurnMoved (p : Config.Params) (c : Cmd) (a : Nat) (len : Word) (turns : Nat) (s : State) : Prop
    extends RangeLoop p c a len turns s where
  moved : 1 ≤ s.idx.toNat
  atEnd : s.idx.toNat = 256 ∨ s.count = s.len

/-- From the beginning of a turn the loop presents the words of the blocks from the cursor's to the last. -/
def PresentsRest (p : Config.Params) (c : Cmd) (a : Nat) (len : Word) (perBlock : Nat → List Word) (turns : Nat)
    (loop : State → Run) : Prop :=
  ∀ t, TurnBegins p c a len turns t →
    (loop t).Presents t (blockWords p perBlock t.linearBlock (lastBlock a len.toNat - t.linearBlock + 1))

section loop
variable {p : Config.Params} {c : Cmd} {a : Nat} {len : Word} {turns : Nat} {s t u : State} {next : State → Run}
  {ws : List Word} {perBlock : Nat → List Word}

theorem AfterOperation.trans (h : AfterOperation s t) (h' : AfterOperation t u) : AfterOperation s u := by
  obtain ⟨_, _, _, _, rfl⟩ := h
  obtain ⟨_, _, _, _, rfl⟩ := h'
  exact ⟨_, _, _, _, rfl⟩

theorem RangeLoop.afterOperation (h : RangeLoop p c a len turns s) (ht : AfterOperation s t) (hresp : t.responsive) :
    RangeLoop p c a len turns t := by
  have hloop := h.toLoopInv.afterOperation ht
  obtain ⟨_, _, _, _, rfl⟩ := ht
  exact ⟨hloop, h.params, hresp, h.cursor, h.range⟩

theorem TurnBegins.afterOperation (h : TurnBegins p c a len turns s) (ht : AfterOperation s t) (hresp : t.responsive) :
    TurnBegins p c a len turns t := by
  have hloop := h.toRangeLoop.afterOperation ht hresp
  obtain ⟨_, _, _, _, rfl⟩ := ht
  exact ⟨hloop, h.inBlock, h.inRange⟩

theorem TurnMoved.afterOperation (h : TurnMoved p c a len turns s) (ht : AfterOperation s t) (hresp : t.responsive) :
    TurnMoved p c a len turns t := by
  have hloop := h.toRangeLoop.afterOperation ht hresp
  obtain ⟨_, _, _, _, rfl⟩ := ht
  exact ⟨hloop, h.moved, h.atEnd⟩

/-- The copy takes a turn to its end, and moves at least one byte (R127, R145, R38 I5). -/
theorem TurnBegins.bumpCursor (h : TurnBegins p c a len turns s) : TurnMoved p c a len turns s.bumpCursor := by
  obtain ⟨hidx, -, -, -, hend⟩ := bumpCursor_toNat h.idx_le h.count_le
  have hcursor := bumpCursor_cursorAt h.idx_le h.count_le h.cursor
  refine ⟨⟨h.toLoopInv.bumpCursor, h.params, h.responsive, hcursor, h.range⟩, ?_, hend⟩
  have hcount := h.inRange
  have hblock := h.inBlock
  rw [hidx, State.copyLength, blockSize_eq, h.range]
  omega

theorem TurnBegins.copyOut (h : TurnBegins p c a len turns s) : TurnMoved p c a len turns s.copyOut :=
  have ⟨⟨_, hparams, hresp, hcursor, hrange⟩, hmoved, hend⟩ := h.bumpCursor
  ⟨⟨h.toLoopInv.copyOut, hparams, hresp, hcursor, hrange⟩, hmoved, hend⟩

theorem TurnBegins.copyIn (h : TurnBegins p c a len turns s) : TurnMoved p c a len turns s.copyIn :=
  h.bumpCursor.afterOperation ⟨_, _, _, _, rfl⟩ h.responsive

/-- The cursor's block and `idx` give the position in the range (R38). -/
theorem RangeLoop.position (h : RangeLoop p c a len turns s) :
    s.linearBlock * 256 + s.idx.toNat = a + s.count.toNat := by
  rw [← linearAddress_eq_linearBlock]
  exact h.cursor

/-- An operation with the cursor in both fields (R99). -/
theorem RangeLoop.presents_operation (h : RangeLoop p c a len turns s) {opcode : BitVec 6} {kind : BufKind}
    {op : DeviceOp} (ho : deviceOp s.params (encodeOperation opcode s.drum s.block) = some op)
    (hn : ∀ t, RangeLoop p c a len turns t → AfterOperation s t → (next t).Presents t ws) :
    ((s.operate (encodeOperation opcode s.drum s.block) kind).andThen next).Presents s
      (blockWord opcode s.linearBlock :: ws) := by
  rw [← encodeOperation_cursor]
  exact presents_operate h.responsive ho fun t ht hresp => hn t (h.afterOperation ht hresp) ht

theorem RangeLoop.presents_seekDrum (h : RangeLoop p c a len turns s)
    (hn : ∀ t, RangeLoop p c a len turns t → AfterOperation s t → (next t).Presents t ws) :
    (s.operateSeekDrum.andThen next).Presents s (blockWord p.opcSeekDrum s.linearBlock :: ws) := by
  rw [← h.params]
  exact h.presents_operation (deviceOp_seekDrum h.distinct _ _) hn

theorem RangeLoop.presents_seekBlock (h : RangeLoop p c a len turns s)
    (hn : ∀ t, RangeLoop p c a len turns t → AfterOperation s t → (next t).Presents t ws) :
    (s.operateSeekBlock.andThen next).Presents s (blockWord p.opcSeekBlock s.linearBlock :: ws) := by
  rw [← h.params]
  exact h.presents_operation (deviceOp_seekBlock h.distinct _ _) hn

theorem RangeLoop.presents_readBlock (h : RangeLoop p c a len turns s)
    (hn : ∀ t, RangeLoop p c a len turns t → AfterOperation s t → (next t).Presents t ws) :
    (s.operateReadBlock.andThen next).Presents s (blockWord p.opcReadBlock s.linearBlock :: ws) := by
  rw [← h.params]
  exact h.presents_operation (deviceOp_readBlock h.distinct _ _) hn

theorem RangeLoop.presents_writeBlock (h : RangeLoop p c a len turns s)
    (hn : ∀ t, RangeLoop p c a len turns t → AfterOperation s t → (next t).Presents t ws) :
    (s.operateWriteBlock.andThen next).Presents s (blockWord p.opcWriteBlock s.linearBlock :: ws) := by
  rw [← h.params]
  exact h.presents_operation (deviceOp_writeBlock h.distinct _ _) hn

theorem AfterOperation.linearBlock (h : AfterOperation s t) : t.linearBlock = s.linearBlock := by
  obtain ⟨_, _, _, _, rfl⟩ := h
  rfl

/-! ## The end of a turn -/

theorem lastBlock_of_end {B i l : Nat} (hB : B < 4096) (hi : 1 ≤ i) (hi' : i ≤ 256) (h : B * 256 + i = a + l) :
    lastBlock a l = B := by
  rw [lastBlock, if_pos (by rw [Config.capacity]; omega)]
  omega

/-- While bytes are left beyond block `B`, the words after it are those of the next block and of the blocks after that. -/
theorem wordsAfter_of_more {B l : Nat} (hB : B < 4095) (h : B * 256 + 256 < a + l) :
    wordsAfter p perBlock B (lastBlock a l - B) =
      (if (B + 1) % 256 = 0 then [blockWord p.opcSeekDrum (B + 1)] else []) ++
        blockWords p perBlock (B + 1) (lastBlock a l - (B + 1) + 1) := by
  have hlt : B < lastBlock a l := by
    rw [lastBlock]
    split <;> omega
  rw [← wordsAfter_succ, show lastBlock a l - (B + 1) + 1 = lastBlock a l - B by omega]

/-- The next block of the drum (R129). -/
theorem RangeLoop.nextBlock (h : RangeLoop p c a len (turns + 1) s) (hidx : s.idx.toNat = 256)
    (hcount : s.count.toNat < len.toNat) (hb : s.block ≠ 255) :
    TurnBegins p c a len turns { s with block := s.block + 1, idx := 0 } :=
  ⟨⟨h.toLoopInv.nextBlock hb, h.params, h.responsive,
    h.cursor.next hidx (linearAddress_nextBlock hb) rfl rfl, h.range⟩, Nat.zero_le _, hcount⟩

/-- The first block of the next drum (R129). -/
theorem RangeLoop.nextDrum (h : RangeLoop p c a len (turns + 1) s) (hidx : s.idx.toNat = 256)
    (hcount : s.count.toNat < len.toNat) (hb : s.block = 255) (hd : s.drum ≠ 15) :
    TurnBegins p c a len turns { s with block := 0, drum := s.drum + 1, idx := 0 } :=
  ⟨⟨h.toLoopInv.nextDrum hb hd, h.params, h.responsive,
    h.cursor.next hidx (by rw [hb]; exact linearAddress_nextDrum hd) rfl rfl, h.range⟩, Nat.zero_le _, hcount⟩

/-- The big-step rule clears `idx` after the SEEK_DRUM of a later drum (R130): no operation reads it. -/
theorem AfterOperation.clearIdx (h : AfterOperation s t) : AfterOperation { s with idx := 0 } { t with idx := 0 } := by
  obtain ⟨_, _, _, _, rfl⟩ := h
  exact ⟨_, _, _, _, rfl⟩

/-- The block the cursor moves on to is the next in the array. -/
theorem linearBlock_next (h : linearAddress t.drum t.block 0 = linearAddress s.drum s.block 0 + 256) :
    t.linearBlock = s.linearBlock + 1 := by
  rw [linearAddress_eq_linearBlock, linearAddress_eq_linearBlock] at h
  omega

/-- The advance within a drum presents no word of its own. -/
theorem RangeLoop.presents_nextBlock (h : RangeLoop p c a len (turns + 1) s) (hidx : s.idx.toNat = 256)
    (hcount : s.count.toNat < len.toNat) (hb : s.block ≠ 255) {again : State → Run}
    (hagain : PresentsRest p c a len perBlock turns again) :
    (again { s with block := s.block + 1, idx := 0 }).Presents s
      (blockWords p perBlock (s.linearBlock + 1) (lastBlock a len.toNat - (s.linearBlock + 1) + 1)) := by
  have hnext : ({ s with block := s.block + 1, idx := 0 } : State).linearBlock = s.linearBlock + 1 :=
    linearBlock_next (linearAddress_nextBlock hb)
  rw [← hnext]
  exact (hagain _ (h.nextBlock hidx hcount hb)).before rfl rfl rfl

/-- The advance to the next drum presents its SEEK_DRUM. -/
theorem RangeLoop.presents_nextDrum (h : RangeLoop p c a len (turns + 1) s) (hidx : s.idx.toNat = 256)
    (hcount : s.count.toNat < len.toNat) (hb : s.block = 255) (hd : s.drum ≠ 15) {again : State → Run}
    (hagain : PresentsRest p c a len perBlock turns again) :
    (({ s with block := 0, drum := s.drum + 1 } : State).operateSeekDrum.andThen fun t =>
      again { t with idx := 0 }).Presents s
      (blockWord p.opcSeekDrum (s.linearBlock + 1) ::
        blockWords p perBlock (s.linearBlock + 1) (lastBlock a len.toNat - (s.linearBlock + 1) + 1)) := by
  have hturn := h.nextDrum hidx hcount hb hd
  have hnext : ({ s with block := 0, drum := s.drum + 1 } : State).linearBlock = s.linearBlock + 1 :=
    linearBlock_next (by rw [hb]; exact linearAddress_nextDrum hd)
  obtain rfl := h.params
  rw [← hnext, ← encodeOperation_cursor]
  refine Run.Presents.before (t := { s with block := 0, drum := s.drum + 1 }) ?_ rfl rfl rfl
  refine presents_operate (s := { s with block := 0, drum := s.drum + 1 }) h.responsive
    (deviceOp_seekDrum h.distinct _ _) fun t ht hresp => ?_
  have hrest := hagain _ (hturn.afterOperation ht.clearIdx hresp)
  rw [ht.clearIdx.linearBlock] at hrest
  exact hrest.before rfl rfl rfl

/-- The advance from the end of a block: to the next block, with a SEEK_DRUM where that begins a drum, or past the last
drum to the end of the command (R129). -/
theorem RangeLoop.presents_advance (h : RangeLoop p c a len (turns + 1) s) (hidx : s.idx.toNat = 256)
    (hcount : s.count.toNat < len.toNat) {again : State → Run}
    (hagain : PresentsRest p c a len perBlock turns again) :
    (s.operateAdvance again).Presents s
      (wordsAfter p perBlock s.linearBlock (lastBlock a len.toNat - s.linearBlock)) := by
  have hblock : s.linearBlock = s.drum.toNat * 256 + s.block.toNat := rfl
  have hdrum := s.drum.isLt
  have hmore : s.linearBlock * 256 + 256 < a + len.toNat := by
    have hpos := h.position
    omega
  rw [State.operateAdvance]
  by_cases hb : s.block = 255
  · have hlast : s.block.toNat = 255 := by rw [hb]; rfl
    rw [if_neg (not_not_intro hb)]
    by_cases hd : s.drum = 15
    · have hnone : lastBlock a len.toNat - s.linearBlock = 0 := by
        rw [hblock, hlast, hd]
        exact Nat.sub_eq_zero_of_le (lastBlock_le a len.toNat)
      rw [if_neg (not_not_intro hd), hnone]
      exact presents_ended rfl (by simp)
    · have hdrum' : s.drum.toNat < 15 := by bv_omega
      rw [if_pos hd, wordsAfter_of_more (by omega) hmore, if_pos (by omega)]
      exact h.presents_nextDrum hidx hcount hb hd hagain
  · have hblock' : s.block.toNat < 255 := by bv_omega
    rw [if_pos hb, wordsAfter_of_more (by omega) hmore, if_neg (by omega)]
    exact h.presents_nextBlock hidx hcount hb hagain

/-- The end of a turn, with the test for the end of the range before the advance (R128, R147). -/
theorem TurnMoved.presents_endOfTurn (h : TurnMoved p c a len (turns + 1) s) {again : State → Run}
    (hagain : PresentsRest p c a len perBlock turns again) :
    (if s.count = s.len then .ended s.completeOk else s.operateAdvance again : Run).Presents s
      (wordsAfter p perBlock s.linearBlock (lastBlock a len.toNat - s.linearBlock)) := by
  by_cases hc : s.count = s.len
  · have hpos := h.position
    rw [hc, h.range] at hpos
    have hlast : lastBlock a len.toNat = s.linearBlock :=
      lastBlock_of_end (linear_lt s.drum s.block) h.moved h.idx_le hpos
    rw [if_pos hc, hlast, Nat.sub_self]
    exact presents_ended rfl (by simp)
  · have hlt : s.count.toNat < s.len.toNat :=
      Nat.lt_of_le_of_ne h.count_le fun he => hc (BitVec.toNat_inj.1 he)
    rw [if_neg hc]
    exact h.presents_advance (h.atEnd.resolve_right hc) (h.range ▸ hlt) hagain

end loop

/-! ## The loops -/

section loops
variable {p : Config.Params} {c : Cmd} {a : Nat} {len : Word} {turns : Nat} {s : State}

/-- The block of the cursor sought and read: the first words of a turn of either loop (R130, R148). -/
theorem TurnBegins.presents_fetchBlock (h : TurnBegins p c a len turns s) {next : State → Run} {ws : List Word}
    (hn : ∀ t, TurnBegins p c a len turns t → t.linearBlock = s.linearBlock → (next t).Presents t ws) :
    (s.operateSeekBlock.andThen fun u => u.operateReadBlock.andThen next).Presents s
      (readBlockWords p s.linearBlock ++ ws) := by
  refine h.presents_seekBlock fun u hu hsu => hsu.linearBlock ▸ hu.presents_readBlock fun t ht hut => ?_
  exact hn t (h.afterOperation (hsu.trans hut) ht.responsive) (hsu.trans hut).linearBlock

/-- The loop of CMD_READ (R130): the words of the block, and then those of the blocks after it. -/
theorem readLoop_presents (turns : Nat) : PresentsRest p .read a len (readBlockWords p) turns (readLoop turns) := by
  induction turns with
  | zero => exact fun s h => absurd h.turns_pos (Nat.lt_irrefl 0)
  | succ turns ih =>
    intro s h
    rw [blockWords_succ]
    exact h.presents_fetchBlock fun t ht hblock =>
      hblock ▸ (ht.copyOut.presents_endOfTurn ih).before rfl (by simp) rfl

/-- The block of the cursor sought again and written back, and the end of the turn (R146, R148). -/
theorem TurnMoved.presents_writeBack (h : TurnMoved p c a len (turns + 1) s) {perBlock : Nat → List Word}
    {again : State → Run} (hagain : PresentsRest p c a len perBlock turns again) :
    (s.operateSeekBlock.andThen fun u => u.operateWriteBlock.andThen fun t =>
      if t.count = t.len then .ended t.completeOk else t.operateAdvance again : Run).Presents s
      (blockWord p.opcSeekBlock s.linearBlock :: blockWord p.opcWriteBlock s.linearBlock ::
        wordsAfter p perBlock s.linearBlock (lastBlock a len.toNat - s.linearBlock)) := by
  refine h.presents_seekBlock fun u hu hsu => hsu.linearBlock ▸ hu.presents_writeBlock fun t ht hut => ?_
  exact hut.linearBlock ▸ (h.afterOperation (hsu.trans hut) ht.responsive).presents_endOfTurn hagain

/-- The loop of CMD_WRITE (R148): the block is sought again and written back before the turn ends. -/
theorem writeLoop_presents (turns : Nat) : PresentsRest p .write a len (writeBlockWords p) turns (writeLoop turns) := by
  induction turns with
  | zero => exact fun s h => absurd h.turns_pos (Nat.lt_irrefl 0)
  | succ turns ih =>
    intro s h
    rw [blockWords_succ]
    exact h.presents_fetchBlock fun t ht hblock => hblock ▸ (ht.copyIn.presents_writeBack ih).before rfl (by simp) rfl

end loops

/-! ## The range commands -/

section command
variable {s : State} {c : Cmd} {addr len : Word} {loop : State → Run} {perBlock : Nat → List Word}

/-- An accepted range begins its first turn with nothing moved (R123). -/
theorem acceptRange_turnBegins (hc : c = .read ∨ c = .write) (hp : s.params.wf = true) (hr : s.resetLine = false)
    (hresp : s.responsive) (hlen : len ≠ 0) (hvalid : addr.toNat < Config.capacity) :
    TurnBegins s.params c addr.toNat len 4096 (s.acceptRange c addr len) := by
  have haccept := acceptRange_of_valid s c hlen hvalid
  have hloop := (loopInv_loadCursor (s := { s with cmd := c, trace := s.trace ++ [.command c addr len] }) c
    (addr.extractLsb' 16 4) (addr.extractLsb' 8 8) (addr.extractLsb' 0 8) len hp hr rfl).atFsm .seekD
  obtain ⟨-, hcount, hidx, hcursor, -⟩ := (acceptRange_running hc haccept (by simp)).1
  rw [haccept]
  exact ⟨⟨hloop, rfl, hresp, hcursor, rfl⟩, hidx, hcount⟩

/-- A range command that loads the cursor is its first SEEK_DRUM and its loop (R130, R148). -/
theorem bigRange_of_valid (hlen : len ≠ 0) (hvalid : addr.toNat < Config.capacity) :
    s.bigRange c addr len loop = (s.acceptRange c addr len).operateSeekDrum.andThen loop := by
  rw [acceptRange_of_valid s c hlen hvalid]
  simp only [State.bigRange, if_neg hlen, decodeAddress_eq_fields hvalid, State.loadCursor]

/-- R131, R149: the first SEEK_DRUM, and the words of the blocks of the range. -/
theorem bigRange_presents (hc : c = .read ∨ c = .write) (hp : s.params.wf = true) (hr : s.resetLine = false)
    (hresp : s.responsive) (hlen : len ≠ 0) (hvalid : addr.toNat < Config.capacity)
    (hloop : PresentsRest s.params c addr.toNat len perBlock 4096 loop) :
    (s.bigRange c addr len loop).Presents s
      (commandWords s.params perBlock (addr.toNat / 256) (blocksTouched addr.toNat len.toNat)) := by
  have hturn := acceptRange_turnBegins hc hp hr hresp hlen hvalid
  have haccept := acceptRange_of_valid s c hlen hvalid
  have hblock : (s.acceptRange c addr len).linearBlock = addr.toNat / 256 := by
    have hpos := hturn.position
    have hidx := hturn.inBlock
    rw [show (s.acceptRange c addr len).count = 0 by rw [haccept], show BitVec.toNat (0 : Word) = 0 from rfl] at hpos
    omega
  have hrun := hturn.presents_seekDrum (next := loop) fun t ht hafter =>
    hafter.linearBlock ▸ hloop t (hturn.afterOperation hafter ht.responsive)
  rw [hblock] at hrun
  rw [bigRange_of_valid hlen hvalid]
  exact hrun.before (by simp) (by simp [haccept]) (by simp)

/-- A range command that ends in its accept step presents no word (R121, R122). -/
theorem bigRange_presents_nothing (h : len = 0 ∨ Config.capacity ≤ addr.toNat) :
    (s.bigRange c addr len loop).Presents s [] := by
  by_cases hlen : len = 0
  · simp only [State.bigRange, if_pos hlen]
    exact presents_ended rfl (by simp)
  · simp only [State.bigRange, if_neg hlen, decodeAddress_of_invalid addr (h.resolve_left hlen)]
    exact presents_ended rfl (by simp)

/-- R133, R154: whatever the address and the length, the words are bounded by those of the whole array, a SEEK_DRUM for
each of its drums and `m` words for each of its blocks. -/
theorem bigRange_presents_bounded {m : Nat} (hm : ∀ B, (perBlock B).length = m) (hc : c = .read ∨ c = .write)
    (hp : s.params.wf = true) (hr : s.resetLine = false) (hresp : s.responsive)
    (hloop : PresentsRest s.params c addr.toNat len perBlock 4096 loop) :
    ∃ ws, (s.bigRange c addr len loop).Presents s ws ∧ ws.length ≤ 16 + m * 4096 := by
  by_cases h : len = 0 ∨ Config.capacity ≤ addr.toNat
  · exact ⟨[], bigRange_presents_nothing h, Nat.zero_le _⟩
  · obtain ⟨hlen, hvalid⟩ := not_or.1 h
    have hvalid' := Nat.lt_of_not_le hvalid
    have hlast := lastBlock_le addr.toNat len.toNat
    have hblocks : m * (lastBlock addr.toNat len.toNat - addr.toNat / 256 + 1) ≤ m * 4096 :=
      Nat.mul_le_mul_left m (by omega)
    refine ⟨_, bigRange_presents hc hp hr hresp hlen hvalid' hloop, ?_⟩
    rw [length_commandWords_range s.params hm (by bv_omega) hvalid']
    omega

end command

/-! ## The FSM's runs -/

/-- Where the FSM's run is its big-step rule (R10), it presents the rule's words. -/
theorem Run.Presents.reaches {i : Instr} {s : State} {r : Run} {ws : List Word} (h : r.Presents s ws)
    (hended : ∀ t, r = .ended t → ∃ u, exec i s = .next u ∧ Reaches u t ∧ t.st = .idle) :
    ∃ u t, exec i s = .next u ∧ Reaches u t ∧ t.st = .idle ∧ Presented s ws t := by
  obtain ⟨t, hr, ht⟩ := h
  obtain ⟨u, hexec, hreach, hidle⟩ := hended t hr
  exact ⟨u, t, hexec, hreach, hidle, ht⟩

theorem Presented.words_of_ideal {s t : State} {ws : List Word} (h : Presented s ws t) (hs : s.ideal) :
    devWords t.trace = devWords s.trace ++ ws := by
  obtain ⟨done, hdone, -, hall⟩ := h.words
  rw [hdone, hall hs]

theorem Presented.length_le {s t : State} {ws : List Word} (h : Presented s ws t) :
    (devWords t.trace).length ≤ (devWords s.trace).length + ws.length := by
  obtain ⟨done, hdone, hfirst, -⟩ := h.words
  rw [hdone, List.length_append]
  exact Nat.add_le_add_left hfirst.length_le _

/-- Settles O47: both rules end over a device that answers, within the words of the whole array. -/
theorem rangeCommandsTerminate : Obligations.RangeCommandsTerminate := by
  intro s addr len hp hr hst hresp
  obtain ⟨rs, hread, hreadLength⟩ := bigRange_presents_bounded (s := s) (addr := addr) (len := len) (m := 2)
    (fun _ => rfl) (.inl rfl) hp hr hresp (readLoop_presents 4096)
  obtain ⟨ws, hwrite, hwriteLength⟩ := bigRange_presents_bounded (s := s) (addr := addr) (len := len) (m := 4)
    (fun _ => rfl) (.inr rfl) hp hr hresp (writeLoop_presents 4096)
  obtain ⟨u, t, hu, hut, ht, hwords⟩ := hread.reaches (readIsItsBigStep s addr len hp hr hst).1
  obtain ⟨v, w, hv, hvw, hw, hwords'⟩ := hwrite.reaches (writeIsItsBigStep s addr len hp hr hst).1
  exact ⟨⟨u, t, hu, hut, ht, hwords.length_le.trans (Nat.add_le_add_left hreadLength _)⟩,
    v, w, hv, hvw, hw, hwords'.length_le.trans (Nat.add_le_add_left hwriteLength _)⟩

section ideal
variable {s : State} {addr len : Word}

/-- CMD_READ over the ideal device presents the words of its range (R131). -/
theorem read_presents_ideal (hs : Ready s) (hlen : 1 ≤ len.toNat) (hvalid : addr.toNat < Config.capacity) :
    ∃ u t, exec (.cmdRead addr len) s = .next u ∧ Reaches u t ∧ t.st = .idle ∧
      Presented s (readWords s.params (addr.toNat / 256) (blocksTouched addr.toNat len.toNat)) t :=
  (bigRange_presents (.inl rfl) hs.legal hs.released (ideal_responsive hs.ideal) (by bv_omega) hvalid
    (readLoop_presents 4096)).reaches (readIsItsBigStep s addr len hs.legal hs.released hs.idle).1

/-- CMD_WRITE over the ideal device presents the words of its range (R149). -/
theorem write_presents_ideal (hs : Ready s) (hlen : 1 ≤ len.toNat) (hvalid : addr.toNat < Config.capacity) :
    ∃ u t, exec (.cmdWrite addr len) s = .next u ∧ Reaches u t ∧ t.st = .idle ∧
      Presented s (writeWords s.params (addr.toNat / 256) (blocksTouched addr.toNat len.toNat)) t :=
  (bigRange_presents (.inr rfl) hs.legal hs.released (ideal_responsive hs.ideal) (by bv_omega) hvalid
    (writeLoop_presents 4096)).reaches (writeIsItsBigStep s addr len hs.legal hs.released hs.idle).1

end ideal

/-- Settles O51: over the ideal device every word of the list is presented. -/
theorem traceShape : Obligations.TraceShape := by
  intro s addr len hp hr hst hideal hlen hvalid
  have hs : Ready s := ⟨hp, hr, hst, hideal⟩
  obtain ⟨u, t, hu, hut, ht, hwords⟩ := read_presents_ideal hs hlen hvalid
  obtain ⟨v, w, hv, hvw, hw, hwords'⟩ := write_presents_ideal hs hlen hvalid
  exact ⟨⟨u, t, hu, hut, ht, hwords.words_of_ideal hideal⟩, v, w, hv, hvw, hw, hwords'.words_of_ideal hideal⟩

/-- Settles O52: the length of that list, and the range past the array as the case in which its last block is the
array's. -/
theorem traceCounts : Obligations.TraceCounts := by
  rintro s addr len B0 B1 N V hp hr hst hideal hlen hvalid rfl rfl rfl rfl
  have hs : Ready s := ⟨hp, hr, hst, hideal⟩
  obtain ⟨u, t, hu, hut, ht, hwords⟩ := read_presents_ideal hs hlen hvalid
  obtain ⟨v, w, hv, hvw, hw, hwords'⟩ := write_presents_ideal hs hlen hvalid
  refine ⟨⟨u, t, hu, hut, ht, hwords.calls, ?_⟩, ⟨v, w, hv, hvw, hw, hwords'.calls, ?_⟩, fun hpast => ?_⟩
  · rw [hwords.words_of_ideal hideal, List.length_append, readWords_eq,
      length_commandWords_range s.params (m := 2) (fun _ => rfl) hlen hvalid]
    rfl
  · rw [hwords'.words_of_ideal hideal, List.length_append, writeWords_eq,
      length_commandWords_range s.params (m := 4) (fun _ => rfl) hlen hvalid]
    rfl
  · rw [if_neg (Nat.not_le_of_lt hpast)]
    omega

end Sys2Proof.Machine

/-! The copy of a write (R145) and what CMD_WRITE leaves in the store and at the host (R150, R152 g). -/

namespace Sys2Proof.Machine

/-! ## The copy of a write -/

/-- The copy of a write fetches each byte once, in ascending order (R55, R145). -/
theorem copyIn_trace_eq (s : State) :
    s.copyIn.trace = s.trace ++ (List.range s.copyLength).map fun k =>
      .inByte (s.count + BitVec.ofNat 32 k) (s.hostIn (s.count.toNat + k)) := by
  rw [copyIn_trace, State.incoming, hostEvents_map_range]

/-- Below the end of the buffer and of the range a copy moves at least one byte (R38, R127, R145). -/
theorem copyLength_pos {s : State} (hidx : s.idx.toNat ≤ 255) (hcount : s.count.toNat < s.len.toNat) :
    1 ≤ s.copyLength := by
  rw [State.copyLength, blockSize_eq]
  omega

/-- Settles O24: the step is the copy, whatever `count` comes to; a write is tested for its end after the write-back. -/
theorem copyInFills : Obligations.CopyInFills := by
  intro s n hr hst hc hidx hcount hn
  obtain rfl : n = s.copyLength := hn
  obtain ⟨hidx', hcount', -⟩ := bumpCursor_toNat hidx hcount
  refine ⟨_, (step_copy hr hst).trans (copyStep_write hidx hcount hc), fun i hi => getElem_copyIn_buf s hi, ?_,
    hidx', hcount', copyLength_pos⟩
  rw [← copyIn_trace_eq]
  rfl

/-! ## What a write stores -/

/-- Settles O49: the big-step rule stores the first `count` bytes over the ideal device, as many as lie in the array,
and the FSM's run ends where it ends. -/
theorem writeResult : Obligations.WriteResult := by
  intro s addr len hp hr hst hideal hlen hvalid hsupplied
  obtain ⟨t, hbig, hmoved, hwritten⟩ := bigWrite_ideal ⟨hp, hr, hst, hideal⟩ hlen hvalid hsupplied
  obtain ⟨hended, -⟩ := writeIsItsBigStep s addr len hp hr hst
  obtain ⟨u, hexec, hreach, hidle⟩ := hended _ hbig
  refine ⟨u, _, hexec, hreach, hidle, rfl, fun a ha => ?_, hwritten.host⟩
  have hcount : addr.toNat + t.count.toNat = min (addr.toNat + len.toNat) (2 ^ 20) := hmoved.moved
  have hiff : a < addr.toNat + t.count.toNat ↔ a < addr.toNat + len.toNat := by omega
  exact (hwritten.bytes a).trans (if_congr (and_congr_right' hiff) rfl rfl)

/-- `WriteResult` where the range runs past the array: of two bytes from the last address on, the first is
stored (R152 g). -/
theorem witness_writeResult_pastArray :
    let s : State := { State.reset with host := { State.reset.host with inBuf := [0xAA, 0xBB] } }
    ∃ u t, exec (.cmdWrite 0x000FFFFF 2) s = .next u ∧ Reaches u t ∧ t.status = .outOfRange ∧
      t.storeByte 0x000FFFFF = 0xAA := by
  intro s
  obtain ⟨u, t, hexec, hreach, -, hstatus, hbytes, -⟩ :=
    writeResult s 0x000FFFFF 2 (by decide) rfl rfl rfl (by decide) (by decide) (by decide)
  exact ⟨u, t, hexec, hreach, hstatus, hbytes 0x000FFFFF (by decide)⟩

end Sys2Proof.Machine

/-! The one device error (R153, R162, R166): which word and which operation an issuing state's instruction comes to, and
what is left of the command when the device answers it with nonzero. -/

namespace Sys2Proof.Machine

/-! ## The word and the operation of an issuing state -/

/-- R31, R99: an issuing state's instruction presents the word that it encodes to, and the device reads that word as a
WRITE_BLOCK in `WRBLK` alone. (`exec_issued` with the word and the operation named.) -/
theorem exec_issued_word {s : State} {i : Instr} {w : Word} (hd : s.params.opcodesDistinct = true)
    (hi : s.issued = some i) (hw : encode s.params i = .word w) :
    ∃ kind op go, deviceOp s.params w = some op ∧ (op = .writeBlock ↔ s.st = .wrblk) ∧
      exec i s = s.issue w kind go := by
  have hissues : s.issuesWord w := by simp [State.issuesWord, hi, hw]
  obtain ⟨hst, hc, rfl⟩ | ⟨hst, hc, rfl⟩ | ⟨hst, rfl⟩ | ⟨hst | hst, rfl⟩ | ⟨hst, rfl⟩ | ⟨hst, rfl⟩ :=
    (issuesWord_iff s w).1 hissues
  · obtain rfl : .mount = i := by simpa [State.issued, hst, hc] using hi
    exact ⟨_, _, _, deviceOp_mount 0 0, by simp [hst], exec_mount hst⟩
  · obtain rfl : .unmount = i := by simpa [State.issued, hst, hc] using hi
    exact ⟨_, _, _, deviceOp_unmount hd 0 0, by simp [hst], exec_unmount hst⟩
  · obtain rfl : .seekDrum s.drum s.block = i := by simpa [State.issued, hst] using hi
    exact ⟨_, _, _, deviceOp_seekDrum hd _ _, by simp [hst], exec_seekDrum _ _ hst⟩
  · obtain rfl : .seekBlock s.drum s.block = i := by simpa [State.issued, hst] using hi
    exact ⟨_, _, _, deviceOp_seekBlock hd _ _, by simp [hst], exec_seekBlock _ _ (.inl ⟨hst, rfl⟩)⟩
  · obtain rfl : .seekBlock s.drum s.block = i := by simpa [State.issued, hst] using hi
    exact ⟨_, _, _, deviceOp_seekBlock hd _ _, by simp [hst], exec_seekBlock _ _ (.inr ⟨hst, rfl⟩)⟩
  · obtain rfl : .readBlock s.drum s.block = i := by simpa [State.issued, hst] using hi
    exact ⟨_, _, _, deviceOp_readBlock hd _ _, by simp [hst], exec_readBlock _ _ hst⟩
  · obtain rfl : .writeBlock s.drum s.block = i := by simpa [State.issued, hst] using hi
    exact ⟨_, _, _, deviceOp_writeBlock hd _ _, by simp [hst], exec_writeBlock _ _ hst⟩

/-! ## What a failed operation leaves -/

/-- R92 (e), R153: an operation changes no stored byte, unless it is a WRITE_BLOCK and the byte lies in the block under
the device cursor. -/
theorem operated_read_kept (s : State) (w : Word) (kind : BufKind) (op : DeviceOp) (status : Nat)
    (rest : List Answer) {a : Nat}
    (ha : op = .writeBlock → a < s.dev.position ∨ s.dev.position + 256 ≤ a) :
    (s.operated w kind op status rest).dev.store.read a = s.dev.store.read a := by
  by_cases hop : op = .writeBlock
  · exact operated_read_outside s w kind op status rest (ha hop)
  · rw [operated_store s w kind op status rest hop]

/-- Settles O20: the state issues one word, the device's nonzero answer to it raises `DeviceFailure`, and the raise adds
nothing to what the operation did but the Completion. -/
theorem deviceFailureAborts : Obligations.DeviceFailureAborts := by
  intro s i w status rest hp hi hw ha hne
  obtain ⟨kind, op, go, hop, hwrite, hexec⟩ := exec_issued_word (Config.Params.distinct_of_wf hp) hi hw
  have hraised := issue_failed (kind := kind) go hop ha (statusFailed_eq_true hne)
  refine ⟨_, kind, if kind = .drain then some s.buf else none, hexec.trans hraised, rfl, rfl, ?_, rfl, rfl, rfl, rfl,
    fun a hout => ?_⟩
  · rw [raise_trace, operated_trace, List.append_assoc]
    rfl
  · exact operated_read_kept s w kind op status rest fun h => hout (hwrite.1 h)

end Sys2Proof.Machine

/-! Reset and hazards (70_reset_and_hazards.md): a busy block takes nothing from the host (R205), and what reset
establishes and abandons (R190, R191). -/

namespace Sys2Proof.Machine

/-! ## A busy block takes no command -/

/-- R205: the accept step of a host command, the instructions that encode to a packet, is guarded by `busy`. -/
theorem exec_hostCommand_of_busy {s : State} {i : Instr} {p : Packet} (hi : encode s.params i = .packet p)
    (hbusy : s.busy = true) : exec i s = .next s := by
  cases i with
  | cmdMount | cmdUnmount | cmdRead | cmdWrite => exact if_pos hbusy
  | mount | unmount | seekDrum | seekBlock | readBlock | writeBlock => cases hi

/-- An issuing step takes no call if its continuation takes none, whether or not and however the device answers. -/
theorem issue_calls {s t : State} {w : Word} {kind : BufKind} {go : Block → State → State}
    (h : s.issue w kind go = .next t) (hgo : ∀ data u, (go data u).host = u.host) :
    t.host.calls = s.host.calls := by
  obtain rfl | ⟨op, status, rest, -, -, ⟨-, rfl⟩ | ⟨-, rfl⟩⟩ := issue_next h
  · rfl
  · rw [raise_host, operated_host]
  · rw [hgo, operated_host]

/-- R127, R145: a copy moves bytes of the running call's buffers and leaves the calls to come. -/
theorem copyStep_calls {s t : State} (h : s.copyStep = .next t) : t.host.calls = s.host.calls := by
  unfold State.copyStep at h
  split at h
  · cases h
  · split at h
    · split at h <;> cases h <;> rfl
    · cases h; rfl
    · cases h
    · cases h

/-- R196, R205: the calls to come change in `IDLE` only. -/
theorem step_calls_of_not_idle {s t : State} (hidle : s.st ≠ .idle) (h : step s = .next t) :
    t.host.calls = s.host.calls := by
  cases hr : s.resetLine with
  | true =>
    cases (step_reset hr).symm.trans h
    rw [takeReset_host]
  | false =>
    cases hst : s.st with
    | idle => exact absurd hst hidle
    | mnt => exact issue_calls ((step_mnt hr hst).symm.trans h) fun _ u => completeOk_host u
    | seekD => exact issue_calls ((step_seekD hr hst).symm.trans h) fun _ _ => rfl
    | seekB => exact issue_calls ((step_seekB hr hst).symm.trans h) fun _ _ => rfl
    | rdblk => exact issue_calls ((step_rdblk hr hst).symm.trans h) fun _ _ => rfl
    | copy => exact copyStep_calls ((step_copy hr hst).symm.trans h)
    | seekB2 => exact issue_calls ((step_seekB2 hr hst).symm.trans h) fun _ _ => rfl
    | wrblk =>
      refine issue_calls ((step_wrblk hr hst).symm.trans h) fun _ u => ?_
      split
      · exact completeOk_host u
      · rfl
    | adv =>
      cases (step_adv hr hst).symm.trans h
      rw [advStep_host]

/-- Settles O14: the four accept steps are guarded by `busy`, and no row of R31 but those of `IDLE` takes a call. -/
theorem busyBlockTakesNoCommand : Obligations.BusyBlockTakesNoCommand := by
  intro s hidle
  have hbusy : s.busy = true := decide_eq_true hidle
  exact ⟨fun _ _ => ⟨exec_hostCommand_of_busy rfl hbusy, exec_hostCommand_of_busy rfl hbusy,
    exec_hostCommand_of_busy rfl hbusy, exec_hostCommand_of_busy rfl hbusy⟩,
    fun _ h => step_calls_of_not_idle hidle h⟩

/-! ## Reset -/

/-- R36: reset itself does not touch the device: with no operation in flight the device stays as it is. -/
theorem deviceAfterReset_of_not_issuing {s : State} (hi : s.issued = none) : s.deviceAfterReset = s.dev := by
  simp [State.deviceAfterReset, hi]

/-- Settles O28: the registers are those R190 gives, and the step is R31's row for `IDLE` with no command presented. -/
theorem resetState : Obligations.ResetState :=
  ⟨rfl, rfl, rfl, rfl, step_idle_none rfl rfl rfl⟩

/-- Settles O30: an asserted line is taken before anything else, and the device is touched only by the operation that
was in flight. -/
theorem resetAbandonsCommand : Obligations.ResetAbandonsCommand := fun s hr =>
  ⟨s.takeReset, step_reset hr, takeReset_st s, takeReset_status s, takeReset_resetLine s, takeReset_trace s,
    takeReset_host s, takeReset_params s, fun hi => (takeReset_dev s).trans (deviceAfterReset_of_not_issuing hi)⟩

end Sys2Proof.Machine
